-- ==== Sys2Proof/Word.lean ====
section
/-! DEFINITION. The word of the host port (spec/30_encoding.md R72). The units of the wire have the widths of R7 and stand
in Config.lean. -/

namespace Sys2Proof

/-- One word of the host port: a header, an operand, a status word or a data word (R72). -/
abbrev Word := BitVec 32

end Sys2Proof
end

