-- ==== Sys2Proof/Config.lean ====
section
/-! DEFINITION. What an implementation fixes (spec/00_scope.md R7, spec/30_encoding.md R69), and the free values
that the environment supplies (spec/00_scope.md R12, spec/10_state.md R30). The four widths of R7 are the constants here,
each at its default; they are fixed for the life of a model instance (R8), which is one build of this package, and every
type and operation of the model takes its widths from them. The default values of the other parameters stand in
Machine/Params.lean. -/

namespace Sys2Proof

/-- `W_OPC` (R7): the bits of an opcode. -/
abbrev Config.wOpc : Nat := 6

/-- `W_FRAME` (R7): the bits of a frame. -/
abbrev Config.wFrame : Nat := 16

/-- `W_WORD` (R7): the bits of a target word. -/
abbrev Config.wWord : Nat := 14

/-- `W_CUR` (R7): the bits of the cursor shadow's offset. -/
abbrev Config.wCur : Nat := 16

/-- An ICSP opcode, `W_OPC` bits (R64). -/
abbrev Opcode := BitVec Config.wOpc

/-- A frame as it stands on the wire, `W_FRAME` bits, bit 0 first (R65, R66). -/
abbrev Frame := BitVec Config.wFrame

/-- A target memory word, `W_WORD` bits, the payload of a frame (R38). -/
abbrev Payload := BitVec Config.wWord

/-- The ten ICSP commands, in the order of the source's list (R68). -/
inductive Cmd where
  | loadConfig
  | loadDataPm
  | loadDataDm
  | readDataPm
  | readDataDm
  | incrementAddress
  | resetAddress
  | beginIntProg
  | bulkErasePm
  | bulkEraseDm
deriving DecidableEq, Repr

/-- The region field of a region request, without its reserved value 3 (R73, R111). -/
inductive Region where
  | pm
  | dm
  | cfg
deriving DecidableEq, Repr

/-- The parameters of spec/00_scope.md R7 that are fixed for the life of an instance (R8): the latch sizes, `CFG_SKIP`,
`CFG_WORDS`, `GROUP`, `KEY`, the ten `OPC_<cmd>` values (R69), `LDCFG_PAYLOAD` (decision D8) and `NBITS_MAX`. They are
plain data carried by the state and written by no step, so that a statement about every state holds for every choice of
them (R69: "A model should keep the values a parameter"). The timing constants of R7 are the registers of
spec/10_state.md R24, the widths are the constants above, and `T_RES` is `Config.timerResolution`. -/
structure Params where
  /-- `L_PM` -/
  lPm : Nat
  /-- `L_DM` -/
  lDm : Nat
  /-- `L_CFG` -/
  lCfg : Nat
  /-- `CFG_SKIP` -/
  cfgSkip : Nat
  /-- `CFG_WORDS` -/
  cfgWords : Nat
  /-- `GROUP` -/
  group : Nat
  /-- `NBITS_MAX` -/
  nbitsMax : Nat
  /-- `KEY`, the first bit on the wire in bit 0 -/
  key : BitVec 33
  opcLoadConfig : Opcode
  opcLoadDataPm : Opcode
  opcLoadDataDm : Opcode
  opcReadDataPm : Opcode
  opcReadDataDm : Opcode
  opcIncrementAddress : Opcode
  opcResetAddress : Opcode
  opcBeginIntProg : Opcode
  opcBulkErasePm : Opcode
  opcBulkEraseDm : Opcode
  ldcfgPayload : Payload
deriving DecidableEq, Repr

/-- The level the target oracle answers at a sample that no scripted level and no attached reference target decides:
a free value, indexed by how many draws were taken before it (R12: "a free input bit supplied by the target oracle,
under no law"). -/
opaque Config.sampleDraw : Nat → Bool

/-- The level of the host's `abort` input at an abort point that no scripted level decides: a free value (R30: "In the
model it is a draw taken at each abort point"). -/
opaque Config.abortDraw : Nat → Bool

/-- The platform's timer resolution `T_RES` in ns, which the spec leaves OPEN (R26, decision D19). -/
opaque Config.timerResolution : Nat

end Sys2Proof
end

