-- ==== Sys2Proof/Machine/Params.lean ====
section
/-! DEFINITION. The values of the implementation parameters (spec/00_scope.md R7, spec/10_state.md R24,
spec/30_encoding.md R69). -/

namespace Sys2Proof

/-- The ten commands, in the order of R68. -/
def Cmd.all : List Cmd :=
  [.loadConfig, .loadDataPm, .loadDataDm, .readDataPm, .readDataDm, .incrementAddress, .resetAddress, .beginIntProg,
   .bulkErasePm, .bulkEraseDm]

/-- The opcode `OPC_<cmd>` of a command under given parameters (R69). -/
def Params.opc (p : Params) : Cmd → Opcode
  | .loadConfig => p.opcLoadConfig
  | .loadDataPm => p.opcLoadDataPm
  | .loadDataDm => p.opcLoadDataDm
  | .readDataPm => p.opcReadDataPm
  | .readDataDm => p.opcReadDataDm
  | .incrementAddress => p.opcIncrementAddress
  | .resetAddress => p.opcResetAddress
  | .beginIntProg => p.opcBeginIntProg
  | .bulkErasePm => p.opcBulkErasePm
  | .bulkEraseDm => p.opcBulkEraseDm

/-- R69: "The ten values must be pairwise distinct"; each is below 64 by its type. -/
def Params.wf (p : Params) : Bool := decide ((Cmd.all.map p.opc).Nodup)

/-- The latch size of a region: `L_PM`, `L_DM` or `L_CFG` (R7, R111). -/
def Params.latchSize (p : Params) : Region → Nat
  | .pm => p.lPm
  | .dm => p.lDm
  | .cfg => p.lCfg

/-- The defaults of R7 and R69. The key is the bytes 0x50, 0x48, 0x43, 0x4D in wire order, each least significant bit
first, and a 0 bit (R43, R67). -/
def Params.default : Params where
  lPm := 16
  lDm := 1
  lCfg := 1
  cfgSkip := 7
  cfgWords := 2
  group := 16
  nbitsMax := 32
  key := 0x04D434850
  opcLoadConfig := 0x00
  opcLoadDataPm := 0x02
  opcLoadDataDm := 0x03
  opcReadDataPm := 0x04
  opcReadDataDm := 0x05
  opcIncrementAddress := 0x06
  opcResetAddress := 0x16
  opcBeginIntProg := 0x08
  opcBulkErasePm := 0x09
  opcBulkEraseDm := 0x0B
  ldcfgPayload := 0

namespace Machine

/-- The reset value in ns of timing register `idx` (R24); indices 6 and up do not exist. -/
def timingReset : Nat → Word
  | 0 => 100
  | 1 => 1000
  | 2 => 5000000
  | 3 => 10000000
  | 4 => 10000000
  | 5 => 500000000
  | _ => 0

/-- The protocol floor in ns of timing register `idx` (R24); 0 where there is none. -/
def timingFloor : Nat → Nat
  | 0 => 100
  | 1 => 1000
  | 2 => 5000000
  | 3 => 1000000
  | _ => 0

end Machine

end Sys2Proof
end

