-- ==== Sys2Proof/Syntax.lean ====
section
/-! DEFINITION. One constructor per row of spec/opcode_table.json: the 25 host-port operations (spec/30_encoding.md
R79), the ten ICSP wire commands (R68) and the key (R67).

A host operation carries the header fields it uses (R74, R81) and its operand words as delivered, so that a request
with a wrong operand count is an instruction whose meaning is the refusal `E_BAD_ARG` (R75, R133). The value 3 of `RGN`
belongs to no row and is refused by the decoder. -/

namespace Sys2Proof

/-- The instructions of the engine. -/
inductive Instr where
  /-- GET_STATUS, R127. -/
  | getStatus (ops : List Word)
  /-- SET_TIMING, R128; `idx` is the COUNT field. -/
  | setTiming (idx : BitVec 16) (ops : List Word)
  /-- GET_TIMING, R129; `idx` is the COUNT field. -/
  | getTiming (idx : BitVec 16) (ops : List Word)
  /-- SEND_BITS, R90; `n` is the NBITS field. -/
  | sendBits (n : BitVec 6) (ops : List Word)
  /-- RECV_BITS, R91; `n` is the NBITS field. -/
  | recvBits (n : BitVec 6) (ops : List Word)
  /-- ENTER_PROG, R93. -/
  | enterProg (ops : List Word)
  /-- EXIT_PROG, R95. -/
  | exitProg (ops : List Word)
  /-- RESET_TARGET, R96. -/
  | resetTarget (ops : List Word)
  /-- CMD_LOAD_CONFIG, R100. -/
  | cmdLoadConfig (ops : List Word)
  /-- CMD_LOAD_DATA_PM, R101. -/
  | cmdLoadDataPm (ops : List Word)
  /-- CMD_LOAD_DATA_DM, R102. -/
  | cmdLoadDataDm (ops : List Word)
  /-- CMD_READ_DATA_PM, R103. -/
  | cmdReadDataPm (ops : List Word)
  /-- CMD_READ_DATA_DM, R104. -/
  | cmdReadDataDm (ops : List Word)
  /-- CMD_INCREMENT_ADDRESS, R105. -/
  | cmdIncrementAddress (ops : List Word)
  /-- CMD_RESET_ADDRESS, R106. -/
  | cmdResetAddress (ops : List Word)
  /-- CMD_BEGIN_INT_PROG, R107. -/
  | cmdBeginIntProg (ops : List Word)
  /-- CMD_BULK_ERASE_PM, R108. -/
  | cmdBulkErasePm (ops : List Word)
  /-- CMD_BULK_ERASE_DM, R109. -/
  | cmdBulkEraseDm (ops : List Word)
  /-- READ_REGION, R113. -/
  | readRegion (rgn : Region) (count : BitVec 16) (ops : List Word)
  /-- ERASE_REGION with RGN = 0, R116. -/
  | eraseRegionPm (count : BitVec 16) (ops : List Word)
  /-- ERASE_REGION with RGN = 1, R117. -/
  | eraseRegionDm (count : BitVec 16) (ops : List Word)
  /-- ERASE_REGION with RGN = 2, R118. -/
  | eraseRegionCfg (count : BitVec 16) (ops : List Word)
  /-- WRITE_REGION with RGN = 0, R119. -/
  | writeRegionPm (count : BitVec 16) (ops : List Word)
  /-- WRITE_REGION with RGN = 1, R120. -/
  | writeRegionDm (count : BitVec 16) (ops : List Word)
  /-- WRITE_REGION with RGN = 2, R121. -/
  | writeRegionCfg (count : BitVec 16) (ops : List Word)
  /-- ICSP.LOAD_CONFIGURATION, the wire command of R100, with the payload of its frame (R65). -/
  | icspLoadConfiguration (payload : Payload)
  /-- ICSP.LOAD_DATA_PROGRAM_MEMORY, the wire command of R101. -/
  | icspLoadDataProgramMemory (payload : Payload)
  /-- ICSP.LOAD_DATA_DATA_MEMORY, the wire command of R102. -/
  | icspLoadDataDataMemory (payload : Payload)
  /-- ICSP.READ_DATA_PROGRAM_MEMORY, the wire command of R103. -/
  | icspReadDataProgramMemory
  /-- ICSP.READ_DATA_DATA_MEMORY, the wire command of R104. -/
  | icspReadDataDataMemory
  /-- ICSP.INCREMENT_ADDRESS, the wire command of R105. -/
  | icspIncrementAddress
  /-- ICSP.RESET_ADDRESS, the wire command of R106. -/
  | icspResetAddress
  /-- ICSP.BEGIN_INTERNALLY_TIMED_PROGRAMMING, the wire command of R107. -/
  | icspBeginInternallyTimedProgramming
  /-- ICSP.BULK_ERASE_PROGRAM_MEMORY, the wire command of R108. -/
  | icspBulkEraseProgramMemory
  /-- ICSP.BULK_ERASE_DATA_MEMORY, the wire command of R109. -/
  | icspBulkEraseDataMemory
  /-- ICSP.KEY, the 33-bit key of R67 and R94. -/
  | icspKey
deriving DecidableEq, Repr

end Sys2Proof
end

