-- ==== Sys2Proof/WellFormed.lean ====
section
/-! DEFINITION. The legal field values and operand counts of a request (spec/30_encoding.md R74, R75;
spec/60_exceptions.md R133; spec/43_memory_access.md R118, R121). A host request that is not well formed is an
instruction all the same: its meaning is the refusal with `E_BAD_ARG`. -/

namespace Sys2Proof

/-- R74: `NBITS` is 1 to `NBITS_MAX`. -/
def wfBits (p : Params) (n : BitVec 6) : Bool := decide (1 ≤ n.toNat) && decide (n.toNat ≤ p.nbitsMax)

/-- R74: the timing register index is 0 to 5. -/
def wfIndex (idx : BitVec 16) : Bool := decide (idx.toNat ≤ 5)

/-- R75: the number of operand words is the one the operation takes. -/
def wfOperands (ops : List Word) (n : Nat) : Bool := decide (ops.length = n)

/-- R133 case 6: a configuration write takes 0 or `CFG_WORDS` words. -/
def wfConfigCount (p : Params) (count : BitVec 16) : Bool := decide (count.toNat = 0) || decide (count.toNat = p.cfgWords)

/-- R74, R75, R133: the request has legal fields and the operand count of its operation. A wire command and the key
have no illegal form. -/
def WellFormed (p : Params) : Instr → Bool
  | .getStatus ops => wfOperands ops 0
  | .setTiming idx ops => wfIndex idx && wfOperands ops 1
  | .getTiming idx ops => wfIndex idx && wfOperands ops 0
  | .sendBits n ops => wfBits p n && wfOperands ops 1
  | .recvBits n ops => wfBits p n && wfOperands ops 0
  | .enterProg ops => wfOperands ops 0
  | .exitProg ops => wfOperands ops 0
  | .resetTarget ops => wfOperands ops 0
  | .cmdLoadConfig ops => wfOperands ops 1
  | .cmdLoadDataPm ops => wfOperands ops 1
  | .cmdLoadDataDm ops => wfOperands ops 1
  | .cmdReadDataPm ops => wfOperands ops 0
  | .cmdReadDataDm ops => wfOperands ops 0
  | .cmdIncrementAddress ops => wfOperands ops 0
  | .cmdResetAddress ops => wfOperands ops 0
  | .cmdBeginIntProg ops => wfOperands ops 0
  | .cmdBulkErasePm ops => wfOperands ops 0
  | .cmdBulkEraseDm ops => wfOperands ops 0
  | .readRegion _ _ ops => wfOperands ops 0
  | .eraseRegionPm _ ops => wfOperands ops 0
  | .eraseRegionDm _ ops => wfOperands ops 0
  | .eraseRegionCfg _ _ => false
  | .writeRegionPm count ops => wfOperands ops count.toNat
  | .writeRegionDm count ops => wfOperands ops count.toNat
  | .writeRegionCfg count ops => wfConfigCount p count && wfOperands ops count.toNat
  | .icspLoadConfiguration _ => true
  | .icspLoadDataProgramMemory _ => true
  | .icspLoadDataDataMemory _ => true
  | .icspReadDataProgramMemory => true
  | .icspReadDataDataMemory => true
  | .icspIncrementAddress => true
  | .icspResetAddress => true
  | .icspBeginInternallyTimedProgramming => true
  | .icspBulkEraseProgramMemory => true
  | .icspBulkEraseDataMemory => true
  | .icspKey => true

end Sys2Proof
end

