-- ==== Sys2Proof/Decode.lean ====
section
/-! DEFINITION. The host-port and wire encodings, their decoder and their encoder (spec/30_encoding.md). -/

namespace Sys2Proof

/-- What reaches the engine as one unit: a request at the host port (R72), a wire command, its opcode and the 16 bits
that follow it (R70), or the 33 bits of the key (R67). The three are told apart by where they arrive, not by their
bits (R70: the key "is recognised by its position"). -/
inductive Message where
  | request (header : Word) (ops : List Word)
  | command (opc : Opcode) (frame : Frame)
  | key (bits : BitVec 33)
deriving DecidableEq, Repr

/-- Why a message is no instruction. `badOp` and `badArg` are the port's own refusals (R84); the other two name a wire
unit that is none of the ten commands (R71) or not the key. -/
inductive DecodeError where
  | badOp
  | badArg
  | noSuchCommand
  | notTheKey
deriving DecidableEq, Repr

/-- Header bits [7:0] (R73). -/
def headerOp (h : Word) : BitVec 8 := h.extractLsb' 0 8

/-- Header bits [9:8] (R73). -/
def headerRgn (h : Word) : BitVec 2 := h.extractLsb' 8 2

/-- Header bits [15:10] (R73). -/
def headerNbits (h : Word) : BitVec 6 := h.extractLsb' 10 6

/-- Header bits [31:16] (R73). -/
def headerCount (h : Word) : BitVec 16 := h.extractLsb' 16 16

/-- The header word with the given fields, `COUNT << 16 | NBITS << 10 | RGN << 8 | OP` (R73). -/
def mkHeader (op : BitVec 8) (rgn : BitVec 2) (nbits : BitVec 6) (count : BitVec 16) : Word :=
  op.setWidth 32 ||| rgn.setWidth 32 <<< 8 ||| nbits.setWidth 32 <<< 10 ||| count.setWidth 32 <<< 16

/-- `RGN` as a region; 3 is reserved (R73, R80). -/
def regionOf (r : BitVec 2) : Option Region :=
  match r.toNat with
  | 0 => some .pm
  | 1 => some .dm
  | 2 => some .cfg
  | _ => none

/-- The `RGN` value of a region (R73). -/
def regionCode : Region → BitVec 2
  | .pm => 0
  | .dm => 1
  | .cfg => 2

/-- A header word and its operand list, read by the table of R79. An unassigned `OP` is `badOp` (R80) and a region
request with the reserved `RGN` is `badArg` (R133 case 2). The other cases of R133 are instructions, refused by their
own meanings. -/
def decodeRequest (h : Word) (ops : List Word) : Except DecodeError Instr :=
  match (headerOp h).toNat with
  | 0x00 => .ok (.getStatus ops)
  | 0x01 => .ok (.setTiming (headerCount h) ops)
  | 0x02 => .ok (.getTiming (headerCount h) ops)
  | 0x08 => .ok (.sendBits (headerNbits h) ops)
  | 0x09 => .ok (.recvBits (headerNbits h) ops)
  | 0x10 => .ok (.enterProg ops)
  | 0x11 => .ok (.exitProg ops)
  | 0x12 => .ok (.resetTarget ops)
  | 0x20 => .ok (.cmdLoadConfig ops)
  | 0x21 => .ok (.cmdLoadDataPm ops)
  | 0x22 => .ok (.cmdLoadDataDm ops)
  | 0x23 => .ok (.cmdReadDataPm ops)
  | 0x24 => .ok (.cmdReadDataDm ops)
  | 0x25 => .ok (.cmdIncrementAddress ops)
  | 0x26 => .ok (.cmdResetAddress ops)
  | 0x27 => .ok (.cmdBeginIntProg ops)
  | 0x28 => .ok (.cmdBulkErasePm ops)
  | 0x29 => .ok (.cmdBulkEraseDm ops)
  | 0x30 =>
    match regionOf (headerRgn h) with
    | some r => .ok (.readRegion r (headerCount h) ops)
    | none => .error .badArg
  | 0x31 =>
    match regionOf (headerRgn h) with
    | some .pm => .ok (.eraseRegionPm (headerCount h) ops)
    | some .dm => .ok (.eraseRegionDm (headerCount h) ops)
    | some .cfg => .ok (.eraseRegionCfg (headerCount h) ops)
    | none => .error .badArg
  | 0x32 =>
    match regionOf (headerRgn h) with
    | some .pm => .ok (.writeRegionPm (headerCount h) ops)
    | some .dm => .ok (.writeRegionDm (headerCount h) ops)
    | some .cfg => .ok (.writeRegionCfg (headerCount h) ops)
    | none => .error .badArg
  | _ => .error .badOp

/-- The 16-bit frame that carries a payload: a 0 bit, the payload, a 0 bit (R65). -/
def frameOf (p : Payload) : Frame := p.setWidth Config.wFrame <<< 1

/-- The word a frame carries, bits [14:1]; bits 0 and 15 are not checked (R66). -/
def payloadOf (f : Frame) : Payload := f.extractLsb' 1 Config.wWord

/-- The command whose opcode is `c` (R69: the values are pairwise distinct). -/
def cmdOf (p : Params) (c : Opcode) : Option Cmd := Cmd.all.find? fun k => decide (p.opc k = c)

/-- A wire command: the opcode tells the command and its length (R70); the frame of an OUT command carries its
payload, and the other classes have no outbound frame (R68). -/
def decodeCommand (p : Params) (c : Opcode) (f : Frame) : Except DecodeError Instr :=
  match cmdOf p c with
  | some .loadConfig => .ok (.icspLoadConfiguration (payloadOf f))
  | some .loadDataPm => .ok (.icspLoadDataProgramMemory (payloadOf f))
  | some .loadDataDm => .ok (.icspLoadDataDataMemory (payloadOf f))
  | some .readDataPm => .ok .icspReadDataProgramMemory
  | some .readDataDm => .ok .icspReadDataDataMemory
  | some .incrementAddress => .ok .icspIncrementAddress
  | some .resetAddress => .ok .icspResetAddress
  | some .beginIntProg => .ok .icspBeginInternallyTimedProgramming
  | some .bulkErasePm => .ok .icspBulkEraseProgramMemory
  | some .bulkEraseDm => .ok .icspBulkEraseDataMemory
  | none => .error .noSuchCommand

/-- The decoder of every message. -/
def decode (p : Params) : Message → Except DecodeError Instr
  | .request h ops => decodeRequest h ops
  | .command c f => decodeCommand p c f
  | .key b => if b = p.key then .ok .icspKey else .error .notTheKey

/-- A host request with the fields an operation uses; the fields it does not use are 0 (R81). -/
def plainRequest (op : BitVec 8) (ops : List Word) : Message := .request (mkHeader op 0 0 0) ops

/-- The message of an instruction, from the tables R73, R79, R69 and R67. -/
def encode (p : Params) : Instr → Message
  | .getStatus ops => plainRequest 0x00 ops
  | .setTiming idx ops => .request (mkHeader 0x01 0 0 idx) ops
  | .getTiming idx ops => .request (mkHeader 0x02 0 0 idx) ops
  | .sendBits n ops => .request (mkHeader 0x08 0 n 0) ops
  | .recvBits n ops => .request (mkHeader 0x09 0 n 0) ops
  | .enterProg ops => plainRequest 0x10 ops
  | .exitProg ops => plainRequest 0x11 ops
  | .resetTarget ops => plainRequest 0x12 ops
  | .cmdLoadConfig ops => plainRequest 0x20 ops
  | .cmdLoadDataPm ops => plainRequest 0x21 ops
  | .cmdLoadDataDm ops => plainRequest 0x22 ops
  | .cmdReadDataPm ops => plainRequest 0x23 ops
  | .cmdReadDataDm ops => plainRequest 0x24 ops
  | .cmdIncrementAddress ops => plainRequest 0x25 ops
  | .cmdResetAddress ops => plainRequest 0x26 ops
  | .cmdBeginIntProg ops => plainRequest 0x27 ops
  | .cmdBulkErasePm ops => plainRequest 0x28 ops
  | .cmdBulkEraseDm ops => plainRequest 0x29 ops
  | .readRegion rgn count ops => .request (mkHeader 0x30 (regionCode rgn) 0 count) ops
  | .eraseRegionPm count ops => .request (mkHeader 0x31 0 0 count) ops
  | .eraseRegionDm count ops => .request (mkHeader 0x31 1 0 count) ops
  | .eraseRegionCfg count ops => .request (mkHeader 0x31 2 0 count) ops
  | .writeRegionPm count ops => .request (mkHeader 0x32 0 0 count) ops
  | .writeRegionDm count ops => .request (mkHeader 0x32 1 0 count) ops
  | .writeRegionCfg count ops => .request (mkHeader 0x32 2 0 count) ops
  | .icspLoadConfiguration payload => .command (p.opc .loadConfig) (frameOf payload)
  | .icspLoadDataProgramMemory payload => .command (p.opc .loadDataPm) (frameOf payload)
  | .icspLoadDataDataMemory payload => .command (p.opc .loadDataDm) (frameOf payload)
  | .icspReadDataProgramMemory => .command (p.opc .readDataPm) 0
  | .icspReadDataDataMemory => .command (p.opc .readDataDm) 0
  | .icspIncrementAddress => .command (p.opc .incrementAddress) 0
  | .icspResetAddress => .command (p.opc .resetAddress) 0
  | .icspBeginInternallyTimedProgramming => .command (p.opc .beginIntProg) 0
  | .icspBulkEraseProgramMemory => .command (p.opc .bulkErasePm) 0
  | .icspBulkEraseDataMemory => .command (p.opc .bulkEraseDm) 0
  | .icspKey => .key p.key

/-- The operand words R75 gives the operation of a header; 0 for an unassigned `OP`. -/
def operandWords (h : Word) : Nat :=
  match (headerOp h).toNat with
  | 0x01 => 1
  | 0x08 => 1
  | 0x20 => 1
  | 0x21 => 1
  | 0x22 => 1
  | 0x32 => (headerCount h).toNat
  | _ => 0

/-- `n` operand words from the bits of `w`, the first in its low 32 bits. -/
def operandsFrom : Nat → Nat → List Word
  | 0, _ => []
  | n + 1, w => BitVec.ofNat 32 w :: operandsFrom n (w >>> 32)

/-- A host-port header in the low 32 bits of `w`, with the operand words R75 gives it from the bits above. -/
def tableRequest (w : Nat) : Message :=
  .request (BitVec.ofNat 32 w) (operandsFrom (operandWords (BitVec.ofNat 32 w)) (w >>> 32))

/-- A wire command: its opcode in the low 6 bits of `w`, its frame in the 16 bits above (R64, R65). -/
def tableCommand (w : Nat) : Message :=
  .command (BitVec.ofNat Config.wOpc w) (BitVec.ofNat Config.wFrame (w >>> Config.wOpc))

/-- The message whose bits are `w`, numbered as spec/opcode_table.json numbers them, a bit above `nbits` being 0. The
table has three formats. A host row gives only the low 8 or 10 bits of its header, so a row of 8 bits or more is a
header, unless its `OP` is unassigned (R80) and its low 6 bits are the opcode of a wire command; the key is the one
value of R67, whose low byte 0x50 is an unassigned `OP`. Four 6-bit rows, given as 8 bits, are the same number as a host
row and are read as that (log entry 2); with fewer than 8 bits every row is a wire command. -/
def tableMessage (nbits w : Nat) : Message :=
  if nbits < 8 then tableCommand w
  else if nbits < 32 then
    match decodeRequest (BitVec.ofNat 32 w) [], cmdOf Params.default (BitVec.ofNat Config.wOpc w) with
    | .error .badOp, some _ => tableCommand w
    | _, _ => tableRequest w
  else if w = Params.default.key.toNat then .key (BitVec.ofNat 33 w)
  else tableRequest w

/-- The instruction the decoder reads from the bits `w` of a table row, under the default opcode values of R69. -/
def decodeTableWord (nbits w : Nat) : Option Instr :=
  match decode Params.default (tableMessage nbits w) with
  | .ok i => some i
  | .error _ => none

/-- The pseudo-instructions of R83. -/
inductive Pseudo where
  | readConfigBlock
  | readIdWord
  | writeConfig (a b : Word)
  | sendOpcode (c : Opcode)
  | nop
deriving DecidableEq, Repr

/-- The single request a pseudo-instruction expands to (R83). -/
def expandPseudo : Pseudo → Instr
  | .readConfigBlock => .readRegion .cfg 11 []
  | .readIdWord => .readRegion .cfg 7 []
  | .writeConfig a b => .writeRegionCfg 2 [a, b]
  | .sendOpcode c => .sendBits (BitVec.ofNat 6 Config.wOpc) [c.setWidth 32]
  | .nop => .getStatus []

/-- The assembly forms of R82, each a mnemonic with its operands. -/
inductive Asm where
  | getStatus
  | setTiming (idx : BitVec 16) (value : Word)
  | getTiming (idx : BitVec 16)
  | sendBits (n : BitVec 6) (value : Word)
  | recvBits (n : BitVec 6)
  | enterProg
  | exitProg
  | resetTarget
  | cmdLoadConfig (p : Word)
  | cmdLoadDataPm (p : Word)
  | cmdLoadDataDm (p : Word)
  | cmdReadDataPm
  | cmdReadDataDm
  | cmdIncrementAddress
  | cmdResetAddress
  | cmdBeginIntProg
  | cmdBulkErasePm
  | cmdBulkEraseDm
  | readRegion (rgn : Region) (count : BitVec 16)
  | eraseRegion (rgn : Region) (count : BitVec 16)
  | writeRegion (rgn : Region) (words : List Word)
  | pseudo (p : Pseudo)
deriving DecidableEq, Repr

/-- The request an assembly form stands for: `idx` goes in `COUNT`, `value` and `p` in the operand word, `n` in `NBITS`,
and the `COUNT` of a write is the length of its list (R82). -/
def assemble : Asm → Instr
  | .getStatus => .getStatus []
  | .setTiming idx value => .setTiming idx [value]
  | .getTiming idx => .getTiming idx []
  | .sendBits n value => .sendBits n [value]
  | .recvBits n => .recvBits n []
  | .enterProg => .enterProg []
  | .exitProg => .exitProg []
  | .resetTarget => .resetTarget []
  | .cmdLoadConfig p => .cmdLoadConfig [p]
  | .cmdLoadDataPm p => .cmdLoadDataPm [p]
  | .cmdLoadDataDm p => .cmdLoadDataDm [p]
  | .cmdReadDataPm => .cmdReadDataPm []
  | .cmdReadDataDm => .cmdReadDataDm []
  | .cmdIncrementAddress => .cmdIncrementAddress []
  | .cmdResetAddress => .cmdResetAddress []
  | .cmdBeginIntProg => .cmdBeginIntProg []
  | .cmdBulkErasePm => .cmdBulkErasePm []
  | .cmdBulkEraseDm => .cmdBulkEraseDm []
  | .readRegion rgn count => .readRegion rgn count []
  | .eraseRegion .pm count => .eraseRegionPm count []
  | .eraseRegion .dm count => .eraseRegionDm count []
  | .eraseRegion .cfg count => .eraseRegionCfg count []
  | .writeRegion .pm words => .writeRegionPm (BitVec.ofNat 16 words.length) words
  | .writeRegion .dm words => .writeRegionDm (BitVec.ofNat 16 words.length) words
  | .writeRegion .cfg words => .writeRegionCfg (BitVec.ofNat 16 words.length) words
  | .pseudo p => expandPseudo p

end Sys2Proof
end

