-- ==== Sys2Proof/Machine/State.lean ====
section
/-! DEFINITION. The engine's state (spec/10_state.md R15 to R34), the records of what it has put on its pins and its
port, and the environment it runs against (spec/00_scope.md R3). Everything is plain data. -/

namespace Sys2Proof.Machine

/-- The Protocol Session (R17). -/
inductive Session where
  | normal
  | prog
deriving DecidableEq, Repr

/-- The direction of DATA (R20). -/
inductive Dir where
  | out
  | inp
deriving DecidableEq, Repr

/-- The two spaces the cursor shadow distinguishes (R21). -/
inductive Space where
  | main
  | cfg
deriving DecidableEq, Repr

/-- The result codes 0 to 4 of R131; the codes 5 to 15 are "never produced". -/
inductive Result where
  | ok
  | eNotProg
  | eBadOp
  | eBadArg
  | aborted
deriving DecidableEq, Repr

/-- The levels the block drives: `mclr` (R18), `clk` (R19), `dat_out` and `dat_dir` (R20). -/
structure Lines where
  mclr : Bool
  clk : Bool
  datOut : Bool
  datDir : Dir
deriving DecidableEq, Repr

/-- The cursor shadow `cur_valid`, `cur_space`, `cur_off` (R21). -/
structure Cursor where
  valid : Bool
  space : Space
  off : BitVec Config.wCur
deriving DecidableEq, Repr

/-- The six timing registers, in ns (R24). -/
structure Timing where
  tEdge : Word
  tCmd : Word
  tProg : Word
  tMclr : Word
  tKey : Word
  tRst : Word
deriving DecidableEq, Repr

/-- The line events of R10. -/
inductive Event where
  /-- `Drive(MCLR, v)` -/
  | mclr (v : Bool)
  /-- `Drive(CLK, v)` -/
  | clk (v : Bool)
  /-- `Drive(DAT, v)` -/
  | dat (v : Bool)
  /-- `Dir(DAT, d)` -/
  | dir (d : Dir)
  /-- `Sample(b)` -/
  | sample (b : Bool)
deriving DecidableEq, Repr

/-- One item of a trace: a line event, or a wait of at least the given time in ns (R10, R11). -/
inductive TraceItem where
  | event (e : Event)
  | wait (ns : Nat)
deriving DecidableEq, Repr

/-- A response: the status word and the data words (R72, R76). -/
structure Response where
  status : Word
  data : List Word
deriving DecidableEq, Repr

/-- A word of a latch map, by its offset. -/
abbrev WordCell := Nat × Payload

/-- A target memory: what an offset that is not listed holds, and the other words by their offset, strictly rising
(Machine/TargetMemory.lean gives the canonical form). A word is `none` where nothing is known of it: each bit of a read
of it is a draw (R146). -/
structure Memory where
  rest : Option Payload
  cells : List (Nat × Option Payload)
deriving DecidableEq, Repr

/-- `rmode` of the reference target (R53). -/
inductive RMode where
  | run
  | keywait
  | lvp
  | lost
deriving DecidableEq, Repr

/-- The parameters of the reference target (R53). -/
structure Geometry where
  offBits : Nat
  pmWords : Nat
  dmWords : Nat
  blankPm : Payload
  blankDm : Payload
  dmMask : Payload
deriving DecidableEq, Repr

/-- The receive shift state of the reference target (R53 to R55), bits oldest first: the bits of the unit that is being
taken (the key in KEYWAIT, an opcode in LVP); the frame bits that follow the opcode of an OUT command; or the pulses
seen of the frame that the target is driving, which is fixed where the addressed word exists. -/
inductive Rx where
  | unit (bits : List Bool)
  | frame (cmd : Cmd) (bits : List Bool)
  | drive (raw : Option Frame) (pulse : Nat)
deriving DecidableEq, Repr

/-- The reference target of R53. The latch map `latchP` is held as one map for each space. `due` is what is left, in ns,
of the settle of the last timed command: R62 asks whether it has elapsed. `raw` says that a raw request, not a command,
put the last bits on the lines; `stray` counts, modulo a frame, the pulses of raw requests that clocked in bits which the
target did not drive: R147 and R152 ask whether raw requests left part of a unit. -/
structure RefTarget where
  geo : Geometry
  rmode : RMode
  rspace : Space
  roff : Nat
  pm : Memory
  cfg : Memory
  dm : Memory
  latchMain : List WordCell
  latchCfg : List WordCell
  latchD : List WordCell
  rx : Rx
  due : Nat
  raw : Bool
  stray : Nat
deriving DecidableEq, Repr

/-- What is on the far side of the lines. -/
inductive Env where
  /-- An oracle, every sampled bit of which is a draw (R3, R12): the normative model. -/
  | oracle
  /-- The reference target of R53 to R62, the environment of the test vectors. -/
  | reference (t : RefTarget)
  /-- The reference target desynchronised: every sampled bit is a draw until RESET_TARGET and then ENTER_PROG have
  brought it back (R146, R147, U2). `held` says that MCLR is at 0 with no CLK event since it was driven there;
  `restarted` that MCLR was then raised, which RESET_TARGET alone does. -/
  | desync (t : RefTarget) (held restarted : Bool)
deriving DecidableEq, Repr

/-- The levels the environment will answer: the scripted levels of DATA at the coming samples and of `abort` at the
coming abort points, and how many free draws were taken where a script had ended. -/
structure Draws where
  bits : List Bool
  aborts : List Bool
  taken : Nat
deriving DecidableEq, Repr

/-- What the outside does at the port: it delivers a message (R72), it resets the block while no request is in flight
(R145), or it delivers a message and resets the block while that message is being performed, after its first `k` trace
items (R146). -/
inductive Input where
  | message (m : Message)
  | reset
  | messageThenReset (m : Message) (k : Nat)
deriving DecidableEq, Repr

/-- Why the machine stops with a fault. The block itself has no fault that stops it: its faults are result codes and
next states (R130, R137). -/
inductive Fault where
  /-- Raised by `step` alone, in a state with `busy` set: a request is in flight, none is accepted, and "the model gives
  the host no step" (R29). Every request is one step here, so no run reaches such a state. Safe. -/
  | requestInFlight
deriving DecidableEq, Repr

/-- Why the machine refuses what is at its port. -/
inductive Refusal where
  /-- Raised by an arm of `exec` whose instruction has no meaning yet. Safe. -/
  | notModelled (mnemonic : String)
  /-- Raised by `step` alone: the unit handed to the command layer carries a 6-bit value that is none of the ten
  commands; "The block never emits one from a command or region request" (R71). Safe. -/
  | noSuchCommand
  /-- Raised by `step` alone: the 33-bit unit is not the key of R67, and no other 33-bit unit exists (R63). Safe. -/
  | notTheKey
deriving DecidableEq, Repr

/-- The state of the model. `session` to `busy` are the tuple of R15. `params` holds the parameters of R7 that are fixed
for an instance. `inbox`, `traceRev` and `responses` are the port's input and the two records of the block's
observable behaviour (R6), the newest first. `env` and `draws` are the environment (R3). -/
structure State where
  params : Params
  session : Session
  lines : Lines
  cursor : Cursor
  timing : Timing
  lastResult : Result
  faultSeen : Bool
  busy : Bool
  inbox : List Input
  traceRev : List TraceItem
  responses : List Response
  env : Env
  draws : Draws
deriving DecidableEq, Repr

/-- The trace, in the order its items were emitted (R10, R31). -/
def State.trace (s : State) : List TraceItem := s.traceRev.reverse

/-- The timing registers at reset (R24). -/
def Timing.reset : Timing where
  tEdge := timingReset 0
  tCmd := timingReset 1
  tProg := timingReset 2
  tMclr := timingReset 3
  tKey := timingReset 4
  tRst := timingReset 5

/-- The machine right after block reset (R34), its trace the four events of R145. -/
def State.reset : State where
  params := Params.default
  session := .normal
  lines := { mclr := true, clk := false, datOut := false, datDir := .out }
  cursor := { valid := false, space := .main, off := 0 }
  timing := Timing.reset
  lastResult := .ok
  faultSeen := false
  busy := false
  inbox := []
  traceRev := [.event (.mclr true), .event (.dat false), .event (.dir .out), .event (.clk false)]
  responses := []
  env := .oracle
  draws := { bits := [], aborts := [], taken := 0 }

end Sys2Proof.Machine
end

