-- ==== Sys2Proof/Machine/Operands.lean ====
section
/-! DEFINITION. The operand forms of a request: field checks, payloads, frames and read words (spec/30_encoding.md R65,
R66, R68, R74, R75, R78), the region table (spec/43_memory_access.md R111) and the timing registers by index
(spec/10_state.md R24). -/

namespace Sys2Proof.Machine

/-- The request carries exactly `n` operand words (R75). -/
def hasOperands (ops : List Word) (n : Nat) : Bool := decide (ops.length = n)

/-- `NBITS` is legal (R74). -/
def bitsLegal (p : Params) (n : BitVec 6) : Bool := decide (1 ≤ n.toNat) && decide (n.toNat ≤ p.nbitsMax)

/-- The timing register index is legal (R74). -/
def indexLegal (idx : BitVec 16) : Bool := decide (idx.toNat < 6)

/-- The count of a configuration write is legal (R133 case 6). -/
def configCountLegal (p : Params) (count : BitVec 16) : Bool :=
  decide (count.toNat = 0) || decide (count.toNat = p.cfgWords)

/-- The first operand word; a request that needs one is refused before it is read where there is none. -/
def operand (ops : List Word) : Word := ops.headD 0

/-- The payload of an operand word: bits [13:0]; bits [31:14] are ignored (R75). -/
def operandPayload (w : Word) : Payload := w.setWidth Config.wWord

/-- `read_word(raw)` (R78). -/
def readWord (raw : Frame) : Word := (raw.setWidth 32 <<< 16) ||| (payloadOf raw).setWidth 32

/-- What follows a command's opcode: nothing, a frame sent, or a frame received (R68). -/
inductive CmdClass where
  | none
  | out
  | inp
deriving DecidableEq, Repr

/-- The class of a command (R68). -/
def cmdClass : Cmd → CmdClass
  | .loadConfig => .out
  | .loadDataPm => .out
  | .loadDataDm => .out
  | .readDataPm => .inp
  | .readDataDm => .inp
  | .incrementAddress => .none
  | .resetAddress => .none
  | .beginIntProg => .none
  | .bulkErasePm => .none
  | .bulkEraseDm => .none

/-- Whether a command starts internal device timing (R68). -/
def cmdTimed : Cmd → Bool
  | .beginIntProg => true
  | .bulkErasePm => true
  | .bulkEraseDm => true
  | _ => false

/-- The read command of a region (R111). -/
def readCmd : Region → Cmd
  | .pm => .readDataPm
  | .dm => .readDataDm
  | .cfg => .readDataPm

/-- The load command of a region (R111). -/
def loadCmd : Region → Cmd
  | .pm => .loadDataPm
  | .dm => .loadDataDm
  | .cfg => .loadDataPm

/-- The positioning command of a region (R111). -/
def positionCmd : Region → Cmd
  | .pm => .resetAddress
  | .dm => .resetAddress
  | .cfg => .loadConfig

/-- The programming trigger `prog(i, n, L)` (R122). -/
def progTrigger (i n l : Nat) : Bool := decide ((i + 1) % l = 0) || decide (i + 1 = n)

/-- The display grouping `groups(n)` of R115 with `GROUP` = `g`, which the host applies: first offset and length of each
group. -/
def groups (g n : Nat) : List (Nat × Nat) :=
  (List.range ((n + (g - 1)) / g)).map fun k => (g * k, min g (n - g * k))

/-- Timing register `idx` (R24). -/
def Timing.get (t : Timing) (idx : Nat) : Word :=
  match idx with
  | 0 => t.tEdge
  | 1 => t.tCmd
  | 2 => t.tProg
  | 3 => t.tMclr
  | 4 => t.tKey
  | 5 => t.tRst
  | _ => 0

/-- Writing timing register `idx` (R24, R25: it accepts any value). -/
def Timing.set (t : Timing) (idx : Nat) (v : Word) : Timing :=
  match idx with
  | 0 => { t with tEdge := v }
  | 1 => { t with tCmd := v }
  | 2 => { t with tProg := v }
  | 3 => { t with tMclr := v }
  | 4 => { t with tKey := v }
  | 5 => { t with tRst := v }
  | _ => t

end Sys2Proof.Machine
end

