-- ==== Sys2Proof/Machine/Flags.lean ====
section
/-! DEFINITION. The status word and the bits in it (spec/30_encoding.md R77, spec/10_state.md R25, R32). -/

namespace Sys2Proof.Machine

/-- The 4-bit code of a result (R131). -/
def Result.code : Result → BitVec 4
  | .ok => 0
  | .eNotProg => 1
  | .eBadOp => 2
  | .eBadArg => 3
  | .aborted => 4

/-- The results that are faults (R131). -/
def Result.isFault : Result → Bool
  | .ok => false
  | .eNotProg => true
  | .eBadOp => true
  | .eBadArg => true
  | .aborted => false

/-- `BELOW_FLOOR`: some timing register is below its floor (R25). -/
def belowFloor (t : Timing) : Bool :=
  decide (t.tEdge.toNat < timingFloor 0) || decide (t.tCmd.toNat < timingFloor 1) ||
  decide (t.tProg.toNat < timingFloor 2) || decide (t.tMclr.toNat < timingFloor 3) ||
  decide (t.tKey.toNat < timingFloor 4) || decide (t.tRst.toNat < timingFloor 5)

/-- A one-bit flag at bit `pos` of a port word. -/
def flagAt (pos : Nat) (b : Bool) : Word := (BitVec.ofBool b).setWidth 32 <<< pos

/-- The status word of R77: `RESULT` in [3:0], the five flags in bits 4 to 8, zeros in [15:9], `CUR_OFF` in [31:16]. -/
def statusWord (s : State) : Word :=
  s.lastResult.code.setWidth 32 ||| flagAt 4 (decide (s.session = .prog)) ||| flagAt 5 s.faultSeen |||
    flagAt 6 (belowFloor s.timing) ||| flagAt 7 s.cursor.valid ||| flagAt 8 (decide (s.cursor.space = .cfg)) |||
    s.cursor.off.setWidth 32 <<< 16

end Sys2Proof.Machine
end

