-- ==== Sys2Proof/Machine/TargetMemory.lean ====
section
/-! DEFINITION. The memories of the reference target (spec/20_memory.md R53): words by offset, in one canonical form.
The offsets rise strictly and no listed word is what an unlisted offset holds; so equal memories are equal data. A latch
map is partial: an unlisted offset holds nothing, and any word may be listed. -/

namespace Sys2Proof.Machine

/-- What is listed at an offset. -/
def cellLookup {α : Type} : List (Nat × α) → Nat → Option α
  | [], _ => none
  | (a, w) :: rest, x => if a = x then some w else cellLookup rest x

/-- The list without what it has at an offset. -/
def cellErase {α : Type} : List (Nat × α) → Nat → List (Nat × α)
  | [], _ => []
  | (a, w) :: rest, x => if a = x then rest else (a, w) :: cellErase rest x

/-- The list with a value put at an offset. -/
def cellInsert {α : Type} : List (Nat × α) → Nat → α → List (Nat × α)
  | [], x, v => [(x, v)]
  | (a, w) :: rest, x, v =>
    if x < a then (x, v) :: (a, w) :: rest
    else if x = a then (x, v) :: rest
    else (a, w) :: cellInsert rest x v

/-- The word a memory holds at an offset; `none` where nothing is known of it. -/
def memRead (m : Memory) (x : Nat) : Option Payload := (cellLookup m.cells x).getD m.rest

/-- Writing a memory, or losing the word at an offset: what an unlisted offset holds is not listed. -/
def memWrite (m : Memory) (x : Nat) (v : Option Payload) : Memory :=
  { m with cells := if v = m.rest then cellErase m.cells x else cellInsert m.cells x v }

/-- A memory every word of which is the same. -/
def Memory.fill (v : Option Payload) : Memory := { rest := v, cells := [] }

/-- A memory with the given words, blank elsewhere. -/
def Memory.given (blank : Payload) (ws : List WordCell) : Memory :=
  ws.foldl (fun m c => memWrite m c.1 (some c.2)) (Memory.fill (some blank))

/-- The offsets rise strictly, all of them from `lo` on. -/
def cellsRiseFrom {α : Type} : Nat → List (Nat × α) → Bool
  | _, [] => true
  | lo, (a, _) :: rest => decide (lo ≤ a) && cellsRiseFrom (a + 1) rest

/-- The canonical form of a partial map. -/
def cellsWf {α : Type} (m : List (Nat × α)) : Bool := cellsRiseFrom 0 m

/-- The canonical form of a memory. -/
def Memory.wf (m : Memory) : Bool := cellsWf m.cells && m.cells.all fun c => decide (c.2 ≠ m.rest)

end Sys2Proof.Machine
end

