-- ==== Sys2Proof/Machine/Target.lean ====
section
/-! DEFINITION. The reference target (spec/20_memory.md R53 to R62): how the decided environment of the test vectors
reads the lines and answers a sample. It is no part of the block, and R12 keeps the normative model free of it: the
state after reset has the oracle instead. -/

namespace Sys2Proof.Machine

/-- The parameters R53 gives for the vectors. -/
def Geometry.vectors : Geometry where
  offBits := 15
  pmWords := 2048
  dmWords := 256
  blankPm := 0x3FFF
  blankDm := 0x00FF
  dmMask := 0x00FF

/-- The erased value of a configuration word (R61). -/
def blankCfg : Payload := 0x3FFF

/-- The first 32 bits of the key, as the value the target compares them with (R54). -/
def keyValue : Nat := 0x4D434850

/-- The configuration offsets that programming and the bulk erase can write (R60, R61). -/
def cfgWritable : List Nat := [0, 1, 2, 3, 7, 8]

/-- The number of words of `CFG[0..10]` (R53). -/
def cfgBlockWords : Nat := 11

/-- A reference target in `RUN` with the given memories, blank where nothing is given. `rspace` and `roff` before the key
are given by no rule (R53, R54): DESIGN CHOICE, main and 0, log entry 14; no read or load reaches them before the key
writes both. -/
def RefTarget.power (geo : Geometry) (pm cfg dm : List WordCell) : RefTarget where
  geo := geo
  rmode := .run
  rspace := .main
  roff := 0
  pm := Memory.given geo.blankPm pm
  cfg := Memory.given blankCfg cfg
  dm := Memory.given geo.blankDm dm
  latchMain := []
  latchCfg := []
  latchD := []
  rx := .unit []
  due := 0
  raw := false
  stray := 0

/-- The value of bits taken least significant bit first (R9, R87: `r | (b << i)`). -/
def bitsValue : List Bool → Nat
  | [] => 0
  | b :: bs => b.toNat + 2 * bitsValue bs

/-- MCLR at 1: `RUN`, with the latches and the shift state empty (R54). -/
def targetRun (t : RefTarget) : RefTarget :=
  { t with rmode := .run, latchMain := [], latchCfg := [], latchD := [], rx := .unit [], raw := false, stray := 0 }

/-- MCLR from 1 to 0: `KEYWAIT` (R54). -/
def targetKeywait (t : RefTarget) : RefTarget := { t with rmode := .keywait, rx := .unit [] }

/-- The 33 bits after the entry edge are in: `LVP` where the first 32 are the key, `LOST` otherwise (R54). -/
def targetKey (bits : List Bool) (t : RefTarget) : RefTarget :=
  if bitsValue (bits.take 32) = keyValue then
    { t with rmode := .lvp, rspace := .main, roff := 0, latchMain := [], latchCfg := [], latchD := [], rx := .unit [] }
  else { t with rmode := .lost, rx := .unit [] }

/-- The word a read command answers, where the addressed word exists and is known (R58, R146). -/
def targetRead (c : Cmd) (t : RefTarget) : Option Payload :=
  match c with
  | .readDataPm =>
    match t.rspace with
    | .main => if t.roff < t.geo.pmWords then memRead t.pm t.roff else none
    | .cfg => if t.roff < cfgBlockWords then memRead t.cfg t.roff else none
  | .readDataDm => if t.roff < t.geo.dmWords then memRead t.dm t.roff else none
  | _ => none

/-- The words of a list put at their offsets, where the space has them; `none` is a word lost. -/
def commitWords (has : Nat → Bool) : List (Nat × Option Payload) → Memory → Memory
  | [], m => m
  | (o, w) :: rest, m => commitWords has rest (if has o then memWrite m o w else m)

/-- The words of a latch map. -/
def latchWords (latch : List WordCell) : List (Nat × Option Payload) := latch.map fun c => (c.1, some c.2)

/-- The offsets of a latch map, with no word known at any. -/
def latchOffsets (latch : List WordCell) : List (Nat × Option Payload) := latch.map fun c => (c.1, none)

/-- Program, configuration and data words changed at the given offsets, each where its memory has it (R60). -/
def targetCommit (pm cfg dm : List (Nat × Option Payload)) (t : RefTarget) : RefTarget :=
  { t with
    pm := commitWords (fun o => decide (o < t.geo.pmWords)) pm t.pm
    cfg := commitWords (fun o => decide (o ∈ cfgWritable)) cfg t.cfg
    dm := commitWords (fun o => decide (o < t.geo.dmWords)) dm t.dm }

/-- The latch maps are emptied (R54, R60, R61). -/
def targetUnlatch (t : RefTarget) : RefTarget := { t with latchMain := [], latchCfg := [], latchD := [] }

/-- Begin Internally Timed Programming (R60). -/
def targetProgram (t : RefTarget) : RefTarget :=
  targetUnlatch (targetCommit (latchWords t.latchMain) (latchWords t.latchCfg) (latchWords t.latchD) t)

/-- The configuration words that can be written, all set or all lost (R61, R146). -/
def fillCfg (v : Option Payload) (m : Memory) : Memory :=
  commitWords (fun _ => true) (cfgWritable.map fun o => (o, v)) m

/-- Bulk Erase Program Memory (R61). -/
def targetErasePm (t : RefTarget) : RefTarget :=
  targetUnlatch
    { t with
      pm := Memory.fill (some t.geo.blankPm)
      cfg := match t.rspace with
        | .main => t.cfg
        | .cfg => fillCfg (some blankCfg) t.cfg }

/-- Bulk Erase Data Memory (R61). -/
def targetEraseDm (t : RefTarget) : RefTarget := targetUnlatch { t with dm := Memory.fill (some t.geo.blankDm) }

/-- Nothing is known any more of the program words and of the configuration words that can be written. -/
def forgetProgram (t : RefTarget) : RefTarget := { t with pm := Memory.fill none, cfg := fillCfg none t.cfg }

/-- Nothing is known any more of the data words. -/
def forgetData (t : RefTarget) : RefTarget := { t with dm := Memory.fill none }

/-- Nothing is known any more of any word that can be written. -/
def forgetAll (t : RefTarget) : RefTarget := forgetData (forgetProgram t)

/-- The settle of a timed command in ns, as R98 waits for it. -/
def settleTime (τ : Timing) : Nat := max τ.tCmd.toNat τ.tProg.toNat

/-- A whole opcode is in: the target acts on it, or gets ready for the frame that follows it (R55, R59 to R61). The
settle of a timed command begins (R62). Where a read finds no word, R58 makes each returned bit a draw, and the start
and stop bits of R55 are taken to be draws with the word's bits: DESIGN CHOICE, log entry 20. -/
def targetOpcode (τ : Timing) (c : Cmd) (t : RefTarget) : RefTarget :=
  match c with
  | .loadConfig => { t with rx := .frame c [] }
  | .loadDataPm => { t with rx := .frame c [] }
  | .loadDataDm => { t with rx := .frame c [] }
  | .readDataPm => { t with rx := .drive ((targetRead c t).map frameOf) 0 }
  | .readDataDm => { t with rx := .drive ((targetRead c t).map frameOf) 0 }
  | .incrementAddress => { t with roff := (t.roff + 1) % 2 ^ t.geo.offBits, rx := .unit [] }
  | .resetAddress => { t with rspace := .main, roff := 0, rx := .unit [] }
  | .beginIntProg => { targetProgram t with rx := .unit [], due := settleTime τ }
  | .bulkErasePm => { targetErasePm t with rx := .unit [], due := settleTime τ }
  | .bulkEraseDm => { targetEraseDm t with rx := .unit [], due := settleTime τ }

/-- A whole frame is in, with the payload of its bits [14:1] (R55 to R57). -/
def targetFrame (c : Cmd) (payload : Payload) (t : RefTarget) : RefTarget :=
  match c with
  | .loadConfig => { t with rspace := .cfg, roff := 0, rx := .unit [] }
  | .loadDataPm =>
    match t.rspace with
    | .main => { t with latchMain := cellInsert t.latchMain t.roff payload, rx := .unit [] }
    | .cfg => { t with latchCfg := cellInsert t.latchCfg t.roff payload, rx := .unit [] }
  | .loadDataDm => { t with latchD := cellInsert t.latchD t.roff (payload &&& t.geo.dmMask), rx := .unit [] }
  | _ => { t with rx := .unit [] }

/-- One more bit of a unit in `LVP`: part of an opcode, a whole one, or one that is none of the ten commands (R55). -/
def targetUnitBit (p : Params) (τ : Timing) (bits : List Bool) (t : RefTarget) : RefTarget :=
  if bits.length < Config.wOpc then { t with rx := .unit bits }
  else
    match cmdOf p (BitVec.ofNat Config.wOpc (bitsValue bits)) with
    | some c => targetOpcode τ c t
    | none => { t with rmode := .lost, rx := .unit [] }

/-- The target takes one bit while the block drives DATA (R54, R55). `none` is a case R62 leaves undefined: a command that
arrives before the settle of the command before it has elapsed, or a bit the block drives while the target is
driving. -/
def targetTakeBit (p : Params) (τ : Timing) (b : Bool) (t : RefTarget) : Option RefTarget :=
  match t.rmode with
  | .run => some t
  | .lost => some t
  | .keywait =>
    match t.rx with
    | .unit bits =>
      some (if bits.length + 1 < 33 then { t with rx := .unit (bits ++ [b]) } else targetKey (bits ++ [b]) t)
    | .frame _ _ => some t
    | .drive _ _ => some t
  | .lvp =>
    if t.due ≠ 0 then none
    else
      match t.rx with
      | .unit bits => some (targetUnitBit p τ (bits ++ [b]) t)
      | .frame c bits =>
        some (if bits.length + 1 < Config.wFrame then { t with rx := .frame c (bits ++ [b]) }
          else targetFrame c (payloadOf (BitVec.ofNat Config.wFrame (bitsValue (bits ++ [b])))) t)
      | .drive _ _ => none

/-- A pulse that clocks a bit in has ended. Sixteen of them make the frame that the target drives (R55); where it drives
none, the pulse of a raw request is part of a frame that is none of the target's: DESIGN CHOICE, log entry 22. -/
def targetPulse (t : RefTarget) : RefTarget :=
  match t.rmode, t.rx with
  | .lvp, .drive raw j => { t with rx := if j + 1 < Config.wFrame then .drive raw (j + 1) else .unit [] }
  | .lvp, _ => if t.raw then { t with stray := (t.stray + 1) % Config.wFrame } else t
  | _, _ => t

/-- Part of a unit is in: some bits of an opcode, of a frame or of the key, but not all. A whole opcode whose frame has not
begun is no part unit, since R45 and R63 make the opcode a unit of its own: DEDUCED, log entry 13. -/
def partIn : Rx → Bool
  | .unit bits => decide (bits ≠ [])
  | .frame _ bits => decide (bits ≠ [])
  | .drive _ pulse => decide (pulse ≠ 0)

/-- Raw requests have left part of a unit (R147, R152). What counts as part of one where bits were clocked in is the
model's choice: DESIGN CHOICE, log entry 22. -/
def partUnit (t : RefTarget) : Bool := t.raw && (partIn t.rx || decide (t.stray ≠ 0))

/-- A raw request turns DATA round in the middle of a unit: it clocks a bit in where part of an opcode or of a frame has
been sent, or sends one where part of a frame has been clocked in that the target does not drive (R152): DESIGN CHOICE,
log entry 22. -/
def unitCut (l : Lines) (t : RefTarget) : Bool :=
  match t.rmode, l.datDir, t.rx with
  | .lvp, .inp, .drive _ _ => false
  | .lvp, .inp, rx => t.raw && partIn rx
  | .lvp, .out, _ => t.raw && decide (t.stray ≠ 0)
  | _, _, _ => false

/-- The level the target answers at a sample, where the rules fix it (R55, R58): bit `j` of the frame on pulse `j`. -/
def targetLevel (t : RefTarget) : Option Bool :=
  match t.rmode, t.rx with
  | .lvp, .drive (some raw) j => some (raw.getLsbD j)
  | _, _ => none

/-- What a falling edge of CLK does to a desynchronised target: the key is taken as ever, and it ends the recovery where
RESET_TARGET went before it; a bit that reaches `LVP` may complete any command, so no word that can be written is known
after it (R147, U2). The cases R62 leaves undefined stay so. -/
def desyncFall (p : Params) (τ : Timing) (l : Lines) (t : RefTarget) (restarted : Bool) : Env :=
  match l.datDir, targetTakeBit p τ l.datOut t with
  | .inp, _ => .desync t false restarted
  | .out, none => .oracle
  | .out, some t' =>
    match t.rmode with
    | .run => .desync t false restarted
    | .lost => .desync t false restarted
    | .lvp => .desync (forgetAll t) false restarted
    | .keywait =>
      if t'.rmode = .lvp ∧ restarted = true then .reference t' else .desync t' false restarted

/-- What a falling edge of CLK does to the target (R54, R55). A unit that a raw request cuts desynchronises it (R152). -/
def targetFall (p : Params) (τ : Timing) (l : Lines) (t : RefTarget) : Env :=
  if unitCut l t then desyncFall p τ l t false
  else
    match l.datDir with
    | .out =>
      match targetTakeBit p τ l.datOut t with
      | some t' => .reference t'
      | none => .oracle
    | .inp => .reference (targetPulse t)

/-- What a drive of MCLR does to the target's mode (R54). -/
def targetMclr (l : Lines) (v : Bool) (t : RefTarget) : RefTarget :=
  if v then targetRun t else if l.mclr then targetKeywait t else t

/-- A drive of MCLR seen by a desynchronised target: raising it after it was held at 0 with no CLK event is what
RESET_TARGET does (R96, R147). -/
def desyncMclr (l : Lines) (v : Bool) (t : RefTarget) (held restarted : Bool) : Env :=
  .desync (targetMclr l v t) (!v) (restarted || (v && held))

/-- The environment after a line event, seen with the levels before it. A reference target that meets a case R62 leaves
undefined becomes the oracle: from then on every sampled bit and every memory word is a draw. A drive of MCLR after raw
requests left part of a unit desynchronises it (R147, U2). -/
def envObserve (p : Params) (τ : Timing) (l : Lines) (e : Event) : Env → Env
  | .oracle => .oracle
  | .reference t =>
    if belowFloor τ then .oracle
    else
      match e with
      | .mclr v => if partUnit t then desyncMclr l v t false false else .reference (targetMclr l v t)
      | .clk false => if l.clk then targetFall p τ l t else .reference t
      | .clk true => .reference t
      | .dat _ => .reference t
      | .dir _ => .reference t
      | .sample _ => .reference t
  | .desync t held restarted =>
    if belowFloor τ then .oracle
    else
      match e with
      | .mclr v => desyncMclr l v t held restarted
      | .clk false => if l.clk then desyncFall p τ l t restarted else .desync t false restarted
      | .clk true => .desync t false restarted
      | .dat _ => .desync t held restarted
      | .dir _ => .desync t held restarted
      | .sample _ => .desync t held restarted

/-- Time passes: the settle of the last timed command runs down (R62). -/
def targetWait (ns : Nat) (t : RefTarget) : RefTarget := { t with due := t.due - ns }

/-- The environment after a wait. -/
def envWait (ns : Nat) : Env → Env
  | .oracle => .oracle
  | .reference t => .reference (targetWait ns t)
  | .desync t held restarted => .desync (targetWait ns t) held restarted

/-- The environment as a raw request begins: the bits that follow are the host's (R90, R91). -/
def envRaw : Env → Env
  | .oracle => .oracle
  | .reference t => .reference { t with raw := true }
  | .desync t held restarted => .desync t held restarted

/-- The environment as a command or a region request begins: a command stream that starts after raw requests left part of
a unit meets a desynchronised target (R147, R152); else the bits that follow are the block's own, and the target takes
them as R55 says. -/
def envCommand : Env → Env
  | .oracle => .oracle
  | .reference t => if partUnit t then .desync t false false else .reference { t with raw := false }
  | .desync t held restarted => .desync t held restarted

/-- The environment after the request in flight was cut off by block reset, with the words it could have touched lost by
`touch`: desynchronised until the recovery (R146). -/
def envCut (touch : RefTarget → RefTarget) : Env → Env
  | .oracle => .oracle
  | .reference t => .desync (touch t) false false
  | .desync t _ _ => .desync (touch t) false false

/-- The level the environment fixes at a sample, if it fixes one. -/
def envLevel : Env → Option Bool
  | .oracle => none
  | .reference t => targetLevel t
  | .desync _ _ _ => none

end Sys2Proof.Machine
end

