-- ==== Sys2Proof/Machine/Ops.lean ====
section
/-! DEFINITION. The shared operations of the engine: the line primitives (spec/00_scope.md R10), the two transport
primitives (spec/40_transport.md R85 to R87), the key (spec/30_encoding.md R67), the command procedure
(spec/42_commands.md R98), completing and refusing a request (spec/60_exceptions.md R131 to R138), the abort point
(spec/43_memory_access.md R123, R124) and block reset (spec/70_reset_and_hazards.md R145, R146). -/

namespace Sys2Proof.Machine

/-- The line levels after an event (R10). A sample changes none. -/
def Lines.apply (l : Lines) : Event → Lines
  | .mclr v => { l with mclr := v }
  | .clk v => { l with clk := v }
  | .dat v => { l with datOut := v }
  | .dir d => { l with datDir := d }
  | .sample _ => l

/-- One line event: it joins the trace, sets its line, and the environment sees it (R10, R54). -/
def emit (e : Event) (s : State) : State :=
  { s with
    lines := s.lines.apply e
    traceRev := .event e :: s.traceRev
    env := envObserve s.params s.timing s.lines e s.env }

/-- `Wait(T)`: a lower bound on the gap before the next event (R10, R11). The environment sees the time go by. -/
def wait (t : Word) (s : State) : State :=
  { s with traceRev := .wait t.toNat :: s.traceRev, env := envWait t.toNat s.env }

/-- The level of DATA at a sample: the one the environment fixes, else the next scripted level, else a free draw
(R12). -/
def drawBit (s : State) : Bool × State :=
  match envLevel s.env with
  | some b => (b, s)
  | none =>
    match s.draws.bits with
    | b :: rest => (b, { s with draws := { s.draws with bits := rest } })
    | [] => (Config.sampleDraw s.draws.taken, { s with draws := { s.draws with taken := s.draws.taken + 1 } })

/-- `b <- Sample(DAT)` (R10). -/
def sample (s : State) : Bool × State :=
  let (b, s) := drawBit s
  (b, emit (.sample b) s)

/-- The level of `abort` at an abort point: the next scripted level, else a free draw (R30). -/
def abortPoint (s : State) : Bool × State :=
  match s.draws.aborts with
  | b :: rest => (b, { s with draws := { s.draws with aborts := rest } })
  | [] => (Config.abortDraw s.draws.taken, { s with draws := { s.draws with taken := s.draws.taken + 1 } })

/-- `SendBit(b)` (R85). -/
def sendBit (b : Bool) (s : State) : State :=
  let s := wait s.timing.tEdge (emit (.dat b) s)
  let s := wait s.timing.tEdge (emit (.clk true) s)
  wait s.timing.tEdge (emit (.clk false) s)

/-- The bits of a list sent in order. -/
def sendList : List Bool → State → State
  | [], s => s
  | b :: bs, s => sendList bs (sendBit b s)

/-- Bits 0 to `n - 1` of `v`, bit 0 first. -/
def bitsOf (n v : Nat) : List Bool := (List.range n).map v.testBit

/-- `SendBits(n, v)` (R86). -/
def sendBits (n v : Nat) (s : State) : State := sendList (bitsOf n v) s

/-- One pulse of `RecvBits` (R87). -/
def recvBit (s : State) : Bool × State :=
  let s := wait s.timing.tEdge (emit (.clk true) s)
  let (b, s) := sample s
  (b, wait s.timing.tEdge (emit (.clk false) s))

/-- The pulses of `RecvBits`; the bits come back in the order received. -/
def recvList : Nat → State → List Bool × State
  | 0, s => ([], s)
  | n + 1, s =>
    let (b, s) := recvBit s
    let (bs, s) := recvList n s
    (b :: bs, s)

/-- `RecvBits(n)` (R87). -/
def recvBits (n : Nat) (s : State) : List Bool × State :=
  let s := wait s.timing.tEdge (emit (.dir .inp) s)
  let (bs, s) := recvList n s
  (bs, emit (.dir .out) s)

/-- The 33 bits of the key, four bytes and a 0 bit, in wire order (R67). -/
def sendKey (s : State) : State := sendBits 33 s.params.key.toNat s

/-- The cursor-shadow write of a command (R22). -/
def cursorAfter (c : Cmd) (k : Cursor) : Cursor :=
  match c with
  | .loadConfig => { valid := true, space := .cfg, off := 0 }
  | .resetAddress => { valid := true, space := .main, off := 0 }
  | .incrementAddress => if k.valid then { k with off := k.off + 1 } else k
  | _ => k

/-- The cursor shadow after the mode-control requests and block reset (R22). -/
def cursorCleared : Cursor := { valid := false, space := .main, off := 0 }

/-- The raw requests make the shadow invalid and leave its other fields (R22, R90, R91). -/
def invalidateCursor (s : State) : State := { s with cursor := { s.cursor with valid := false } }

/-- The wait after an opcode (R98): `T_CMD`, or the longer of `T_CMD` and `T_PROG` after a timed one. -/
def opcodeWait (c : Cmd) (t : Timing) : Word :=
  if cmdTimed c then (if t.tCmd.toNat ≤ t.tProg.toNat then t.tProg else t.tCmd) else t.tCmd

/-- `IssueCmd(cmd, p)` (R98). The frame is the received one for the IN class and 0 for the others, which return
none. -/
def issueCmd (c : Cmd) (p : Payload) (s : State) : Frame × State :=
  let s := sendBits Config.wOpc (s.params.opc c).toNat s
  let s := wait (opcodeWait c s.timing) s
  match cmdClass c with
  | .none => (0, { s with cursor := cursorAfter c s.cursor })
  | .out =>
    let s := wait s.timing.tCmd (sendBits Config.wFrame (frameOf p).toNat s)
    (0, { s with cursor := cursorAfter c s.cursor })
  | .inp =>
    let (bs, s) := recvBits Config.wFrame s
    let s := wait s.timing.tCmd s
    (BitVec.ofNat Config.wFrame (bitsValue bs), { s with cursor := cursorAfter c s.cursor })

/-- `IssueCmd` where the returned frame is not used. -/
def issue (c : Cmd) (p : Payload) (s : State) : State := (issueCmd c p s).2

/-- A request ends with a result: `last_result` is written, the response is delivered with the status word of the state
after it, and `busy` falls (R27, R29, R76, R77, R139). -/
def complete (r : Result) (data : List Word) (s : State) : State :=
  let s := { s with lastResult := r, busy := false }
  { s with responses := { status := statusWord s, data := data } :: s.responses }

/-- Taking a fault: the request is refused with a result code before its first line event, and `fault_seen` is set
(R28, R131, R137). It is the one exception entry of the block; there is no vector and no return from it (R138). -/
def refuse (r : Result) (s : State) : State := complete r [] { s with faultSeen := true }

/-- A request that any session may make: the argument check, then the body (R136 steps 2 and 5). -/
def plainOp (argsOk : Bool) (body : State → State) (s : State) : State :=
  if argsOk then body s else refuse .eBadArg s

/-- A raw request begins: the environment meets bits of the host's choice (R90, R91). -/
def arriveRaw (s : State) : State := { s with env := envRaw s.env }

/-- A request that issues commands begins: the environment meets a command stream (R147). -/
def arrive (s : State) : State := { s with env := envCommand s.env }

/-- A command: the argument check, then the session check, then the body (R99, R136 steps 2, 4 and 5). -/
def commandOp (argsOk : Bool) (body : State → State) (s : State) : State :=
  if argsOk then (if s.session = .prog then body (arrive s) else refuse .eNotProg s) else refuse .eBadArg s

/-- A region request: the argument check, then the no-op of `COUNT` = 0, then the session check, then the body (R112,
R134, R136). -/
def regionOp (argsOk : Bool) (count : BitVec 16) (body : State → State) (s : State) : State :=
  if argsOk then
    (if count = 0 then complete .ok [] s
      else if s.session = .prog then body (arrive s)
      else refuse .eNotProg s)
  else refuse .eBadArg s

/-- Sends a command and completes with `OK` (R100 to R102, R105 to R109). -/
def runCommand (c : Cmd) (p : Payload) (s : State) : State := complete .ok [] (issue c p s)

/-- Sends a read command and completes with `OK` and its read word (R103, R104). -/
def runRead (c : Cmd) (s : State) : State :=
  let (raw, s) := issueCmd c 0 s
  complete .ok [readWord raw] s

/-- The command that positions the cursor for a region (R111); Load Configuration carries `LDCFG_PAYLOAD`. -/
def position (rgn : Region) (s : State) : State := issue (positionCmd rgn) s.params.ldcfgPayload s

/-- `n` Increment Address commands. -/
def issueIncrements : Nat → State → State
  | 0, s => s
  | n + 1, s => issueIncrements n (issue .incrementAddress 0 s)

/-- The loop of READ_REGION from word `i` on, with `n` words left and the words read so far, the newest first (R113,
R123). -/
def readLoop (c : Cmd) : Nat → Nat → List Word → State → State
  | 0, _, out, s => complete .ok out.reverse s
  | n + 1, i, out, s =>
    let (stop, s) := if 1 ≤ i then abortPoint s else (false, s)
    if stop then complete .aborted out.reverse s
    else
      let (raw, s) := issueCmd c 0 s
      readLoop c n (i + 1) (readWord raw :: out) (issue .incrementAddress 0 s)

/-- The loop of WRITE_REGION from word `i` on, over the words left; `n` is the count of the request and `l` the latch
size (R119 to R122, R124). -/
def writeLoop (c : Cmd) (n l : Nat) : List Word → Nat → State → State
  | [], _, s => complete .ok [] s
  | w :: ws, i, s =>
    let (stop, s) := if 1 ≤ i ∧ i % l = 0 then abortPoint s else (false, s)
    if stop then complete .aborted [] s
    else
      let s := issue c (operandPayload w) s
      let s := if progTrigger i n l then issue .beginIntProg 0 s else s
      writeLoop c n l ws (i + 1) (issue .incrementAddress 0 s)

/-- The four line events of block reset, in their order (R145). -/
def resetEvents (s : State) : State := emit (.mclr true) (emit (.dat false) (emit (.dir .out) (emit (.clk false) s)))

/-- Block reset (R34, R145): every element of R15 takes its reset value and the four events follow. The port, its
records and the environment are not the block's state and stay. -/
def blockReset (s : State) : State :=
  resetEvents { s with
    session := .normal
    cursor := cursorCleared
    timing := Timing.reset
    lastResult := .ok
    faultSeen := false
    busy := false }

/-- Whether a trace item is a wait. -/
def TraceItem.isWait : TraceItem → Bool
  | .event _ => false
  | .wait _ => true

/-- The line levels after a trace. -/
def linesAfter : Lines → List TraceItem → Lines
  | l, [] => l
  | l, .event e :: rest => linesAfter (l.apply e) rest
  | l, .wait _ :: rest => linesAfter l rest

/-- The environment after a trace. -/
def envAfter (p : Params) (τ : Timing) : Lines → List TraceItem → Env → Env
  | _, [], env => env
  | l, .event e :: rest, env => envAfter p τ (l.apply e) rest (envObserve p τ l e env)
  | l, .wait ns :: rest, env => envAfter p τ l rest (envWait ns env)

/-- The first `k` items that `full` added to the trace of `s`, newest first, without the waits at their end: what has
happened of a request when reset cuts it off, up to its last emitted event (R146). -/
def keptItems (k : Nat) (full s : State) : List TraceItem :=
  let fresh := full.traceRev.take (full.traceRev.length - s.traceRev.length)
  (fresh.drop (fresh.length - k)).dropWhile TraceItem.isWait

/-- Block reset while a request is in flight (R146). `s` is the state that accepted the request and `full` the state its
whole performance would leave: its first `k` trace items have happened, the reset events follow the last event of them
at once, and no response is delivered. The environment is then desynchronised, and the words that the request could have
touched, as `touch` says, are lost; nothing is scripted of the samples and abort levels to come. -/
def abandon (k : Nat) (touch : RefTarget → RefTarget) (full s : State) : State :=
  let kept := keptItems k full s
  let t := blockReset { s with
    lines := linesAfter s.lines kept.reverse
    traceRev := kept ++ s.traceRev
    env := envAfter s.params s.timing s.lines kept.reverse s.env
    draws := { bits := [], aborts := [], taken := full.draws.taken } }
  { t with env := envCut (if kept = [] then id else touch) t.env }

end Sys2Proof.Machine
end

