-- ==== Sys2Proof/Machine/Commands.lean ====
section
/-! DEFINITION. The ten command requests of the host port (spec/42_commands.md R99 to R109). -/

namespace Sys2Proof.Machine

/-- CMD_LOAD_CONFIG (R100). -/
def execCmdLoadConfig (ops : List Word) (s : State) : Host.Outcome State Fault Refusal :=
  .next (commandOp (hasOperands ops 1) (runCommand .loadConfig (operandPayload (operand ops))) s)

/-- CMD_LOAD_DATA_PM (R101). -/
def execCmdLoadDataPm (ops : List Word) (s : State) : Host.Outcome State Fault Refusal :=
  .next (commandOp (hasOperands ops 1) (runCommand .loadDataPm (operandPayload (operand ops))) s)

/-- CMD_LOAD_DATA_DM (R102). -/
def execCmdLoadDataDm (ops : List Word) (s : State) : Host.Outcome State Fault Refusal :=
  .next (commandOp (hasOperands ops 1) (runCommand .loadDataDm (operandPayload (operand ops))) s)

/-- CMD_READ_DATA_PM (R103). -/
def execCmdReadDataPm (ops : List Word) (s : State) : Host.Outcome State Fault Refusal :=
  .next (commandOp (hasOperands ops 0) (runRead .readDataPm) s)

/-- CMD_READ_DATA_DM (R104). -/
def execCmdReadDataDm (ops : List Word) (s : State) : Host.Outcome State Fault Refusal :=
  .next (commandOp (hasOperands ops 0) (runRead .readDataDm) s)

/-- CMD_INCREMENT_ADDRESS (R105). -/
def execCmdIncrementAddress (ops : List Word) (s : State) : Host.Outcome State Fault Refusal :=
  .next (commandOp (hasOperands ops 0) (runCommand .incrementAddress 0) s)

/-- CMD_RESET_ADDRESS (R106). -/
def execCmdResetAddress (ops : List Word) (s : State) : Host.Outcome State Fault Refusal :=
  .next (commandOp (hasOperands ops 0) (runCommand .resetAddress 0) s)

/-- CMD_BEGIN_INT_PROG (R107). -/
def execCmdBeginIntProg (ops : List Word) (s : State) : Host.Outcome State Fault Refusal :=
  .next (commandOp (hasOperands ops 0) (runCommand .beginIntProg 0) s)

/-- CMD_BULK_ERASE_PM (R108). -/
def execCmdBulkErasePm (ops : List Word) (s : State) : Host.Outcome State Fault Refusal :=
  .next (commandOp (hasOperands ops 0) (runCommand .bulkErasePm 0) s)

/-- CMD_BULK_ERASE_DM (R109). -/
def execCmdBulkEraseDm (ops : List Word) (s : State) : Host.Outcome State Fault Refusal :=
  .next (commandOp (hasOperands ops 0) (runCommand .bulkEraseDm 0) s)

end Sys2Proof.Machine
end

