-- ==== Sys2Proof/Machine/Control.lean ====
section
/-! DEFINITION. The control and status requests (spec/44_control_status.md). -/

namespace Sys2Proof.Machine

/-- GET_STATUS (R127). -/
def execGetStatus (ops : List Word) (s : State) : Host.Outcome State Fault Refusal :=
  .next (plainOp (hasOperands ops 0) (complete .ok []) s)

/-- SET_TIMING (R128). -/
def execSetTiming (idx : BitVec 16) (ops : List Word) (s : State) : Host.Outcome State Fault Refusal :=
  .next (plainOp (indexLegal idx && hasOperands ops 1)
    (fun s => complete .ok [] { s with timing := s.timing.set idx.toNat (operand ops) }) s)

/-- GET_TIMING (R129). -/
def execGetTiming (idx : BitVec 16) (ops : List Word) (s : State) : Host.Outcome State Fault Refusal :=
  .next (plainOp (indexLegal idx && hasOperands ops 0) (fun s => complete .ok [s.timing.get idx.toNat] s) s)

end Sys2Proof.Machine
end

