-- ==== Sys2Proof/Machine/Mode.lean ====
section
/-! DEFINITION. The mode-control requests (spec/41_mode_control.md) and the key as a unit of its own. -/

namespace Sys2Proof.Machine

/-- The session and the cursor shadow as a mode-control request leaves them (R17, R22). -/
def enterSession (m : Session) (s : State) : State := { s with session := m, cursor := cursorCleared }

/-- The line activity of ENTER_PROG (R93). -/
def enterWaveform (s : State) : State :=
  let s := emit (.mclr true) (wait s.timing.tMclr s)
  let s := emit (.mclr false) (wait s.timing.tMclr s)
  let s := sendKey (wait s.timing.tMclr s)
  wait s.timing.tKey s

/-- The line activity of RESET_TARGET (R96). -/
def resetWaveform (s : State) : State :=
  let s := wait s.timing.tRst (emit (.mclr false) s)
  wait s.timing.tRst (emit (.mclr true) s)

/-- ENTER_PROG (R93). -/
def execEnterProg (ops : List Word) (s : State) : Host.Outcome State Fault Refusal :=
  .next (plainOp (hasOperands ops 0) (fun s => complete .ok [] (enterSession .prog (enterWaveform s))) s)

/-- EXIT_PROG (R95). -/
def execExitProg (ops : List Word) (s : State) : Host.Outcome State Fault Refusal :=
  .next (plainOp (hasOperands ops 0) (fun s => complete .ok [] (enterSession .normal (emit (.mclr true) s))) s)

/-- RESET_TARGET (R96). -/
def execResetTarget (ops : List Word) (s : State) : Host.Outcome State Fault Refusal :=
  .next (plainOp (hasOperands ops 0) (fun s => complete .ok [] (enterSession .normal (resetWaveform s))) s)

/-- ICSP.KEY: the key "is sent only by ENTER_PROG" (R63), so the unit, which has no operand list to check, is performed as
the entry sequence that sends it (R93, R94): DESIGN CHOICE, log entry 2. -/
def execIcspKey (s : State) : Host.Outcome State Fault Refusal :=
  .next (complete .ok [] (enterSession .prog (enterWaveform s)))

end Sys2Proof.Machine
end

