-- ==== Sys2Proof/Machine/Regions.lean ====
section
/-! DEFINITION. The region requests of the memory access engine (spec/43_memory_access.md). -/

namespace Sys2Proof.Machine

/-- READ_REGION (R113, R123). -/
def execReadRegion (rgn : Region) (count : BitVec 16) (ops : List Word) (s : State) :
    Host.Outcome State Fault Refusal :=
  .next (regionOp (hasOperands ops 0) count (fun s => readLoop (readCmd rgn) count.toNat 0 [] (position rgn s)) s)

/-- The erase path of program memory: Load Configuration selects the erase domain (R111, R116). -/
def erasePm (s : State) : State := issue .bulkErasePm 0 (issue .loadConfig s.params.ldcfgPayload s)

/-- ERASE_REGION with RGN = 0 (R116). -/
def execEraseRegionPm (count : BitVec 16) (ops : List Word) (s : State) : Host.Outcome State Fault Refusal :=
  .next (regionOp (hasOperands ops 0) count (fun s => complete .ok [] (erasePm s)) s)

/-- ERASE_REGION with RGN = 1 (R117). -/
def execEraseRegionDm (count : BitVec 16) (ops : List Word) (s : State) : Host.Outcome State Fault Refusal :=
  .next (regionOp (hasOperands ops 0) count (fun s => complete .ok [] (issue .bulkEraseDm 0 s)) s)

/-- ERASE_REGION with RGN = 2: refused with `E_BAD_ARG`, whatever its count and operands (R118, R133 cases 4 and 5). -/
def execEraseRegionCfg (_count : BitVec 16) (_ops : List Word) (s : State) : Host.Outcome State Fault Refusal :=
  .next (refuse .eBadArg s)

/-- WRITE_REGION with RGN = 0 (R119). -/
def execWriteRegionPm (count : BitVec 16) (ops : List Word) (s : State) : Host.Outcome State Fault Refusal :=
  .next (regionOp (hasOperands ops count.toNat) count
    (fun s => writeLoop (loadCmd .pm) count.toNat (s.params.latchSize .pm) ops 0 (issue .resetAddress 0 (erasePm s))) s)

/-- WRITE_REGION with RGN = 1 (R120). -/
def execWriteRegionDm (count : BitVec 16) (ops : List Word) (s : State) : Host.Outcome State Fault Refusal :=
  .next (regionOp (hasOperands ops count.toNat) count
    (fun s => writeLoop (loadCmd .dm) count.toNat (s.params.latchSize .dm) ops 0
      (issue .resetAddress 0 (issue .bulkEraseDm 0 s))) s)

/-- WRITE_REGION with RGN = 2 (R121). -/
def execWriteRegionCfg (count : BitVec 16) (ops : List Word) (s : State) : Host.Outcome State Fault Refusal :=
  .next (regionOp (configCountLegal s.params count && hasOperands ops count.toNat) count
    (fun s => writeLoop (loadCmd .cfg) count.toNat (s.params.latchSize .cfg) ops 0
      (issueIncrements s.params.cfgSkip (position .cfg s))) s)

end Sys2Proof.Machine
end

