-- ==== Sys2Proof/Machine/Transport.lean ====
section
/-! DEFINITION. The raw transport requests (spec/40_transport.md). -/

namespace Sys2Proof.Machine

/-- SEND_BITS (R90). -/
def execSendBits (n : BitVec 6) (ops : List Word) (s : State) : Host.Outcome State Fault Refusal :=
  .next (plainOp (bitsLegal s.params n && hasOperands ops 1)
    (fun s => complete .ok [] (invalidateCursor (sendBits n.toNat (operand ops).toNat (arriveRaw s)))) s)

/-- RECV_BITS (R91). -/
def execRecvBits (n : BitVec 6) (ops : List Word) (s : State) : Host.Outcome State Fault Refusal :=
  .next (plainOp (bitsLegal s.params n && hasOperands ops 0)
    (fun s =>
      let (bs, s) := recvBits n.toNat (arriveRaw s)
      complete .ok [BitVec.ofNat 32 (bitsValue bs)] (invalidateCursor s)) s)

end Sys2Proof.Machine
end

