-- ==== Sys2Proof/Machine/Wire.lean ====
section
/-! DEFINITION. The ten wire commands, handed to the command layer by their 6-bit opcode (spec/30_encoding.md R64, R68,
R70; spec/42_commands.md R98 to R109). Such a unit is the command itself, with no operand list to check: in `PROG` it
is `IssueCmd` and completes as its rule says; in `NORMAL` it is a command-layer operation the block does not perform
(spec/93_implementation_defined.md U1, R97). -/

namespace Sys2Proof.Machine

/-- ICSP.LOAD_CONFIGURATION (R100). -/
def execIcspLoadConfiguration (payload : Payload) (s : State) : Host.Outcome State Fault Refusal :=
  .next (commandOp true (runCommand .loadConfig payload) s)

/-- ICSP.LOAD_DATA_PROGRAM_MEMORY (R101). -/
def execIcspLoadDataProgramMemory (payload : Payload) (s : State) : Host.Outcome State Fault Refusal :=
  .next (commandOp true (runCommand .loadDataPm payload) s)

/-- ICSP.LOAD_DATA_DATA_MEMORY (R102). -/
def execIcspLoadDataDataMemory (payload : Payload) (s : State) : Host.Outcome State Fault Refusal :=
  .next (commandOp true (runCommand .loadDataDm payload) s)

/-- ICSP.READ_DATA_PROGRAM_MEMORY (R103). -/
def execIcspReadDataProgramMemory (s : State) : Host.Outcome State Fault Refusal :=
  .next (commandOp true (runRead .readDataPm) s)

/-- ICSP.READ_DATA_DATA_MEMORY (R104). -/
def execIcspReadDataDataMemory (s : State) : Host.Outcome State Fault Refusal :=
  .next (commandOp true (runRead .readDataDm) s)

/-- ICSP.INCREMENT_ADDRESS (R105). -/
def execIcspIncrementAddress (s : State) : Host.Outcome State Fault Refusal :=
  .next (commandOp true (runCommand .incrementAddress 0) s)

/-- ICSP.RESET_ADDRESS (R106). -/
def execIcspResetAddress (s : State) : Host.Outcome State Fault Refusal :=
  .next (commandOp true (runCommand .resetAddress 0) s)

/-- ICSP.BEGIN_INTERNALLY_TIMED_PROGRAMMING (R107). -/
def execIcspBeginInternallyTimedProgramming (s : State) : Host.Outcome State Fault Refusal :=
  .next (commandOp true (runCommand .beginIntProg 0) s)

/-- ICSP.BULK_ERASE_PROGRAM_MEMORY (R108). -/
def execIcspBulkEraseProgramMemory (s : State) : Host.Outcome State Fault Refusal :=
  .next (commandOp true (runCommand .bulkErasePm 0) s)

/-- ICSP.BULK_ERASE_DATA_MEMORY (R109). -/
def execIcspBulkEraseDataMemory (s : State) : Host.Outcome State Fault Refusal :=
  .next (commandOp true (runCommand .bulkEraseDm 0) s)

end Sys2Proof.Machine
end

