-- ==== Sys2Proof/Machine/Dispatch.lean ====
section
/-! DEFINITION. One arm per constructor of Instr. -/

namespace Sys2Proof.Machine

def exec (i : Instr) (s : State) : Host.Outcome State Fault Refusal :=
  match i with
  | .getStatus ops => Sys2Proof.Machine.execGetStatus ops s
  | .setTiming idx ops => Sys2Proof.Machine.execSetTiming idx ops s
  | .getTiming idx ops => Sys2Proof.Machine.execGetTiming idx ops s
  | .sendBits n ops => Sys2Proof.Machine.execSendBits n ops s
  | .recvBits n ops => Sys2Proof.Machine.execRecvBits n ops s
  | .enterProg ops => Sys2Proof.Machine.execEnterProg ops s
  | .exitProg ops => Sys2Proof.Machine.execExitProg ops s
  | .resetTarget ops => Sys2Proof.Machine.execResetTarget ops s
  | .cmdLoadConfig ops => Sys2Proof.Machine.execCmdLoadConfig ops s
  | .cmdLoadDataPm ops => Sys2Proof.Machine.execCmdLoadDataPm ops s
  | .cmdLoadDataDm ops => Sys2Proof.Machine.execCmdLoadDataDm ops s
  | .cmdReadDataPm ops => Sys2Proof.Machine.execCmdReadDataPm ops s
  | .cmdReadDataDm ops => Sys2Proof.Machine.execCmdReadDataDm ops s
  | .cmdIncrementAddress ops => Sys2Proof.Machine.execCmdIncrementAddress ops s
  | .cmdResetAddress ops => Sys2Proof.Machine.execCmdResetAddress ops s
  | .cmdBeginIntProg ops => Sys2Proof.Machine.execCmdBeginIntProg ops s
  | .cmdBulkErasePm ops => Sys2Proof.Machine.execCmdBulkErasePm ops s
  | .cmdBulkEraseDm ops => Sys2Proof.Machine.execCmdBulkEraseDm ops s
  | .readRegion rgn count ops => Sys2Proof.Machine.execReadRegion rgn count ops s
  | .eraseRegionPm count ops => Sys2Proof.Machine.execEraseRegionPm count ops s
  | .eraseRegionDm count ops => Sys2Proof.Machine.execEraseRegionDm count ops s
  | .eraseRegionCfg count ops => Sys2Proof.Machine.execEraseRegionCfg count ops s
  | .writeRegionPm count ops => Sys2Proof.Machine.execWriteRegionPm count ops s
  | .writeRegionDm count ops => Sys2Proof.Machine.execWriteRegionDm count ops s
  | .writeRegionCfg count ops => Sys2Proof.Machine.execWriteRegionCfg count ops s
  | .icspLoadConfiguration payload => Sys2Proof.Machine.execIcspLoadConfiguration payload s
  | .icspLoadDataProgramMemory payload => Sys2Proof.Machine.execIcspLoadDataProgramMemory payload s
  | .icspLoadDataDataMemory payload => Sys2Proof.Machine.execIcspLoadDataDataMemory payload s
  | .icspReadDataProgramMemory => Sys2Proof.Machine.execIcspReadDataProgramMemory s
  | .icspReadDataDataMemory => Sys2Proof.Machine.execIcspReadDataDataMemory s
  | .icspIncrementAddress => Sys2Proof.Machine.execIcspIncrementAddress s
  | .icspResetAddress => Sys2Proof.Machine.execIcspResetAddress s
  | .icspBeginInternallyTimedProgramming => Sys2Proof.Machine.execIcspBeginInternallyTimedProgramming s
  | .icspBulkEraseProgramMemory => Sys2Proof.Machine.execIcspBulkEraseProgramMemory s
  | .icspBulkEraseDataMemory => Sys2Proof.Machine.execIcspBulkEraseDataMemory s
  | .icspKey => Sys2Proof.Machine.execIcspKey s

end Sys2Proof.Machine
end

