-- ==== Sys2Proof/Machine/Port.lean ====
section
/-! DEFINITION. What the block does with a message at its port (spec/30_encoding.md R72, R84; spec/60_exceptions.md
R132, R133, R136). -/

namespace Sys2Proof.Machine

/-- A request is accepted: it leaves the port and `busy` rises (R29). -/
def accept (rest : List Input) (s : State) : State := { s with inbox := rest, busy := true }

/-- A message performed: an instruction by its meaning, a header that is none by the refusal R84 gives it, and a unit
that no encoding gives a meaning by a refusal of the model. -/
def perform (m : Message) (s : State) : Host.Outcome State Fault Refusal :=
  match decode s.params m with
  | .ok i => exec i s
  | .error .badOp => .next (refuse .eBadOp s)
  | .error .badArg => .next (refuse .eBadArg s)
  | .error .noSuchCommand => .refused .noSuchCommand
  | .error .notTheKey => .refused .notTheKey

/-- What a request can do to the target's memories (R90, R100 to R109, R116 to R121). -/
inductive Touch where
  /-- It sends no bit in `LVP`. -/
  | nothing
  /-- It issues commands, none of which changes a target memory. -/
  | commands
  /-- It sends bits of the host's choice, which may make any command (R90). -/
  | anything
  /-- It erases program memory, and with it the words of the domain that Load Configuration selects (R108, U18). -/
  | program
  /-- It erases data memory. -/
  | data
  /-- It commits what is latched, and the latched words it loads itself at these configuration offsets. -/
  | latched (cfg : List Nat)
deriving DecidableEq, Repr

/-- What an instruction can do to the target's memories. -/
def touches (p : Params) : Instr → Touch
  | .getStatus _ => .nothing
  | .setTiming _ _ => .nothing
  | .getTiming _ _ => .nothing
  | .sendBits _ _ => .anything
  | .recvBits _ _ => .nothing
  | .enterProg _ => .nothing
  | .exitProg _ => .nothing
  | .resetTarget _ => .nothing
  | .cmdLoadConfig _ => .commands
  | .cmdLoadDataPm _ => .commands
  | .cmdLoadDataDm _ => .commands
  | .cmdReadDataPm _ => .commands
  | .cmdReadDataDm _ => .commands
  | .cmdIncrementAddress _ => .commands
  | .cmdResetAddress _ => .commands
  | .cmdBeginIntProg _ => .latched []
  | .cmdBulkErasePm _ => .program
  | .cmdBulkEraseDm _ => .data
  | .readRegion _ _ _ => .commands
  | .eraseRegionPm _ _ => .program
  | .eraseRegionDm _ _ => .data
  | .eraseRegionCfg _ _ => .nothing
  | .writeRegionPm _ _ => .program
  | .writeRegionDm _ _ => .data
  | .writeRegionCfg count _ => .latched ((List.range count.toNat).map (p.cfgSkip + ·))
  | .icspLoadConfiguration _ => .commands
  | .icspLoadDataProgramMemory _ => .commands
  | .icspLoadDataDataMemory _ => .commands
  | .icspReadDataProgramMemory => .commands
  | .icspReadDataDataMemory => .commands
  | .icspIncrementAddress => .commands
  | .icspResetAddress => .commands
  | .icspBeginInternallyTimedProgramming => .latched []
  | .icspBulkEraseProgramMemory => .program
  | .icspBulkEraseDataMemory => .data
  | .icspKey => .nothing

/-- The words that a request could have touched are lost, in the target `t` that the cut left; `t0` is the target the
request met, whose latches a commit writes (R146, U2). -/
def loseTouched (t0 : RefTarget) (w : Touch) (t : RefTarget) : RefTarget :=
  match w with
  | .nothing => t
  | .commands => t
  | .anything => forgetAll t
  | .program => forgetProgram t
  | .data => forgetData t
  | .latched cfg =>
    targetCommit (latchOffsets t0.latchMain) (latchOffsets t0.latchCfg ++ cfg.map fun o => (o, none))
      (latchOffsets t0.latchD) t

/-- What a message cut off could have touched, given the environment it met. A target outside `LVP` takes no command; a
request that issues commands where a raw request left the target anywhere but at the start of an opcode may have made any
of them (R147). -/
def messageTouch (p : Params) (m : Message) (env : Env) (t : RefTarget) : RefTarget :=
  match decode p m, env with
  | .ok i, .reference t0 =>
    if t0.rmode = .lvp then
      loseTouched t0
        (if (t0.rx ≠ .unit [] ∨ t0.stray ≠ 0) ∧ touches p i ≠ .nothing then .anything else touches p i) t
    else t
  | _, _ => t

/-- A message performed and cut off by block reset after its first `k` trace items (R146). -/
def performThenReset (m : Message) (k : Nat) (s : State) : Host.Outcome State Fault Refusal :=
  match perform m s with
  | .next full => .next (abandon k (messageTouch s.params m s.env) full s)
  | .fault f => .fault f
  | .refused r => .refused r

end Sys2Proof.Machine
end

