-- ==== Sys2Proof/Machine/Step.lean ====
section
/-! DEFINITION. One step of the machine: the next thing at the port is done, whole (spec/10_state.md R29, R31; decision
D2: "it makes every transaction one model step"). -/

namespace Sys2Proof.Machine

/-- One step. With nothing at its port the block waits, and nothing changes (R145). -/
def step (s : State) : Host.Outcome State Fault Refusal :=
  if s.busy then .fault .requestInFlight
  else
    match s.inbox with
    | [] => .next s
    | .message m :: rest => perform m (accept rest s)
    | .reset :: rest => .next (blockReset { s with inbox := rest })
    | .messageThenReset m k :: rest => performThenReset m k (accept rest s)

/-- The message with bits `w` put first at the port, which is ready for it. -/
def State.withFetchWord (s : State) (nbits w : Nat) : State :=
  { s with inbox := .message (tableMessage nbits w) :: s.inbox, busy := false }

end Sys2Proof.Machine
end

