-- ==== Sys2Proof/Machine/Trace.lean ====
section
/-! DEFINITION. Reading a trace: the bits it carries (spec/40_transport.md R89), its pulses and least duration (spec/70_reset_and_hazards.md R159, R160), the timing constraint it stands for
(spec/00_scope.md R11, spec/10_state.md R26), the edge holds (spec/40_transport.md R88), and the traces the rules give
the line procedures, in closed form. -/

namespace Sys2Proof.Machine

/-- The sent bits of a trace: at each CLK falling edge with DATA an output, the level of the output latch (R89). -/
def sentBits : Lines → List TraceItem → List Bool
  | _, [] => []
  | l, .event (.clk false) :: rest =>
    if l.clk = true ∧ l.datDir = .out then l.datOut :: sentBits (l.apply (.clk false)) rest
    else sentBits (l.apply (.clk false)) rest
  | l, .event e :: rest => sentBits (l.apply e) rest
  | l, .wait _ :: rest => sentBits l rest

/-- The commands that sent bits carry, read as R70 says: an opcode tells the length of its command, and an OUT command is
followed by its frame. `fuel` bounds how many are read. -/
def commandsSent (p : Params) : Nat → List Bool → List Cmd
  | 0, _ => []
  | fuel + 1, bits =>
    if bits.length < Config.wOpc then []
    else
      match cmdOf p (BitVec.ofNat Config.wOpc (bitsValue (bits.take Config.wOpc))) with
      | some c => c :: commandsSent p fuel (bits.drop (if cmdClass c = .out then Config.wOpc + Config.wFrame else Config.wOpc))
      | none => []

/-- The received bits of a trace: the values of its `Sample` events (R89). -/
def receivedBits : List TraceItem → List Bool
  | [] => []
  | .event (.sample b) :: rest => b :: receivedBits rest
  | _ :: rest => receivedBits rest

/-- The CLK pulses of a trace (R159). -/
def pulses : List TraceItem → Nat
  | [] => 0
  | .event (.clk true) :: rest => pulses rest + 1
  | _ :: rest => pulses rest

/-- The least duration of a trace in ns: the sum of its waits (R11, R160). -/
def minDuration : List TraceItem → Nat
  | [] => 0
  | .wait ns :: rest => ns + minDuration rest
  | .event _ :: rest => minDuration rest

/-- The least gap before each event of a trace, given the waits `due` that stand before it (R11). -/
def eventGaps : Nat → List TraceItem → List Nat
  | _, [] => []
  | due, .wait ns :: rest => eventGaps (due + ns) rest
  | due, .event _ :: rest => due :: eventGaps 0 rest

/-- Event times, from a time `now`, that keep the least gaps: the only timing constraint there is (R11). -/
def timesKeep : Nat → List Nat → List Nat → Bool
  | _, [], [] => true
  | now, g :: gs, t :: ts => decide (now + g ≤ t) && timesKeep t gs ts
  | _, _, _ => false

/-- What a platform of resolution `res` waits for `Wait(t)`: `ceil(t / res) * res`, never less (R26). A platform that
times exactly has no resolution, written 0. -/
def platformWait (res t : Nat) : Nat := if res = 0 then t else (t + (res - 1)) / res * res

/-- The wait this platform performs for `Wait(t)`, at the resolution the spec leaves open (R26). -/
def hereWait (t : Nat) : Nat := platformWait Config.timerResolution t

/-- R88 as a check over a trace: DATA changes only while CLK is 0 and at least `e` after the last falling edge, a
direction switch happens only while CLK is 0, and a rising edge comes at least `e` after the last change or switch. The
arguments are the CLK level and the waits since the last falling edge and since the last change of DATA. -/
def edgesHeld (e : Nat) : Bool → Nat → Nat → List TraceItem → Bool
  | _, _, _, [] => true
  | clk, fall, chg, .wait ns :: rest => edgesHeld e clk (fall + ns) (chg + ns) rest
  | clk, fall, _, .event (.dat _) :: rest => !clk && decide (e ≤ fall) && edgesHeld e clk fall 0 rest
  | clk, fall, _, .event (.dir _) :: rest => !clk && edgesHeld e clk fall 0 rest
  | _, fall, chg, .event (.clk true) :: rest => decide (e ≤ chg) && edgesHeld e true fall chg rest
  | _, _, chg, .event (.clk false) :: rest => edgesHeld e false 0 chg rest
  | clk, fall, chg, .event (.mclr _) :: rest => edgesHeld e clk fall chg rest
  | clk, fall, chg, .event (.sample _) :: rest => edgesHeld e clk fall chg rest

/-- The trace of `SendBit(b)` (R85), with `T_EDGE` = `e`. -/
def bitItems (e : Nat) (b : Bool) : List TraceItem :=
  [.event (.dat b), .wait e, .event (.clk true), .wait e, .event (.clk false), .wait e]

/-- The trace of `SendBits(n, v)` (R86). -/
def sendItems (e n v : Nat) : List TraceItem := (bitsOf n v).flatMap (bitItems e)

/-- The trace of one received bit (R87). -/
def pulseItems (e : Nat) (b : Bool) : List TraceItem :=
  [.event (.clk true), .wait e, .event (.sample b), .event (.clk false), .wait e]

/-- The trace of `RecvBits` that samples the given bits (R87). -/
def recvItems (e : Nat) (bs : List Bool) : List TraceItem :=
  [.event (.dir .inp), .wait e] ++ bs.flatMap (pulseItems e) ++ [.event (.dir .out)]

/-- The trace of the key (R67, R94). -/
def keyItems (p : Params) (e : Nat) : List TraceItem := sendItems e 33 p.key.toNat

/-- The wait after a command's opcode (R98). -/
def settle (c : Cmd) (t : Timing) : Nat := if cmdTimed c then max t.tCmd.toNat t.tProg.toNat else t.tCmd.toNat

/-- The trace of `IssueCmd(c, payload)` that samples `rx` where the command reads (R98, R65). -/
def commandItems (p : Params) (t : Timing) (c : Cmd) (payload : Payload) (rx : List Bool) : List TraceItem :=
  sendItems t.tEdge.toNat Config.wOpc (p.opc c).toNat ++ [.wait (settle c t)] ++
    match cmdClass c with
    | .none => []
    | .out => sendItems t.tEdge.toNat Config.wFrame (2 * payload.toNat) ++ [.wait t.tCmd.toNat]
    | .inp => recvItems t.tEdge.toNat rx ++ [.wait t.tCmd.toNat]

/-- The trace of ENTER_PROG (R93). -/
def enterItems (p : Params) (t : Timing) : List TraceItem :=
  [.wait t.tMclr.toNat, .event (.mclr true), .wait t.tMclr.toNat, .event (.mclr false), .wait t.tMclr.toNat] ++
    keyItems p t.tEdge.toNat ++ [.wait t.tKey.toNat]

/-- The trace of RESET_TARGET (R96). -/
def resetItems (t : Timing) : List TraceItem :=
  [.event (.mclr false), .wait t.tRst.toNat, .event (.mclr true), .wait t.tRst.toNat]

end Sys2Proof.Machine
end

