-- ==== Sys2Proof/Safety.lean ====
section
/-! DEFINITION. What the claims speak of: the state a rule's trace and response lead to, the commands and their
instruction forms, and the invariant of the machine. -/

namespace Sys2Proof.Machine

/-- The parameters of R7 that are not opcode values have the defaults R7 gives: what a rule means that writes their
values out (R90: `NBITS` 1 to 32; R133: a configuration write of 0 or 2 words; R94: the bits of the key). -/
structure R7Values (p : Params) : Prop where
  lPm : p.lPm = 16
  lDm : p.lDm = 1
  lCfg : p.lCfg = 1
  cfgSkip : p.cfgSkip = 7
  cfgWords : p.cfgWords = 2
  group : p.group = 16
  nbitsMax : p.nbitsMax = 32
  key : p.key = 0x04D434850

/-- `s` after the line activity `items`, and nothing else. -/
def played (items : List TraceItem) (s : State) : State :=
  { s with
    lines := linesAfter s.lines items
    traceRev := items.reverse ++ s.traceRev
    env := envAfter s.params s.timing s.lines items s.env }

/-- `s` after its request was answered with a result and data words, and nothing else (R27, R76, R77). -/
def answered (r : Result) (data : List Word) (s : State) : State :=
  { s with
    lastResult := r
    busy := false
    responses := { status := statusWord { s with lastResult := r }, data := data } :: s.responses }

/-- `s` after its request was refused: the result, `fault_seen` and the response, and nothing else (R137). -/
def refusedWith (r : Result) (s : State) : State := answered r [] { s with faultSeen := true }

/-- The cursor shadow that a command leaves, as R22 lists it. -/
def shadowAfter (c : Cmd) (k : Cursor) : Cursor :=
  if c = .loadConfig then ⟨true, .cfg, 0⟩
  else if c = .resetAddress then ⟨true, .main, 0⟩
  else if c = .incrementAddress ∧ k.valid = true then ⟨true, k.space, BitVec.ofNat Config.wCur (k.off.toNat + 1)⟩
  else k

/-- A request that takes one payload word, as a command with its payload. -/
def loadForm (c : Cmd) : List Word → Option (Cmd × Payload)
  | [w] => some (c, w.extractLsb' 0 Config.wWord)
  | [] => none
  | _ :: _ :: _ => none

/-- A request that takes no operand word, as a command. -/
def bareForm (c : Cmd) : List Word → Option (Cmd × Payload)
  | [] => some (c, 0)
  | _ :: _ => none

/-- The command, with its payload, that an instruction with a legal operand count asks for: the ten `CMD_*` requests and
the ten wire commands. -/
def commandForm : Instr → Option (Cmd × Payload)
  | .cmdLoadConfig ops => loadForm .loadConfig ops
  | .cmdLoadDataPm ops => loadForm .loadDataPm ops
  | .cmdLoadDataDm ops => loadForm .loadDataDm ops
  | .cmdReadDataPm ops => bareForm .readDataPm ops
  | .cmdReadDataDm ops => bareForm .readDataDm ops
  | .cmdIncrementAddress ops => bareForm .incrementAddress ops
  | .cmdResetAddress ops => bareForm .resetAddress ops
  | .cmdBeginIntProg ops => bareForm .beginIntProg ops
  | .cmdBulkErasePm ops => bareForm .bulkErasePm ops
  | .cmdBulkEraseDm ops => bareForm .bulkEraseDm ops
  | .icspLoadConfiguration p => some (.loadConfig, p)
  | .icspLoadDataProgramMemory p => some (.loadDataPm, p)
  | .icspLoadDataDataMemory p => some (.loadDataDm, p)
  | .icspReadDataProgramMemory => some (.readDataPm, 0)
  | .icspReadDataDataMemory => some (.readDataDm, 0)
  | .icspIncrementAddress => some (.incrementAddress, 0)
  | .icspResetAddress => some (.resetAddress, 0)
  | .icspBeginInternallyTimedProgramming => some (.beginIntProg, 0)
  | .icspBulkEraseProgramMemory => some (.bulkErasePm, 0)
  | .icspBulkEraseDataMemory => some (.bulkEraseDm, 0)
  | .getStatus _ => none
  | .setTiming _ _ => none
  | .getTiming _ _ => none
  | .sendBits _ _ => none
  | .recvBits _ _ => none
  | .enterProg _ => none
  | .exitProg _ => none
  | .resetTarget _ => none
  | .readRegion _ _ _ => none
  | .eraseRegionPm _ _ => none
  | .eraseRegionDm _ _ => none
  | .eraseRegionCfg _ _ => none
  | .writeRegionPm _ _ => none
  | .writeRegionDm _ _ => none
  | .writeRegionCfg _ _ => none
  | .icspKey => none

/-- The region, count and operand list of a write request. -/
def writeForm : Instr → Option (Region × BitVec 16 × List Word)
  | .writeRegionPm n ops => some (.pm, n, ops)
  | .writeRegionDm n ops => some (.dm, n, ops)
  | .writeRegionCfg n ops => some (.cfg, n, ops)
  | .getStatus _ => none
  | .setTiming _ _ => none
  | .getTiming _ _ => none
  | .sendBits _ _ => none
  | .recvBits _ _ => none
  | .enterProg _ => none
  | .exitProg _ => none
  | .resetTarget _ => none
  | .cmdLoadConfig _ => none
  | .cmdLoadDataPm _ => none
  | .cmdLoadDataDm _ => none
  | .cmdReadDataPm _ => none
  | .cmdReadDataDm _ => none
  | .cmdIncrementAddress _ => none
  | .cmdResetAddress _ => none
  | .cmdBeginIntProg _ => none
  | .cmdBulkErasePm _ => none
  | .cmdBulkEraseDm _ => none
  | .readRegion _ _ _ => none
  | .eraseRegionPm _ _ => none
  | .eraseRegionDm _ _ => none
  | .eraseRegionCfg _ _ => none
  | .icspLoadConfiguration _ => none
  | .icspLoadDataProgramMemory _ => none
  | .icspLoadDataDataMemory _ => none
  | .icspReadDataProgramMemory => none
  | .icspReadDataDataMemory => none
  | .icspIncrementAddress => none
  | .icspResetAddress => none
  | .icspBeginInternallyTimedProgramming => none
  | .icspBulkEraseProgramMemory => none
  | .icspBulkEraseDataMemory => none
  | .icspKey => none

/-- The count and operand list of a region request. -/
def regionForm : Instr → Option (BitVec 16 × List Word)
  | .readRegion _ n ops => some (n, ops)
  | .eraseRegionPm n ops => some (n, ops)
  | .eraseRegionDm n ops => some (n, ops)
  | .eraseRegionCfg n ops => some (n, ops)
  | .writeRegionPm n ops => some (n, ops)
  | .writeRegionDm n ops => some (n, ops)
  | .writeRegionCfg n ops => some (n, ops)
  | .getStatus _ => none
  | .setTiming _ _ => none
  | .getTiming _ _ => none
  | .sendBits _ _ => none
  | .recvBits _ _ => none
  | .enterProg _ => none
  | .exitProg _ => none
  | .resetTarget _ => none
  | .cmdLoadConfig _ => none
  | .cmdLoadDataPm _ => none
  | .cmdLoadDataDm _ => none
  | .cmdReadDataPm _ => none
  | .cmdReadDataDm _ => none
  | .cmdIncrementAddress _ => none
  | .cmdResetAddress _ => none
  | .cmdBeginIntProg _ => none
  | .cmdBulkErasePm _ => none
  | .cmdBulkEraseDm _ => none
  | .icspLoadConfiguration _ => none
  | .icspLoadDataProgramMemory _ => none
  | .icspLoadDataDataMemory _ => none
  | .icspReadDataProgramMemory => none
  | .icspReadDataDataMemory => none
  | .icspIncrementAddress => none
  | .icspResetAddress => none
  | .icspBeginInternallyTimedProgramming => none
  | .icspBulkEraseProgramMemory => none
  | .icspBulkEraseDataMemory => none
  | .icspKey => none

/-- The operation of R79 an instruction of the host port belongs to; `none` for a unit of the wire. -/
def portOp : Instr → Option Nat
  | .getStatus _ => some 0x00
  | .setTiming _ _ => some 0x01
  | .getTiming _ _ => some 0x02
  | .sendBits _ _ => some 0x08
  | .recvBits _ _ => some 0x09
  | .enterProg _ => some 0x10
  | .exitProg _ => some 0x11
  | .resetTarget _ => some 0x12
  | .cmdLoadConfig _ => some 0x20
  | .cmdLoadDataPm _ => some 0x21
  | .cmdLoadDataDm _ => some 0x22
  | .cmdReadDataPm _ => some 0x23
  | .cmdReadDataDm _ => some 0x24
  | .cmdIncrementAddress _ => some 0x25
  | .cmdResetAddress _ => some 0x26
  | .cmdBeginIntProg _ => some 0x27
  | .cmdBulkErasePm _ => some 0x28
  | .cmdBulkEraseDm _ => some 0x29
  | .readRegion _ _ _ => some 0x30
  | .eraseRegionPm _ _ => some 0x31
  | .eraseRegionDm _ _ => some 0x31
  | .eraseRegionCfg _ _ => some 0x31
  | .writeRegionPm _ _ => some 0x32
  | .writeRegionDm _ _ => some 0x32
  | .writeRegionCfg _ _ => some 0x32
  | .icspLoadConfiguration _ => none
  | .icspLoadDataProgramMemory _ => none
  | .icspLoadDataDataMemory _ => none
  | .icspReadDataProgramMemory => none
  | .icspReadDataDataMemory => none
  | .icspIncrementAddress => none
  | .icspResetAddress => none
  | .icspBeginInternallyTimedProgramming => none
  | .icspBulkEraseProgramMemory => none
  | .icspBulkEraseDataMemory => none
  | .icspKey => none

/-- CLOCK is low and DATA is an output: the levels between requests (R19, R20). -/
def LinesIdle (l : Lines) : Prop := l.clk = false ∧ l.datDir = .out

/-- The shift state of the reference target fits its mode (R53 to R55): part of a key in `KEYWAIT`; part of an opcode,
part of the frame of an OUT command or part of a driven frame in `LVP`; empty in the other modes. -/
def rxWf (m : RMode) (rx : Rx) : Prop :=
  match m, rx with
  | .keywait, .unit bits => bits.length < 33
  | .lvp, .unit bits => bits.length < Config.wOpc
  | .lvp, .frame c bits => cmdClass c = .out ∧ bits.length < Config.wFrame
  | .lvp, .drive _ j => j < Config.wFrame
  | .run, .unit bits => bits = []
  | .lost, .unit bits => bits = []
  | _, _ => False

/-- The reference target is well formed: its memories and latch maps are canonical, its offset fits its width, its shift
state fits its mode, the pulses it did not drive are fewer than a frame, and with MCLR at 1 it runs with nothing latched
(R53, R54). -/
structure TargetWf (mclr : Bool) (t : RefTarget) : Prop where
  pmWf : t.pm.wf = true
  cfgWf : t.cfg.wf = true
  dmWf : t.dm.wf = true
  latchMainWf : cellsWf t.latchMain = true
  latchCfgWf : cellsWf t.latchCfg = true
  latchDWf : cellsWf t.latchD = true
  offFits : t.roff < 2 ^ t.geo.offBits
  strayFits : t.stray < Config.wFrame
  rxFits : rxWf t.rmode t.rx
  runs : mclr = true → t.rmode = .run ∧ t.latchMain = [] ∧ t.latchCfg = [] ∧ t.latchD = []

/-- The environment is well formed. -/
def EnvWf (mclr : Bool) : Env → Prop
  | .oracle => True
  | .reference t => TargetWf mclr t
  | .desync t _ _ => TargetWf mclr t

/-- The invariant between steps: the parameters are legal (R69); the lines are idle (R19, R20); MCLR is 0 exactly in
`PROG` (R93, R95, R96); the shadow is valid only in `PROG` (R22); a recorded fault stays recorded (R28); no request is
in flight (R29); the environment is well formed. -/
structure Inv (s : State) : Prop where
  params : s.params.wf = true
  idle : LinesIdle s.lines
  mclrSession : s.lines.mclr = true ↔ s.session = .normal
  shadow : s.cursor.valid = true → s.session = .prog
  faultKept : s.lastResult.isFault = true → s.faultSeen = true
  ready : s.busy = false
  env : EnvWf s.lines.mclr s.env

/-- The reference target is attached, has accepted the key, stands at the start of an opcode with no settle left to
elapse and no part of a frame clocked in, and the trace that reaches it keeps the timing floors: what the block's commands
meet in `PROG` (R54, R55, R62). -/
structure TargetReady (t : RefTarget) (s : State) : Prop where
  attached : s.env = .reference t
  programming : t.rmode = .lvp
  atBoundary : t.rx = .unit []
  settled : t.due = 0
  noStray : t.stray = 0
  floors : belowFloor s.timing = false
  idle : LinesIdle s.lines
  mclr : s.lines.mclr = false
  params : s.params.wf = true

/-- What a whole command does to the reference target (R56 to R61). A read changes no target state (R58). -/
def targetCommand (c : Cmd) (payload : Payload) (t : RefTarget) : RefTarget :=
  match c with
  | .loadConfig => { t with rspace := .cfg, roff := 0 }
  | .loadDataPm =>
    if t.rspace = .main then { t with latchMain := cellInsert t.latchMain t.roff payload }
    else { t with latchCfg := cellInsert t.latchCfg t.roff payload }
  | .loadDataDm => { t with latchD := cellInsert t.latchD t.roff (payload &&& t.geo.dmMask) }
  | .readDataPm => t
  | .readDataDm => t
  | .incrementAddress => { t with roff := (t.roff + 1) % 2 ^ t.geo.offBits }
  | .resetAddress => { t with rspace := .main, roff := 0 }
  | .beginIntProg => targetProgram t
  | .bulkErasePm => targetErasePm t
  | .bulkEraseDm => targetEraseDm t

/-- The commands of READ_REGION with `n` words (R113). -/
def readCommands (p : Params) (rgn : Region) (n : Nat) : List (Cmd × Payload) :=
  (if rgn = .cfg then (.loadConfig, p.ldcfgPayload) else (.resetAddress, 0)) ::
    (List.range n).flatMap fun _ => [(if rgn = .dm then .readDataDm else .readDataPm, 0), (.incrementAddress, 0)]

/-- The commands of the write loop for words `i`, `i + 1`, … of a request of `n` words with latch size `l` (R119 to
R122). -/
def loadCommands (load : Cmd) (n l : Nat) : Nat → List Word → List (Cmd × Payload)
  | _, [] => []
  | i, w :: ws =>
    (load, w.extractLsb' 0 Config.wWord) ::
      ((if (i + 1) % l = 0 ∨ i + 1 = n then [(.beginIntProg, 0)] else []) ++
        (.incrementAddress, 0) :: loadCommands load n l (i + 1) ws)

/-- The trace of a list of commands none of which reads. -/
def commandsItems (p : Params) (t : Timing) (cs : List (Cmd × Payload)) : List TraceItem :=
  cs.flatMap fun c => commandItems p t c.1 c.2 []

/-- The trace of a list of commands, the frames received taken from `rx` in their order. -/
def readingItems (p : Params) (t : Timing) : List (Cmd × Payload) → List (List Bool) → List TraceItem
  | [], _ => []
  | c :: cs, rx =>
    if cmdClass c.1 = .inp then commandItems p t c.1 c.2 (rx.headD []) ++ readingItems p t cs rx.tail
    else commandItems p t c.1 c.2 [] ++ readingItems p t cs rx

/-- The cursor shadow after a list of commands (R22). -/
def shadowAfterAll (cs : List (Cmd × Payload)) (k : Cursor) : Cursor := cs.foldl (fun k c => shadowAfter c.1 k) k

/-- `s` after a list of commands that received the frames `rx` and left the draws `d`, and nothing else. -/
def ranWith (cs : List (Cmd × Payload)) (rx : List (List Bool)) (d : Draws) (s : State) : State :=
  { played (readingItems s.params s.timing cs rx) s with cursor := shadowAfterAll cs s.cursor, draws := d }

/-- The read word of a received frame, given by its bits in the order received (R66, R78). -/
def wordOfBits (bs : List Bool) : Word := readWord (BitVec.ofNat Config.wFrame (bitsValue bs))

end Sys2Proof.Machine
end

