-- ==== Sys2Proof/Certificates/Slice0/Obligations.lean ====
section
/-! DEFINITION. The statements for the provers. A statement that cites no rule as its own rests on the sections its entry
in OBLIGATIONS.json names. -/

open Sys2Proof Sys2Proof.Machine

/-! ### Encodings -/

/-- Decoding the encoding of any instruction, well formed or not, gives it back, under every choice of distinct opcode
values (30_encoding.md sections 1 to 3). The separate channel of a wire unit and of the key is the model's (log entries
1 and 2). -/
def Obligations.DecodeEncodeEveryInstruction : Prop :=
  ∀ p : Params, p.wf = true → ∀ i : Instr, decode p (encode p i) = .ok i

/-- R81: a header field that an operation does not use, and an operand bit that R75 calls ignored, never matters. -/
def Obligations.UnusedFieldsAndBitsIgnored : Prop :=
  (∀ (h h' : Word) (ops : List Word), headerOp h = headerOp h' →
    ((headerOp h = 0x08 ∨ headerOp h = 0x09) → headerNbits h = headerNbits h') →
    ((headerOp h = 0x30 ∨ headerOp h = 0x31 ∨ headerOp h = 0x32) → headerRgn h = headerRgn h') →
    ((headerOp h = 0x01 ∨ headerOp h = 0x02 ∨ headerOp h = 0x30 ∨ headerOp h = 0x31 ∨ headerOp h = 0x32) →
      headerCount h = headerCount h') →
    decodeRequest h ops = decodeRequest h' ops) ∧
  (∀ (n : BitVec 6) (v v' : Word) (s : State), (∀ k < n.toNat, v.getLsbD k = v'.getLsbD k) →
    exec (.sendBits n [v]) s = exec (.sendBits n [v']) s) ∧
  (∀ (v v' : Word) (s : State), v.extractLsb' 0 14 = v'.extractLsb' 0 14 →
    exec (.cmdLoadConfig [v]) s = exec (.cmdLoadConfig [v']) s ∧
    exec (.cmdLoadDataPm [v]) s = exec (.cmdLoadDataPm [v']) s ∧
    exec (.cmdLoadDataDm [v]) s = exec (.cmdLoadDataDm [v']) s) ∧
  (∀ (n : BitVec 16) (ws ws' : List Word) (s : State),
    ws.map (fun w => w.extractLsb' 0 14) = ws'.map (fun w => w.extractLsb' 0 14) →
    exec (.writeRegionPm n ws) s = exec (.writeRegionPm n ws') s ∧
    exec (.writeRegionDm n ws) s = exec (.writeRegionDm n ws') s ∧
    exec (.writeRegionCfg n ws) s = exec (.writeRegionCfg n ws') s)

/-- R80 and R132: an unassigned `OP` is refused with `E_BAD_OP`, whatever the other fields and operands, with no trace and
nothing changed but the result, `fault_seen` and the response; the reserved region is refused with `E_BAD_ARG`. -/
def Obligations.UnassignedOperationRefused : Prop :=
  (∀ (h : Word) (ops : List Word) (s : State) (op : Nat), op = (headerOp h).toNat →
    (3 ≤ op ∧ op ≤ 0x07 ∨ 0x0A ≤ op ∧ op ≤ 0x0F ∨ 0x13 ≤ op ∧ op ≤ 0x1F ∨ 0x2A ≤ op ∧ op ≤ 0x2F ∨ 0x33 ≤ op) →
    perform (.request h ops) s = .next (refusedWith .eBadOp s)) ∧
  (∀ (h : Word) (ops : List Word) (s : State),
    (headerOp h = 0x30 ∨ headerOp h = 0x31 ∨ headerOp h = 0x32) → headerRgn h = 3 →
    perform (.request h ops) s = .next (refusedWith .eBadArg s))

/-- After the opcode, a command with a payload puts a 0 bit, the 14 payload bits from bit 0 on, and a 0 bit on the wire
(30_encoding.md section 1; the wire commands as units of their own are the model's choice, log entry 1). -/
def Obligations.OutboundFrameOnTheWire : Prop :=
  ∀ (i : Instr) (c : Cmd) (p : Payload) (s t : State) (new : List TraceItem),
    commandForm i = some (c, p) → cmdClass c = .out → s.session = .prog → LinesIdle s.lines →
    exec i s = .next t → t.trace = s.trace ++ new →
    sentBits s.lines new =
      (List.range 6).map (s.params.opc c).getLsbD ++ ([false] ++ (List.range 14).map p.getLsbD ++ [false])

/-- R78: the fields of the read word of a received frame. -/
def Obligations.ReadWordFields : Prop :=
  ∀ raw : Frame, (readWord raw).extractLsb' 16 16 = raw ∧ (readWord raw).extractLsb' 14 2 = 0 ∧
    ∀ k < 14, (readWord raw).getLsbD k = raw.getLsbD (k + 1)

/-- R77, with the result codes R131 gives: every field of the status word, and every host request is answered with one
response, which begins with the status word of the state after it (R72, R76). -/
def Obligations.StatusWordOfEveryResponse : Prop :=
  (∀ s : State,
    (statusWord s).extractLsb' 0 4 =
      (match s.lastResult with
        | .ok => 0
        | .eNotProg => 1
        | .eBadOp => 2
        | .eBadArg => 3
        | .aborted => 4) ∧
    (statusWord s).getLsbD 4 = decide (s.session = .prog) ∧
    (statusWord s).getLsbD 5 = s.faultSeen ∧
    ((statusWord s).getLsbD 6 = true ↔
      s.timing.tEdge.toNat < 100 ∨ s.timing.tCmd.toNat < 1000 ∨ s.timing.tProg.toNat < 5000000 ∨
        s.timing.tMclr.toNat < 1000000) ∧
    (statusWord s).getLsbD 7 = s.cursor.valid ∧
    (statusWord s).getLsbD 8 = decide (s.cursor.space = .cfg) ∧
    (statusWord s).extractLsb' 9 7 = 0 ∧
    (statusWord s).extractLsb' 16 16 = s.cursor.off) ∧
  ∀ (h : Word) (ops : List Word) (s : State), ∃ (t : State) (data : List Word),
    perform (.request h ops) s = .next t ∧ t.responses = { status := statusWord t, data := data } :: s.responses

/-- A few words of R79, R69 and R67, written out from the tables, decode to the instruction they stand for. -/
def Obligations.TableWordsDecode : Prop :=
  decode Params.default (.request 0x00030001 [7]) = .ok (.setTiming 3 [7]) ∧
  decode Params.default (.request 0x00001808 [6]) = .ok (.sendBits 6 [6]) ∧
  decode Params.default (.request 0x000B0230 []) = .ok (.readRegion .cfg 11 []) ∧
  decode Params.default (.request 0x08000031 []) = .ok (.eraseRegionPm 2048 []) ∧
  decode Params.default (.command 0x16 0) = .ok .icspResetAddress ∧
  decode Params.default (.command 0x02 0x0246) = .ok (.icspLoadDataProgramMemory 0x0123) ∧
  decode Params.default (.key 0x04D434850) = .ok .icspKey

/-- A step runs the instruction its message decodes to, in the state that has taken the message from the port and raised
`busy`. -/
def Obligations.StepRunsDecodedInstruction : Prop :=
  ∀ (s : State) (m : Message) (rest : List Input) (i : Instr),
    s.busy = false → s.inbox = .message m :: rest → decode s.params m = .ok i →
    step s = exec i { s with inbox := rest, busy := true }

/-- With nothing at the port the block waits; while a request is in flight nothing is accepted (10_state.md section 6). That
the second is a fault of the model is its choice (log entry 8). -/
def Obligations.StepWithoutRequest : Prop :=
  ∀ s : State, (s.busy = false → s.inbox = [] → step s = .next s) ∧ (s.busy = true → step s = .fault .requestInFlight)

/-- A 6-bit value that is none of the ten opcodes is no command, and a 33-bit unit that is not the key is no unit;
the model refuses both by name (30_encoding.md sections 1 and 2; log entry 9). -/
def Obligations.OtherWireUnitsRefused : Prop :=
  (∀ (c : Opcode) (f : Frame) (s : State), (∀ k : Cmd, s.params.opc k ≠ c) →
    perform (.command c f) s = .refused .noSuchCommand) ∧
  (∀ (b : BitVec 33) (s : State), b ≠ s.params.key → perform (.key b) s = .refused .notTheKey)

/-! ### Control and status -/

/-- R127: GET_STATUS. -/
def Obligations.GetStatusReports : Prop :=
  (∀ (h : Word) (ops : List Word), headerOp h = 0x00 → decodeRequest h ops = .ok (.getStatus ops)) ∧
  ∀ (ops : List Word) (s : State),
    exec (.getStatus ops) s = .next (if ops = [] then answered .ok [] s else refusedWith .eBadArg s)

/-- R128: SET_TIMING writes the one register named, as given, and leaves the others. -/
def Obligations.SetTimingWritesOneRegister : Prop :=
  (∀ (h : Word) (ops : List Word), headerOp h = 0x01 → decodeRequest h ops = .ok (.setTiming (headerCount h) ops)) ∧
  (∀ (idx : BitVec 16) (v : Word) (s : State), idx.toNat ≤ 5 →
    ∃ τ : Timing, (∀ k < 6, τ.get k = if k = idx.toNat then v else s.timing.get k) ∧
      exec (.setTiming idx [v]) s = .next (answered .ok [] { s with timing := τ })) ∧
  ∀ (idx : BitVec 16) (ops : List Word) (s : State), (5 < idx.toNat ∨ ops.length ≠ 1) →
    exec (.setTiming idx ops) s = .next (refusedWith .eBadArg s)

/-- R129: GET_TIMING answers the register named, as written. -/
def Obligations.GetTimingReadsRegister : Prop :=
  (∀ (h : Word) (ops : List Word), headerOp h = 0x02 → decodeRequest h ops = .ok (.getTiming (headerCount h) ops)) ∧
  (∀ (idx : BitVec 16) (s : State), idx.toNat ≤ 5 →
    exec (.getTiming idx []) s =
      .next (answered .ok
        [[s.timing.tEdge, s.timing.tCmd, s.timing.tProg, s.timing.tMclr, s.timing.tKey, s.timing.tRst].getD idx.toNat 0]
        s)) ∧
  ∀ (idx : BitVec 16) (ops : List Word) (s : State), (5 < idx.toNat ∨ ops ≠ []) →
    exec (.getTiming idx ops) s = .next (refusedWith .eBadArg s)

/-! ### Transport -/

/-- SEND_BITS, in either session, and its refusals (40_transport.md section 2). That the shadow keeps `cur_space` and
`cur_off` is the model's reading, against vector T10 (log entry 11); that a reference target, where one is attached, is
told that the bits are the host's is the model's own device (log entries 13 and 22). -/
def Obligations.SendBitsWaveform : Prop :=
  (∀ (h : Word) (ops : List Word), headerOp h = 0x08 → decodeRequest h ops = .ok (.sendBits (headerNbits h) ops)) ∧
  (∀ (n : BitVec 6) (v : Word) (s : State), R7Values s.params → 1 ≤ n.toNat → n.toNat ≤ 32 →
    exec (.sendBits n [v]) s =
      .next (answered .ok []
        { played ((List.range n.toNat).flatMap fun k => bitItems s.timing.tEdge.toNat (v.getLsbD k)) (arriveRaw s) with
          cursor := { s.cursor with valid := false } })) ∧
  ∀ (n : BitVec 6) (ops : List Word) (s : State), R7Values s.params →
    (n.toNat < 1 ∨ 32 < n.toNat ∨ ops.length ≠ 1) →
    exec (.sendBits n ops) s = .next (refusedWith .eBadArg s)

/-- RECV_BITS, in either session, and its refusals; the value answered is the bits sampled, in order, with zeros above
them (40_transport.md section 2). That the shadow keeps `cur_space` and `cur_off` is the model's reading, against vector
T10 (log entry 11); that the trace ends with the direction switch is its reading of R87 against R158 (log entry 15); that a
reference target, where one is attached, is told that the pulses are the host's is its own device (log entries 13
and 22). -/
def Obligations.RecvBitsWaveform : Prop :=
  (∀ (h : Word) (ops : List Word), headerOp h = 0x09 → decodeRequest h ops = .ok (.recvBits (headerNbits h) ops)) ∧
  (∀ (n : BitVec 6) (s : State), R7Values s.params → 1 ≤ n.toNat → n.toNat ≤ 32 →
    ∃ (bs : List Bool) (r : Word) (d : Draws), bs.length = n.toNat ∧
      (∀ k < 32, r.getLsbD k = bs.getD k false) ∧ d.aborts = s.draws.aborts ∧
      exec (.recvBits n []) s =
        .next (answered .ok [r]
          { played (recvItems s.timing.tEdge.toNat bs) (arriveRaw s) with
            cursor := { s.cursor with valid := false }
            draws := d })) ∧
  ∀ (n : BitVec 6) (ops : List Word) (s : State), R7Values s.params → (n.toNat < 1 ∨ 32 < n.toNat ∨ ops ≠ []) →
    exec (.recvBits n ops) s = .next (refusedWith .eBadArg s)

/-! ### Mode control -/

/-- R93: ENTER_PROG, from either session. -/
def Obligations.EnterProgEntersProgramming : Prop :=
  (∀ (h : Word) (ops : List Word), headerOp h = 0x10 → decodeRequest h ops = .ok (.enterProg ops)) ∧
  ∀ (ops : List Word) (s : State),
    exec (.enterProg ops) s =
      .next (if ops = [] then
        answered .ok [] { played (enterItems s.params s.timing) s with session := .prog, cursor := ⟨false, .main, 0⟩ }
      else refusedWith .eBadArg s)

/-- R95: EXIT_PROG, from either session. -/
def Obligations.ExitProgLeavesProgramming : Prop :=
  (∀ (h : Word) (ops : List Word), headerOp h = 0x11 → decodeRequest h ops = .ok (.exitProg ops)) ∧
  ∀ (ops : List Word) (s : State),
    exec (.exitProg ops) s =
      .next (if ops = [] then
        answered .ok [] { played [.event (.mclr true)] s with session := .normal, cursor := ⟨false, .main, 0⟩ }
      else refusedWith .eBadArg s)

/-- R96: RESET_TARGET, from either session. -/
def Obligations.ResetTargetRestartsTarget : Prop :=
  (∀ (h : Word) (ops : List Word), headerOp h = 0x12 → decodeRequest h ops = .ok (.resetTarget ops)) ∧
  ∀ (ops : List Word) (s : State),
    exec (.resetTarget ops) s =
      .next (if ops = [] then
        answered .ok [] { played (resetItems s.timing) s with session := .normal, cursor := ⟨false, .main, 0⟩ }
      else refusedWith .eBadArg s)

/-- R94: the 33 bits ENTER_PROG puts on DATA, in wire order, and the level of DATA after them, for the key of R7. -/
def Obligations.KeyBitsOnTheWire : Prop :=
  ∀ (s t : State) (new : List TraceItem), R7Values s.params → LinesIdle s.lines → exec (.enterProg []) s = .next t →
    t.trace = s.trace ++ new →
    sentBits s.lines new =
      [false, false, false, false, true, false, true, false, false, false, false, true, false, false, true, false,
       true, true, false, false, false, false, true, false, true, false, true, true, false, false, true, false, false] ∧
    t.lines.datOut = false

/-- The key as a unit of its own: it is sent only inside the entry sequence, so the unit is that sequence and its answer
(30_encoding.md section 1, 41_mode_control.md; that it can be handed in at all is the model's choice, log entry 2). -/
def Obligations.KeyUnitSendsKey : Prop :=
  ∀ s : State, exec .icspKey s =
    .next (answered .ok []
      { played (enterItems s.params s.timing) s with session := .prog, cursor := ⟨false, .main, 0⟩ })

/-! ### Commands -/

/-- The commands that send (42_commands.md): in `PROG` each completes with `OK`, having played the trace of `IssueCmd`
against the environment a command stream meets, and written the cursor shadow, and nothing else. It speaks of
cmdLoadConfig, cmdLoadDataPm, cmdLoadDataDm, cmdIncrementAddress, cmdResetAddress, cmdBeginIntProg, cmdBulkErasePm,
cmdBulkEraseDm and of the wire commands icspLoadConfiguration, icspLoadDataProgramMemory, icspLoadDataDataMemory,
icspIncrementAddress, icspResetAddress, icspBeginInternallyTimedProgramming, icspBulkEraseProgramMemory,
icspBulkEraseDataMemory, whose completion like a request is the model's choice (log entry 1). What a command stream meets
where raw requests went before it rests on log entries 13 and 22. -/
def Obligations.SendingCommandsComplete : Prop :=
  ∀ (i : Instr) (c : Cmd) (p : Payload) (s : State),
    commandForm i = some (c, p) → cmdClass c ≠ .inp → s.session = .prog →
    exec i s =
      .next (answered .ok []
        { played (commandItems s.params s.timing c p []) (arrive s) with cursor := shadowAfter c s.cursor })

/-- The commands that read (42_commands.md): in `PROG` each completes with `OK` and the read word of the 16 bits it
sampled, having played the trace of `IssueCmd` and taken draws, and nothing else. It speaks of cmdReadDataPm,
cmdReadDataDm, icspReadDataProgramMemory and icspReadDataDataMemory (for the last two, log entry 1). -/
def Obligations.ReadingCommandsComplete : Prop :=
  ∀ (i : Instr) (c : Cmd) (p : Payload) (s : State),
    commandForm i = some (c, p) → cmdClass c = .inp → s.session = .prog →
    ∃ (bs : List Bool) (raw : Frame) (d : Draws), bs.length = 16 ∧ (∀ k < 16, raw.getLsbD k = bs.getD k false) ∧
      d.aborts = s.draws.aborts ∧
      exec i s =
        .next (answered .ok [readWord raw]
          { played (commandItems s.params s.timing c p bs) (arrive s) with draws := d })

/-- A command in `NORMAL` is refused with `E_NOT_PROG` and emits nothing (42_commands.md, 60_exceptions.md; for the wire
commands, log entry 1). -/
def Obligations.CommandsRefusedInNormal : Prop :=
  ∀ (i : Instr) (c : Cmd) (p : Payload) (s : State), commandForm i = some (c, p) → s.session = .normal →
    exec i s = .next (refusedWith .eNotProg s)

/-- The cursor shadow after CMD_INCREMENT_ADDRESS in every state of the shadow, its wrap included (42_commands.md section
2, 10_state.md section 4). -/
def Obligations.IncrementWrapsShadow : Prop :=
  ∀ (s : State), s.session = .prog → ∃ t, exec (.cmdIncrementAddress []) s = .next t ∧
    t.cursor.valid = s.cursor.valid ∧ t.cursor.space = s.cursor.space ∧
    t.cursor.off.toNat = if s.cursor.valid then (s.cursor.off.toNat + 1) % 65536 else s.cursor.off.toNat

/-! ### Regions -/

/-- READ_REGION where every abort point reads 0: the positioning command, then `n` reads and increments; `n` read words in
the order received; the shadow at offset `n` (43_memory_access.md section 2; how the levels of `abort` are given is the
model's, log entry 5). -/
def Obligations.ReadRegionReadsEveryWord : Prop :=
  ∀ (rgn : Region) (n : BitVec 16) (s : State) (more : List Bool),
    n.toNat ≠ 0 → s.session = .prog → s.draws.aborts = List.replicate (n.toNat - 1) false ++ more →
    ∃ (rx : List (List Bool)) (d : Draws), rx.length = n.toNat ∧ (∀ bs ∈ rx, bs.length = 16) ∧ d.aborts = more ∧
      exec (.readRegion rgn n []) s =
        .next (answered .ok (rx.map wordOfBits)
          { played (readingItems s.params s.timing (readCommands s.params rgn n.toNat) rx) (arrive s) with
            cursor := ⟨true, if rgn = .cfg then .cfg else .main, n⟩
            draws := d })

/-- An abort point stands before each word `i ≥ 1` of a read; where it reads 1 after others read 0, the request ends with
`ABORTED` and the `i` words read so far (43_memory_access.md section 5; log entry 5). -/
def Obligations.ReadRegionAborts : Prop :=
  ∀ (rgn : Region) (n : BitVec 16) (s : State) (i : Nat) (more : List Bool),
    s.session = .prog → 1 ≤ i → i < n.toNat → s.draws.aborts = List.replicate (i - 1) false ++ true :: more →
    ∃ (rx : List (List Bool)) (d : Draws), rx.length = i ∧ (∀ bs ∈ rx, bs.length = 16) ∧ d.aborts = more ∧
      exec (.readRegion rgn n []) s =
        .next (answered .aborted (rx.map wordOfBits)
          { played (readingItems s.params s.timing (readCommands s.params rgn i) rx) (arrive s) with
            cursor := ⟨true, if rgn = .cfg then .cfg else .main, BitVec.ofNat 16 i⟩
            draws := d })

/-- ERASE_REGION of program memory and of data memory in `PROG` (43_memory_access.md section 3). -/
def Obligations.EraseRegionsComplete : Prop :=
  ∀ (n : BitVec 16) (s : State), n.toNat ≠ 0 → s.session = .prog →
    exec (.eraseRegionPm n []) s =
      .next (answered .ok []
        { played (commandsItems s.params s.timing [(.loadConfig, s.params.ldcfgPayload), (.bulkErasePm, 0)])
            (arrive s) with
          cursor := ⟨true, .cfg, 0⟩ }) ∧
    exec (.eraseRegionDm n []) s =
      .next (answered .ok [] (played (commandsItems s.params s.timing [(.bulkEraseDm, 0)]) (arrive s)))

/-- R118: ERASE_REGION of the configuration region is refused with `E_BAD_ARG`, whatever `COUNT` is. -/
def Obligations.EraseConfigRefused : Prop :=
  ∀ (n : BitVec 16) (ops : List Word) (s : State),
    exec (.eraseRegionCfg n ops) s = .next (refusedWith .eBadArg s)

/-- WRITE_REGION of program memory where every abort point reads 0 (43_memory_access.md section 4; log entry 5). -/
def Obligations.WriteProgramRegionCompletes : Prop :=
  ∀ (n : BitVec 16) (ws : List Word) (s : State) (more : List Bool),
    n.toNat ≠ 0 → ws.length = n.toNat → s.session = .prog →
    s.draws.aborts = List.replicate ((n.toNat - 1) / s.params.lPm) false ++ more →
    exec (.writeRegionPm n ws) s =
      .next (answered .ok []
        { played (commandsItems s.params s.timing
            ([(.loadConfig, s.params.ldcfgPayload), (.bulkErasePm, 0), (.resetAddress, 0)] ++
              loadCommands .loadDataPm n.toNat s.params.lPm 0 ws)) (arrive s) with
          cursor := ⟨true, .main, n⟩
          draws := { s.draws with aborts := more } })

/-- WRITE_REGION of data memory where every abort point reads 0 (43_memory_access.md section 4; log entry 5). -/
def Obligations.WriteDataRegionCompletes : Prop :=
  ∀ (n : BitVec 16) (ws : List Word) (s : State) (more : List Bool),
    n.toNat ≠ 0 → ws.length = n.toNat → s.session = .prog →
    s.draws.aborts = List.replicate ((n.toNat - 1) / s.params.lDm) false ++ more →
    exec (.writeRegionDm n ws) s =
      .next (answered .ok []
        { played (commandsItems s.params s.timing
            ([(.bulkEraseDm, 0), (.resetAddress, 0)] ++ loadCommands .loadDataDm n.toNat s.params.lDm 0 ws))
            (arrive s) with
          cursor := ⟨true, .main, n⟩
          draws := { s.draws with aborts := more } })

/-- WRITE_REGION of the configuration words where every abort point reads 0: no erase, `CFG_SKIP` increments, then the
words; and, with the values R7 gives, words 7 and 8 (43_memory_access.md section 4; log entry 5). -/
def Obligations.WriteConfigRegionCompletes : Prop :=
  (∀ (n : BitVec 16) (ws : List Word) (s : State) (more : List Bool),
    n.toNat ≠ 0 → n.toNat = s.params.cfgWords → ws.length = n.toNat → s.session = .prog →
    s.draws.aborts = List.replicate ((n.toNat - 1) / s.params.lCfg) false ++ more →
    exec (.writeRegionCfg n ws) s =
      .next (answered .ok []
        { played (commandsItems s.params s.timing
            ((.loadConfig, s.params.ldcfgPayload) :: List.replicate s.params.cfgSkip (.incrementAddress, 0) ++
              loadCommands .loadDataPm n.toNat s.params.lCfg 0 ws)) (arrive s) with
          cursor := ⟨true, .cfg, BitVec.ofNat 16 (s.params.cfgSkip + n.toNat)⟩
          draws := { s.draws with aborts := more } })) ∧
  ∀ (w0 w1 : Word) (s : State) (more : List Bool), R7Values s.params → s.session = .prog →
    s.draws.aborts = false :: more →
    exec (.writeRegionCfg 2 [w0, w1]) s =
      .next (answered .ok []
        { played (commandsItems s.params s.timing
            ((.loadConfig, s.params.ldcfgPayload) :: List.replicate 7 (.incrementAddress, 0) ++
              [(.loadDataPm, w0.extractLsb' 0 14), (.beginIntProg, 0), (.incrementAddress, 0),
               (.loadDataPm, w1.extractLsb' 0 14), (.beginIntProg, 0), (.incrementAddress, 0)])) (arrive s) with
          cursor := ⟨true, .cfg, 9⟩
          draws := { s.draws with aborts := more } })

/-- WRITE_REGION is aborted at the start of a latch group but the first, with every word loaded so far committed; here for
the group that starts at word `L * g` of program memory, of data memory and of the configuration words
(43_memory_access.md section 5; log entry 5). -/
def Obligations.WriteRegionAborts : Prop :=
  (∀ (n : BitVec 16) (ws : List Word) (s : State) (g : Nat) (more : List Bool),
    ws.length = n.toNat → s.session = .prog → 1 ≤ s.params.lPm → 1 ≤ g → s.params.lPm * g < n.toNat →
    s.draws.aborts = List.replicate (g - 1) false ++ true :: more →
    exec (.writeRegionPm n ws) s =
      .next (answered .aborted []
        { played (commandsItems s.params s.timing
            ([(.loadConfig, s.params.ldcfgPayload), (.bulkErasePm, 0), (.resetAddress, 0)] ++
              loadCommands .loadDataPm n.toNat s.params.lPm 0 (ws.take (s.params.lPm * g)))) (arrive s) with
          cursor := ⟨true, .main, BitVec.ofNat 16 (s.params.lPm * g)⟩
          draws := { s.draws with aborts := more } })) ∧
  (∀ (n : BitVec 16) (ws : List Word) (s : State) (g : Nat) (more : List Bool),
    ws.length = n.toNat → s.session = .prog → 1 ≤ s.params.lDm → 1 ≤ g → s.params.lDm * g < n.toNat →
    s.draws.aborts = List.replicate (g - 1) false ++ true :: more →
    exec (.writeRegionDm n ws) s =
      .next (answered .aborted []
        { played (commandsItems s.params s.timing
            ([(.bulkEraseDm, 0), (.resetAddress, 0)] ++
              loadCommands .loadDataDm n.toNat s.params.lDm 0 (ws.take (s.params.lDm * g)))) (arrive s) with
          cursor := ⟨true, .main, BitVec.ofNat 16 (s.params.lDm * g)⟩
          draws := { s.draws with aborts := more } })) ∧
  ∀ (n : BitVec 16) (ws : List Word) (s : State) (g : Nat) (more : List Bool),
    n.toNat = s.params.cfgWords → ws.length = n.toNat → s.session = .prog → 1 ≤ s.params.lCfg → 1 ≤ g →
    s.params.lCfg * g < n.toNat → s.draws.aborts = List.replicate (g - 1) false ++ true :: more →
    exec (.writeRegionCfg n ws) s =
      .next (answered .aborted []
        { played (commandsItems s.params s.timing
            ((.loadConfig, s.params.ldcfgPayload) :: List.replicate s.params.cfgSkip (.incrementAddress, 0) ++
              loadCommands .loadDataPm n.toNat s.params.lCfg 0 (ws.take (s.params.lCfg * g)))) (arrive s) with
          cursor := ⟨true, .cfg, BitVec.ofNat 16 (s.params.cfgSkip + s.params.lCfg * g)⟩
          draws := { s.draws with aborts := more } })

/-- R112: a region request with `COUNT` = 0 that passes the argument checks is a no-op in either session. -/
def Obligations.EmptyRegionIsNoOp : Prop :=
  ∀ (i : Instr) (n : BitVec 16) (ops : List Word) (s : State),
    regionForm i = some (n, ops) → WellFormed s.params i = true → n.toNat = 0 → exec i s = .next (answered .ok [] s)

/-- The commands on the wire of a write of `n ≥ 1` words that completes with `OK`, read off its trace: Begin Programming
follows the load of word `i` exactly where `(i + 1) mod L = 0` or `i = n - 1`; so there are `ceil(n / L)` of them, and
the last load is followed by one (43_memory_access.md section 4). -/
def Obligations.ProgrammingTriggers : Prop :=
  ∀ (i : Instr) (rgn : Region) (n : BitVec 16) (ws : List Word) (s t : State) (new : List TraceItem),
    writeForm i = some (rgn, n, ws) → n.toNat ≠ 0 → s.params.wf = true → 1 ≤ s.params.latchSize rgn →
    LinesIdle s.lines → exec i s = .next t → t.lastResult = .ok → t.trace = s.trace ++ new →
    ∃ (load : Cmd) (front onWire : List Cmd), load = (if rgn = .dm then .loadDataDm else .loadDataPm) ∧
      onWire = commandsSent s.params (sentBits s.lines new).length (sentBits s.lines new) ∧
      onWire = front ++ (List.range n.toNat).flatMap (fun k =>
        load :: (if (k + 1) % s.params.latchSize rgn = 0 ∨ k = n.toNat - 1 then [.beginIntProg] else []) ++
          [.incrementAddress]) ∧
      load ∉ front ∧
      onWire.count .beginIntProg = (n.toNat + (s.params.latchSize rgn - 1)) / s.params.latchSize rgn ∧
      ∃ before, onWire = before ++ [load, .beginIntProg, .incrementAddress]

/-! ### Faults -/

/-- R133: `E_BAD_ARG` is raised by exactly the listed cases of a request whose `OP` is assigned, for the parameter values
of R7. -/
def Obligations.BadArgExactly : Prop :=
  ∀ (h : Word) (ops : List Word) (s t : State) (op : Nat), R7Values s.params → op = (headerOp h).toNat →
    op ∈ [0x00, 0x01, 0x02, 0x08, 0x09, 0x10, 0x11, 0x12, 0x20, 0x21, 0x22, 0x23, 0x24, 0x25, 0x26, 0x27, 0x28, 0x29,
      0x30, 0x31, 0x32] →
    perform (.request h ops) s = .next t →
    (t.lastResult = .eBadArg ↔
      (op = 0x08 ∨ op = 0x09) ∧ ((headerNbits h).toNat = 0 ∨ 32 < (headerNbits h).toNat) ∨
      (op = 0x30 ∨ op = 0x31 ∨ op = 0x32) ∧ headerRgn h = 3 ∨
      (op = 0x01 ∨ op = 0x02) ∧ 5 < (headerCount h).toNat ∨
      ops.length ≠ (if op = 0x01 ∨ op = 0x08 ∨ op = 0x20 ∨ op = 0x21 ∨ op = 0x22 then 1
        else if op = 0x32 then (headerCount h).toNat else 0) ∨
      op = 0x31 ∧ headerRgn h = 2 ∨
      op = 0x32 ∧ headerRgn h = 2 ∧ (headerCount h).toNat ≠ 0 ∧ (headerCount h).toNat ≠ 2)

/-- R134: `E_NOT_PROG` is raised, while the session is `NORMAL`, by exactly the well-formed command requests and the
well-formed region requests with `COUNT ≥ 1`, among the requests of the host port. -/
def Obligations.NotProgExactly : Prop :=
  ∀ (i : Instr) (op : Nat) (s t : State), portOp i = some op → exec i s = .next t →
    (t.lastResult = .eNotProg ↔
      s.session = .normal ∧ WellFormed s.params i = true ∧
        (0x20 ≤ op ∧ op ≤ 0x29 ∨ ∃ n ops, regionForm i = some (n, ops) ∧ 1 ≤ n.toNat))

/-- The one result of every instruction, in the order of the checks (60_exceptions.md section 3; for the wire units, log
entries 1 and 2); an instruction that reaches execution ends in `OK` or `ABORTED`, and only a region request ends in
`ABORTED`. -/
def Obligations.PriorityOfOutcomes : Prop :=
  ∀ (i : Instr) (s : State), ∃ t, exec i s = .next t ∧
    (WellFormed s.params i = false → t.lastResult = .eBadArg) ∧
    (WellFormed s.params i = true →
      ((∃ n ops, regionForm i = some (n, ops) ∧ n.toNat = 0) → t.lastResult = .ok) ∧
      (s.session = .normal → ((commandForm i).isSome ∨ ∃ n ops, regionForm i = some (n, ops) ∧ 1 ≤ n.toNat) →
        t.lastResult = .eNotProg) ∧
      (s.session = .prog → t.lastResult = .ok ∨ t.lastResult = .aborted ∧ ∃ n ops, regionForm i = some (n, ops)) ∧
      ((commandForm i).isNone → regionForm i = none → t.lastResult = .ok))

/-- A message refused with a fault has emitted no line event and changed nothing but `last_result`, `fault_seen` and the
port (60_exceptions.md section 3, which says so of requests). That a wire command is a message of its own, refused and
answered like a request, is the model's choice (log entry 1); the record of responses is its own field (log entry 6). -/
def Obligations.RefusalsArePrecise : Prop :=
  ∀ (m : Message) (s t : State), perform m s = .next t → t.lastResult.isFault = true →
    t = refusedWith t.lastResult s ∧ t.busy = false

/-- `fault_seen` is set by a fault, kept by every other result, and cleared by block reset (10_state.md section 6, which
says so of requests). That a wire command and the key, as messages of their own, complete with a result that writes
`fault_seen` as a request's does is the model's choice (log entries 1 and 2). -/
def Obligations.FaultSeenIsSticky : Prop :=
  (∀ (m : Message) (s t : State), perform m s = .next t →
    t.faultSeen = (s.faultSeen || decide (t.lastResult = .eBadOp ∨ t.lastResult = .eBadArg ∨ t.lastResult = .eNotProg))) ∧
  ∀ s : State, (blockReset s).faultSeen = false

/-! ### Who writes what -/

/-- R17: the only writes of `session` by a request of the host port, and by block reset. -/
def Obligations.SessionWritesOnly : Prop :=
  (∀ (i : Instr) (op : Nat) (s t : State), portOp i = some op → exec i s = .next t →
    t.session = if i = .enterProg [] then .prog
      else if i = .exitProg [] ∨ i = .resetTarget [] then .normal else s.session) ∧
  (∀ s : State, (blockReset s).session = .normal)

/-- R18: of the requests of the host port only the mode-control requests change MCLR; block reset drives it to 1. -/
def Obligations.MclrChangedByModeControlOnly : Prop :=
  (∀ (i : Instr) (op : Nat) (s t : State), portOp i = some op → exec i s = .next t →
    i ≠ .enterProg [] → i ≠ .exitProg [] → i ≠ .resetTarget [] → t.lines.mclr = s.lines.mclr) ∧
  (∀ s : State, (blockReset s).lines.mclr = true)

/-- The frame every instruction shares: the parameters and what else waits at the port are as before, only SET_TIMING
writes a timing register, the trace and the responses only grow, and no request is left in flight. A command, handed in
by the host or as a unit of the wire, leaves the session and MCLR (log entry 1); the key as a unit is the entry, and
leaves `PROG` and MCLR at 0 (log entry 2). -/
def Obligations.CommonFrame : Prop :=
  ∀ (i : Instr) (s t : State), exec i s = .next t →
    t.params = s.params ∧ t.inbox = s.inbox ∧ t.busy = false ∧
    ((∀ idx ops, i ≠ .setTiming idx ops) → t.timing = s.timing) ∧
    (∃ new, t.trace = s.trace ++ new) ∧ (∃ r, t.responses = r :: s.responses) ∧
    ((commandForm i).isSome → t.session = s.session ∧ t.lines.mclr = s.lines.mclr) ∧
    (i = .icspKey → t.session = .prog ∧ t.lines.mclr = false)

/-- The cursor shadow is never read but by the status word and its own next value: two states that differ in it alone
make the same trace, the same data words, and the same everything else (10_state.md section 4). That a wire command and
the key, as messages of their own, add one response is the model's choice (log entries 1 and 2); the record of responses
is its own field (log entry 6). -/
def Obligations.CursorShadowNeverRead : Prop :=
  ∀ (i : Instr) (s t : State) (k : Cursor), exec i s = .next t →
    ∃ (k' : Cursor) (st st' : Word) (data : List Word),
      t.responses = ⟨st, data⟩ :: s.responses ∧
      exec i { s with cursor := k } = .next { t with cursor := k', responses := ⟨st', data⟩ :: s.responses }

/-! ### The whole machine -/

/-- The machine after reset meets the invariant. -/
def Obligations.ResetMeetsInvariant : Prop := Inv State.reset

/-- Every step keeps the invariant: legal parameters, idle lines between requests, MCLR at 0 exactly in `PROG`, a valid
shadow only in `PROG`, a recorded fault kept, no request in flight, and a well-formed environment with canonical target
memories. -/
def Obligations.StepKeepsInvariant : Prop :=
  ∀ s t : State, Inv s → step s = .next t → Inv t

/-- In the trace of every instruction that starts on idle lines, DATA changes only while CLK is 0, at least `T_EDGE` after
the falling edge before it and at least `T_EDGE` before the rising edge after it; direction switches only while CLK is
0, at least `T_EDGE` before a rising edge; and the lines are idle again at its end (40_transport.md section 1). -/
def Obligations.EdgeHoldsOfEveryTrace : Prop :=
  ∀ (i : Instr) (s t : State), LinesIdle s.lines → exec i s = .next t →
    ∃ new, t.trace = s.trace ++ new ∧ LinesIdle t.lines ∧
      edgesHeld s.timing.tEdge.toNat false s.timing.tEdge.toNat s.timing.tEdge.toNat new = true

/-- R159: the CLK pulses of every request of the host port that ends with `OK`, for the parameter values of R7. -/
def Obligations.PulseCounts : Prop :=
  ∀ (i : Instr) (op : Nat) (s t : State) (new : List TraceItem), R7Values s.params → portOp i = some op →
    exec i s = .next t → t.lastResult = .ok → t.trace = s.trace ++ new →
    pulses new =
      match i with
      | .sendBits n _ => n.toNat
      | .recvBits n _ => n.toNat
      | .enterProg _ => 33
      | .cmdLoadConfig _ => 22
      | .cmdLoadDataPm _ => 22
      | .cmdLoadDataDm _ => 22
      | .cmdReadDataPm _ => 22
      | .cmdReadDataDm _ => 22
      | .cmdIncrementAddress _ => 6
      | .cmdResetAddress _ => 6
      | .cmdBeginIntProg _ => 6
      | .cmdBulkErasePm _ => 6
      | .cmdBulkEraseDm _ => 6
      | .readRegion .cfg n _ => if n.toNat = 0 then 0 else 22 + 28 * n.toNat
      | .readRegion _ n _ => if n.toNat = 0 then 0 else 6 + 28 * n.toNat
      | .eraseRegionPm n _ => if n.toNat = 0 then 0 else 28
      | .eraseRegionDm n _ => if n.toNat = 0 then 0 else 6
      | .writeRegionPm n _ => if n.toNat = 0 then 0 else 34 + 28 * n.toNat + 6 * ((n.toNat + 15) / 16)
      | .writeRegionDm n _ => if n.toNat = 0 then 0 else 12 + 34 * n.toNat
      | .writeRegionCfg n _ => if n.toNat = 0 then 0 else 132
      | _ => 0

/-- R160: the least duration, in ns, of what each request that ends with `OK` adds to the trace, and the figures at the
reset values of the timing registers; the region figures are those of the parameter values of R7. The wire commands,
whose completion is the model's choice (log entry 1), are left to the statement about the timed ones. -/
def Obligations.MinimumDurations : Prop :=
  ∀ (i : Instr) (op : Nat) (s t : State) (new : List TraceItem), portOp i = some op → exec i s = .next t →
    t.lastResult = .ok → t.trace = s.trace ++ new →
    (∀ n ops, i = .sendBits n ops → minDuration new = 3 * n.toNat * s.timing.tEdge.toNat) ∧
    (∀ n ops, i = .recvBits n ops → minDuration new = (2 * n.toNat + 1) * s.timing.tEdge.toNat) ∧
    (∀ c p, commandForm i = some (c, p) →
      minDuration new =
        (match cmdClass c with
          | .none => 18 * s.timing.tEdge.toNat +
              (if c = .beginIntProg ∨ c = .bulkErasePm ∨ c = .bulkEraseDm then max s.timing.tCmd.toNat s.timing.tProg.toNat
                else s.timing.tCmd.toNat)
          | .out => 66 * s.timing.tEdge.toNat + 2 * s.timing.tCmd.toNat
          | .inp => 51 * s.timing.tEdge.toNat + 2 * s.timing.tCmd.toNat)) ∧
    (i = .enterProg [] →
      minDuration new = 3 * s.timing.tMclr.toNat + 99 * s.timing.tEdge.toNat + s.timing.tKey.toNat) ∧
    (i = .resetTarget [] → minDuration new = 2 * s.timing.tRst.toNat) ∧
    (s.timing = Timing.reset →
      (∀ c p, commandForm i = some (c, p) →
        minDuration new =
          (match cmdClass c with
            | .none => if c = .beginIntProg ∨ c = .bulkErasePm ∨ c = .bulkEraseDm then 5001800 else 2800
            | .out => 8600
            | .inp => 7100)) ∧
      (i = .enterProg [] → minDuration new = 40009900) ∧
      (i = .resetTarget [] → minDuration new = 1000000000) ∧
      (∀ n, i = .readRegion .pm n [] → n.toNat ≠ 0 → minDuration new = 2800 + 9900 * n.toNat) ∧
      (R7Values s.params → (∃ ws, i = .writeRegionPm 4 ws) → minDuration new = 10060600) ∧
      (R7Values s.params → (∃ ws, i = .writeRegionCfg 2 ws) → minDuration new = 10054600))

/-- The trace of Begin Internally Timed Programming, Bulk Erase Program Memory or Bulk Erase Data Memory ends with its
settle, which is at least `T_PROG` and at least `T_CMD`; no line event follows the opcode (20_memory.md section 4,
42_commands.md; for the wire commands, log entry 1). -/
def Obligations.TimedCommandsEndWithTheirSettle : Prop :=
  ∀ (i : Instr) (c : Cmd) (p : Payload) (s : State), commandForm i = some (c, p) →
    (c = .beginIntProg ∨ c = .bulkErasePm ∨ c = .bulkEraseDm) → s.session = .prog →
    ∃ (t : State) (ns : Nat), exec i s = .next t ∧
      t.trace = s.trace ++ (List.range 6).flatMap (fun k => bitItems s.timing.tEdge.toNat ((s.params.opc c).getLsbD k)) ++
        [.wait ns] ∧
      s.timing.tProg.toNat ≤ ns ∧ s.timing.tCmd.toNat ≤ ns

/-- The least wait that R26 asks of a platform for `Wait(T)`: it is at least the wait asked for, a whole number of the
platform's resolution, and less than one resolution longer (10_state.md section 5). A platform may wait longer: R26 says
"at least", and R11 gives no upper bound. That `platformWait` is exactly that least wait, and that a resolution of 0
stands for an exact wait, are the model's choices (log entry 16). -/
def Obligations.PlatformWaitsRoundUp : Prop :=
  ∀ res t : Nat, t ≤ platformWait res t ∧ (1 ≤ res → res ∣ platformWait res t ∧ platformWait res t < t + res)

/-- The groups of `n` words (43_memory_access.md section 2), read off in order, are the words `0` to `n - 1`, each group
of 1 to `GROUP` of them and beginning at a multiple of `GROUP`. -/
def Obligations.GroupsCoverEveryWord : Prop :=
  ∀ size n : Nat, 1 ≤ size → (groups size n).flatMap (fun g => (List.range g.2).map (g.1 + ·)) = List.range n ∧
    ∀ g ∈ groups size n, 1 ≤ g.2 ∧ g.2 ≤ size ∧ g.1 % size = 0

/-! ### Block reset -/

/-- R34: the value of every element at reset. -/
def Obligations.ResetValues : Prop :=
  State.reset.session = .normal ∧ State.reset.lines = ⟨true, false, false, .out⟩ ∧
  State.reset.cursor = ⟨false, .main, 0⟩ ∧ State.reset.timing = ⟨100, 1000, 5000000, 10000000, 10000000, 500000000⟩ ∧
  State.reset.lastResult = .ok ∧ State.reset.faultSeen = false ∧ State.reset.busy = false

/-- Block reset puts every element of the block at its reset value and emits its four events, with no wait between them
(70_reset_and_hazards.md section 1). That the port, its records, the parameters and the scripted levels stay is the
model's reading (log entries 6 and 19). -/
def Obligations.BlockResetEffect : Prop :=
  ∀ (s : State) (rest : List Input), s.busy = false → s.inbox = .reset :: rest →
    ∃ t, step s = .next t ∧ t.session = .normal ∧ t.lines = ⟨true, false, false, .out⟩ ∧ t.cursor = ⟨false, .main, 0⟩ ∧
      t.timing = ⟨100, 1000, 5000000, 10000000, 10000000, 500000000⟩ ∧ t.lastResult = .ok ∧ t.faultSeen = false ∧
      t.busy = false ∧
      t.trace = s.trace ++
        [.event (.clk false), .event (.dir .out), .event (.dat false), .event (.mclr true)] ∧
      t.inbox = rest ∧ t.params = s.params ∧ t.responses = s.responses ∧ t.draws = s.draws

/-- A request that block reset cuts off gets no response; the reset events follow the last event of its first `k` trace
items at once; the block is at its reset values; and a reference target it met is desynchronised, or freed: every
sample is a draw, until the recovery (70_reset_and_hazards.md section 1; how the cut is given is the model's choice, log
entry 12). -/
def Obligations.ResetAbandonsRequest : Prop :=
  ∀ (s full : State) (m : Message) (k : Nat) (rest : List Input), s.busy = false →
    s.inbox = .messageThenReset m k :: rest → perform m (accept rest s) = .next full →
    ∃ (t : State) (items done waits : List TraceItem), step s = .next t ∧
      full.trace = s.trace ++ items ∧ items.take k = done ++ waits ∧ (∀ x ∈ waits, ∃ ns, x = .wait ns) ∧
      (∀ ns, done.getLast? ≠ some (.wait ns)) ∧
      t.trace = s.trace ++ done ++
        [.event (.clk false), .event (.dir .out), .event (.dat false), .event (.mclr true)] ∧
      t.responses = s.responses ∧ t.inbox = rest ∧ t.draws.bits = [] ∧ t.draws.aborts = [] ∧
      (t.env = .oracle ∨ ∃ t0, t.env = .desync t0 false false) ∧
      t.session = .normal ∧ t.lines = ⟨true, false, false, .out⟩ ∧ t.cursor = ⟨false, .main, 0⟩ ∧
      t.timing = ⟨100, 1000, 5000000, 10000000, 10000000, 500000000⟩ ∧ t.lastResult = .ok ∧ t.faultSeen = false ∧
      t.busy = false

/-! ### The reference target -/

/-- The block and the reference target agree bit by bit: whatever the distinct opcode values are, the waveform of a
command, sampled by the target at each falling edge (R54, R55), makes the target do what the command means (R56 to R61),
and leaves it ready for the next command. It speaks of every command request and every wire command (20_memory.md
section 5; that this environment can be attached is the model's choice, log entry 13; `raw`, which a command clears, is
the model's own record of raw requests, log entry 22; for the wire commands, log entry 1). -/
def Obligations.ReferenceTargetObeysCommands : Prop :=
  ∀ (i : Instr) (c : Cmd) (p : Payload) (s : State) (t0 : RefTarget),
    commandForm i = some (c, p) → s.session = .prog → TargetReady t0 s →
    ∃ t, exec i s = .next t ∧ TargetReady (targetCommand c p { t0 with raw := false }) t

/-- Against the reference target a read command returns the read word of the addressed word's frame, takes no draw and
leaves the target as it was, but for the model's own record of raw requests (20_memory.md sections 3 and 5; log entries
13 and 22; for the wire commands, log entry 1). -/
def Obligations.ReferenceTargetReadsBack : Prop :=
  ∀ (i : Instr) (c : Cmd) (p : Payload) (s : State) (t0 : RefTarget) (w : Payload),
    commandForm i = some (c, p) → cmdClass c = .inp → s.session = .prog → TargetReady t0 s → targetRead c t0 = some w →
    ∃ (t : State) (st : Word), exec i s = .next t ∧ t.responses = ⟨st, [readWord (frameOf w)]⟩ :: s.responses ∧
      t.env = .reference { t0 with raw := false } ∧ t.draws = s.draws

/-- ENTER_PROG brings an attached reference target, where raw requests left no part unit in it, to programming mode, at
the start of the main space with nothing latched and its memories as they were. A desynchronised one it brings back where
RESET_TARGET went before it, and nowhere else; and a command that comes after raw requests left part of an opcode or of a
frame leaves no target that fixes a sample (20_memory.md section 5, 70_reset_and_hazards.md section 1). The
desynchronised target and what counts as a part unit are the model's (log entries 12, 13 and 22); that the settle `due`
runs down by the waits and is not reset by the change of mode is its choice (log entry 21), as are the wire commands that
the last clause takes in (log entry 1). -/
def Obligations.EnterProgReachesTarget : Prop :=
  (∀ (s : State) (t0 : RefTarget) (held : Bool), belowFloor s.timing = false → LinesIdle s.lines → R7Values s.params →
    (s.env = .reference t0 ∧ partUnit t0 = false ∨ s.env = .desync t0 held true) →
    ∃ t, exec (.enterProg []) s = .next t ∧
      t.env = .reference { t0 with
        rmode := .lvp, rspace := .main, roff := 0, latchMain := [], latchCfg := [], latchD := [], rx := .unit []
        due := t0.due - (3 * s.timing.tMclr.toNat + 99 * s.timing.tEdge.toNat + s.timing.tKey.toNat)
        raw := false, stray := 0 }) ∧
  (∀ (s : State) (t0 : RefTarget) (held restarted : Bool), belowFloor s.timing = false →
    s.env = .desync t0 held restarted →
    ∃ t t1, exec (.resetTarget []) s = .next t ∧ t.env = .desync t1 false true ∧
      t1.pm = t0.pm ∧ t1.cfg = t0.cfg ∧ t1.dm = t0.dm) ∧
  (∀ (s : State) (t0 : RefTarget), belowFloor s.timing = false → LinesIdle s.lines →
    s.env = .desync t0 false false →
    ∃ t t1, exec (.enterProg []) s = .next t ∧ t.env = .desync t1 false false) ∧
  ∀ (i : Instr) (c : Cmd) (p : Payload) (s : State) (t0 : RefTarget),
    commandForm i = some (c, p) → s.session = .prog → s.env = .reference t0 → t0.raw = true →
    ((∃ b bs, t0.rx = .unit (b :: bs)) ∨ (∃ c' b bs, t0.rx = .frame c' (b :: bs)) ∨
      (∃ f j, t0.rx = .drive f (j + 1)) ∨ t0.stray ≠ 0) →
    ∃ t, exec i s = .next t ∧ ∀ t1, t.env ≠ .reference t1

/-- Below a timing floor nothing is claimed of the target: any line event made then leaves every later sample to the
oracle (20_memory.md section 5, 70_reset_and_hazards.md section 3; log entry 13). -/
def Obligations.BelowFloorFreesTarget : Prop :=
  ∀ (i : Instr) (s t : State) (new : List TraceItem) (e : Event), belowFloor s.timing = true → exec i s = .next t →
    t.trace = s.trace ++ new → .event e ∈ new → t.env = .oracle

/-- The target memories: a canonical memory stays canonical under a write, and a read after a write gives the written word
at its offset and what it gave before everywhere else; losing a word is writing that nothing is known of it (20_memory.md
section 5; the form of the memories is the model's choice, log entry 14). -/
def Obligations.TargetMemoryLaws : Prop :=
  ∀ (m : Memory) (x : Nat) (v : Option Payload), m.wf = true →
    (memWrite m x v).wf = true ∧ ∀ y, memRead (memWrite m x v) y = if y = x then v else memRead m y

/-- A wire command does what the host's request for the same command does (42_commands.md; that it is answered like one is
the model's choice, log entry 1). -/
def Obligations.WireCommandIsItsRequest : Prop :=
  ∀ (p : Payload) (w : Word) (s : State), w.extractLsb' 0 14 = p →
    exec (.icspLoadConfiguration p) s = exec (.cmdLoadConfig [w]) s ∧
    exec (.icspLoadDataProgramMemory p) s = exec (.cmdLoadDataPm [w]) s ∧
    exec (.icspLoadDataDataMemory p) s = exec (.cmdLoadDataDm [w]) s ∧
    exec .icspReadDataProgramMemory s = exec (.cmdReadDataPm []) s ∧
    exec .icspReadDataDataMemory s = exec (.cmdReadDataDm []) s ∧
    exec .icspIncrementAddress s = exec (.cmdIncrementAddress []) s ∧
    exec .icspResetAddress s = exec (.cmdResetAddress []) s ∧
    exec .icspBeginInternallyTimedProgramming s = exec (.cmdBeginIntProg []) s ∧
    exec .icspBulkEraseProgramMemory s = exec (.cmdBulkErasePm []) s ∧
    exec .icspBulkEraseDataMemory s = exec (.cmdBulkEraseDm []) s
end

