-- ==== Sys2Proof/Laws/State.lean ====
section
/-! SUPPORT. What each update of the state does to each field, true by unfolding, so that no later proof unfolds a record
update. -/

namespace Sys2Proof.Machine

@[simp] theorem two_pow_wOpc : 2 ^ Config.wOpc = 64 := rfl
@[simp] theorem two_pow_wFrame : 2 ^ Config.wFrame = 65536 := rfl
@[simp] theorem two_pow_wWord : 2 ^ Config.wWord = 16384 := rfl
@[simp] theorem two_pow_wCur : 2 ^ Config.wCur = 65536 := rfl

@[simp] theorem emit_params (e : Event) (s : State) : (emit e s).params = s.params := rfl
@[simp] theorem emit_session (e : Event) (s : State) : (emit e s).session = s.session := rfl
@[simp] theorem emit_lines (e : Event) (s : State) : (emit e s).lines = s.lines.apply e := rfl
@[simp] theorem emit_cursor (e : Event) (s : State) : (emit e s).cursor = s.cursor := rfl
@[simp] theorem emit_timing (e : Event) (s : State) : (emit e s).timing = s.timing := rfl
@[simp] theorem emit_lastResult (e : Event) (s : State) : (emit e s).lastResult = s.lastResult := rfl
@[simp] theorem emit_faultSeen (e : Event) (s : State) : (emit e s).faultSeen = s.faultSeen := rfl
@[simp] theorem emit_busy (e : Event) (s : State) : (emit e s).busy = s.busy := rfl
@[simp] theorem emit_inbox (e : Event) (s : State) : (emit e s).inbox = s.inbox := rfl
@[simp] theorem emit_traceRev (e : Event) (s : State) : (emit e s).traceRev = .event e :: s.traceRev := rfl
@[simp] theorem emit_responses (e : Event) (s : State) : (emit e s).responses = s.responses := rfl
@[simp] theorem emit_env (e : Event) (s : State) : (emit e s).env = envObserve s.params s.timing s.lines e s.env := rfl
@[simp] theorem emit_draws (e : Event) (s : State) : (emit e s).draws = s.draws := rfl

@[simp] theorem wait_params (t : Word) (s : State) : (wait t s).params = s.params := rfl
@[simp] theorem wait_session (t : Word) (s : State) : (wait t s).session = s.session := rfl
@[simp] theorem wait_lines (t : Word) (s : State) : (wait t s).lines = s.lines := rfl
@[simp] theorem wait_cursor (t : Word) (s : State) : (wait t s).cursor = s.cursor := rfl
@[simp] theorem wait_timing (t : Word) (s : State) : (wait t s).timing = s.timing := rfl
@[simp] theorem wait_lastResult (t : Word) (s : State) : (wait t s).lastResult = s.lastResult := rfl
@[simp] theorem wait_faultSeen (t : Word) (s : State) : (wait t s).faultSeen = s.faultSeen := rfl
@[simp] theorem wait_busy (t : Word) (s : State) : (wait t s).busy = s.busy := rfl
@[simp] theorem wait_inbox (t : Word) (s : State) : (wait t s).inbox = s.inbox := rfl
@[simp] theorem wait_traceRev (t : Word) (s : State) : (wait t s).traceRev = .wait t.toNat :: s.traceRev := rfl
@[simp] theorem wait_responses (t : Word) (s : State) : (wait t s).responses = s.responses := rfl
@[simp] theorem wait_env (t : Word) (s : State) : (wait t s).env = envWait t.toNat s.env := rfl
@[simp] theorem wait_draws (t : Word) (s : State) : (wait t s).draws = s.draws := rfl

@[simp] theorem invalidateCursor_params (s : State) : (invalidateCursor s).params = s.params := rfl
@[simp] theorem invalidateCursor_session (s : State) : (invalidateCursor s).session = s.session := rfl
@[simp] theorem invalidateCursor_lines (s : State) : (invalidateCursor s).lines = s.lines := rfl
@[simp] theorem invalidateCursor_cursor (s : State) : (invalidateCursor s).cursor = { s.cursor with valid := false } := rfl
@[simp] theorem invalidateCursor_timing (s : State) : (invalidateCursor s).timing = s.timing := rfl
@[simp] theorem invalidateCursor_lastResult (s : State) : (invalidateCursor s).lastResult = s.lastResult := rfl
@[simp] theorem invalidateCursor_faultSeen (s : State) : (invalidateCursor s).faultSeen = s.faultSeen := rfl
@[simp] theorem invalidateCursor_busy (s : State) : (invalidateCursor s).busy = s.busy := rfl
@[simp] theorem invalidateCursor_inbox (s : State) : (invalidateCursor s).inbox = s.inbox := rfl
@[simp] theorem invalidateCursor_traceRev (s : State) : (invalidateCursor s).traceRev = s.traceRev := rfl
@[simp] theorem invalidateCursor_responses (s : State) : (invalidateCursor s).responses = s.responses := rfl
@[simp] theorem invalidateCursor_env (s : State) : (invalidateCursor s).env = s.env := rfl
@[simp] theorem invalidateCursor_draws (s : State) : (invalidateCursor s).draws = s.draws := rfl

@[simp] theorem enterSession_params (m : Session) (s : State) : (enterSession m s).params = s.params := rfl
@[simp] theorem enterSession_session (m : Session) (s : State) : (enterSession m s).session = m := rfl
@[simp] theorem enterSession_lines (m : Session) (s : State) : (enterSession m s).lines = s.lines := rfl
@[simp] theorem enterSession_cursor (m : Session) (s : State) : (enterSession m s).cursor = cursorCleared := rfl
@[simp] theorem enterSession_timing (m : Session) (s : State) : (enterSession m s).timing = s.timing := rfl
@[simp] theorem enterSession_lastResult (m : Session) (s : State) : (enterSession m s).lastResult = s.lastResult := rfl
@[simp] theorem enterSession_faultSeen (m : Session) (s : State) : (enterSession m s).faultSeen = s.faultSeen := rfl
@[simp] theorem enterSession_busy (m : Session) (s : State) : (enterSession m s).busy = s.busy := rfl
@[simp] theorem enterSession_inbox (m : Session) (s : State) : (enterSession m s).inbox = s.inbox := rfl
@[simp] theorem enterSession_traceRev (m : Session) (s : State) : (enterSession m s).traceRev = s.traceRev := rfl
@[simp] theorem enterSession_responses (m : Session) (s : State) : (enterSession m s).responses = s.responses := rfl
@[simp] theorem enterSession_env (m : Session) (s : State) : (enterSession m s).env = s.env := rfl
@[simp] theorem enterSession_draws (m : Session) (s : State) : (enterSession m s).draws = s.draws := rfl

@[simp] theorem arriveRaw_params (s : State) : (arriveRaw s).params = s.params := rfl
@[simp] theorem arriveRaw_session (s : State) : (arriveRaw s).session = s.session := rfl
@[simp] theorem arriveRaw_lines (s : State) : (arriveRaw s).lines = s.lines := rfl
@[simp] theorem arriveRaw_cursor (s : State) : (arriveRaw s).cursor = s.cursor := rfl
@[simp] theorem arriveRaw_timing (s : State) : (arriveRaw s).timing = s.timing := rfl
@[simp] theorem arriveRaw_lastResult (s : State) : (arriveRaw s).lastResult = s.lastResult := rfl
@[simp] theorem arriveRaw_faultSeen (s : State) : (arriveRaw s).faultSeen = s.faultSeen := rfl
@[simp] theorem arriveRaw_busy (s : State) : (arriveRaw s).busy = s.busy := rfl
@[simp] theorem arriveRaw_inbox (s : State) : (arriveRaw s).inbox = s.inbox := rfl
@[simp] theorem arriveRaw_traceRev (s : State) : (arriveRaw s).traceRev = s.traceRev := rfl
@[simp] theorem arriveRaw_responses (s : State) : (arriveRaw s).responses = s.responses := rfl
@[simp] theorem arriveRaw_env (s : State) : (arriveRaw s).env = envRaw s.env := rfl
@[simp] theorem arriveRaw_draws (s : State) : (arriveRaw s).draws = s.draws := rfl

@[simp] theorem arrive_params (s : State) : (arrive s).params = s.params := rfl
@[simp] theorem arrive_session (s : State) : (arrive s).session = s.session := rfl
@[simp] theorem arrive_lines (s : State) : (arrive s).lines = s.lines := rfl
@[simp] theorem arrive_cursor (s : State) : (arrive s).cursor = s.cursor := rfl
@[simp] theorem arrive_timing (s : State) : (arrive s).timing = s.timing := rfl
@[simp] theorem arrive_lastResult (s : State) : (arrive s).lastResult = s.lastResult := rfl
@[simp] theorem arrive_faultSeen (s : State) : (arrive s).faultSeen = s.faultSeen := rfl
@[simp] theorem arrive_busy (s : State) : (arrive s).busy = s.busy := rfl
@[simp] theorem arrive_inbox (s : State) : (arrive s).inbox = s.inbox := rfl
@[simp] theorem arrive_traceRev (s : State) : (arrive s).traceRev = s.traceRev := rfl
@[simp] theorem arrive_responses (s : State) : (arrive s).responses = s.responses := rfl
@[simp] theorem arrive_env (s : State) : (arrive s).env = envCommand s.env := rfl
@[simp] theorem arrive_draws (s : State) : (arrive s).draws = s.draws := rfl

@[simp] theorem complete_params (r : Result) (data : List Word) (s : State) : (complete r data s).params = s.params := rfl
@[simp] theorem complete_session (r : Result) (data : List Word) (s : State) : (complete r data s).session = s.session := rfl
@[simp] theorem complete_lines (r : Result) (data : List Word) (s : State) : (complete r data s).lines = s.lines := rfl
@[simp] theorem complete_cursor (r : Result) (data : List Word) (s : State) : (complete r data s).cursor = s.cursor := rfl
@[simp] theorem complete_timing (r : Result) (data : List Word) (s : State) : (complete r data s).timing = s.timing := rfl
@[simp] theorem complete_lastResult (r : Result) (data : List Word) (s : State) : (complete r data s).lastResult = r := rfl
@[simp] theorem complete_faultSeen (r : Result) (data : List Word) (s : State) : (complete r data s).faultSeen = s.faultSeen := rfl
@[simp] theorem complete_busy (r : Result) (data : List Word) (s : State) : (complete r data s).busy = false := rfl
@[simp] theorem complete_inbox (r : Result) (data : List Word) (s : State) : (complete r data s).inbox = s.inbox := rfl
@[simp] theorem complete_traceRev (r : Result) (data : List Word) (s : State) : (complete r data s).traceRev = s.traceRev := rfl
@[simp] theorem complete_env (r : Result) (data : List Word) (s : State) : (complete r data s).env = s.env := rfl
@[simp] theorem complete_draws (r : Result) (data : List Word) (s : State) : (complete r data s).draws = s.draws := rfl

@[simp] theorem refuse_params (r : Result) (s : State) : (refuse r s).params = s.params := rfl
@[simp] theorem refuse_session (r : Result) (s : State) : (refuse r s).session = s.session := rfl
@[simp] theorem refuse_lines (r : Result) (s : State) : (refuse r s).lines = s.lines := rfl
@[simp] theorem refuse_cursor (r : Result) (s : State) : (refuse r s).cursor = s.cursor := rfl
@[simp] theorem refuse_timing (r : Result) (s : State) : (refuse r s).timing = s.timing := rfl
@[simp] theorem refuse_lastResult (r : Result) (s : State) : (refuse r s).lastResult = r := rfl
@[simp] theorem refuse_faultSeen (r : Result) (s : State) : (refuse r s).faultSeen = true := rfl
@[simp] theorem refuse_busy (r : Result) (s : State) : (refuse r s).busy = false := rfl
@[simp] theorem refuse_inbox (r : Result) (s : State) : (refuse r s).inbox = s.inbox := rfl
@[simp] theorem refuse_traceRev (r : Result) (s : State) : (refuse r s).traceRev = s.traceRev := rfl
@[simp] theorem refuse_env (r : Result) (s : State) : (refuse r s).env = s.env := rfl
@[simp] theorem refuse_draws (r : Result) (s : State) : (refuse r s).draws = s.draws := rfl

@[simp] theorem accept_params (rest : List Input) (s : State) : (accept rest s).params = s.params := rfl
@[simp] theorem accept_session (rest : List Input) (s : State) : (accept rest s).session = s.session := rfl
@[simp] theorem accept_lines (rest : List Input) (s : State) : (accept rest s).lines = s.lines := rfl
@[simp] theorem accept_cursor (rest : List Input) (s : State) : (accept rest s).cursor = s.cursor := rfl
@[simp] theorem accept_timing (rest : List Input) (s : State) : (accept rest s).timing = s.timing := rfl
@[simp] theorem accept_lastResult (rest : List Input) (s : State) : (accept rest s).lastResult = s.lastResult := rfl
@[simp] theorem accept_faultSeen (rest : List Input) (s : State) : (accept rest s).faultSeen = s.faultSeen := rfl
@[simp] theorem accept_busy (rest : List Input) (s : State) : (accept rest s).busy = true := rfl
@[simp] theorem accept_inbox (rest : List Input) (s : State) : (accept rest s).inbox = rest := rfl
@[simp] theorem accept_traceRev (rest : List Input) (s : State) : (accept rest s).traceRev = s.traceRev := rfl
@[simp] theorem accept_responses (rest : List Input) (s : State) : (accept rest s).responses = s.responses := rfl
@[simp] theorem accept_env (rest : List Input) (s : State) : (accept rest s).env = s.env := rfl
@[simp] theorem accept_draws (rest : List Input) (s : State) : (accept rest s).draws = s.draws := rfl

@[simp] theorem played_params (items : List TraceItem) (s : State) : (played items s).params = s.params := rfl
@[simp] theorem played_session (items : List TraceItem) (s : State) : (played items s).session = s.session := rfl
@[simp] theorem played_lines (items : List TraceItem) (s : State) : (played items s).lines = linesAfter s.lines items := rfl
@[simp] theorem played_cursor (items : List TraceItem) (s : State) : (played items s).cursor = s.cursor := rfl
@[simp] theorem played_timing (items : List TraceItem) (s : State) : (played items s).timing = s.timing := rfl
@[simp] theorem played_lastResult (items : List TraceItem) (s : State) : (played items s).lastResult = s.lastResult := rfl
@[simp] theorem played_faultSeen (items : List TraceItem) (s : State) : (played items s).faultSeen = s.faultSeen := rfl
@[simp] theorem played_busy (items : List TraceItem) (s : State) : (played items s).busy = s.busy := rfl
@[simp] theorem played_inbox (items : List TraceItem) (s : State) : (played items s).inbox = s.inbox := rfl
@[simp] theorem played_traceRev (items : List TraceItem) (s : State) : (played items s).traceRev = items.reverse ++ s.traceRev := rfl
@[simp] theorem played_responses (items : List TraceItem) (s : State) : (played items s).responses = s.responses := rfl
@[simp] theorem played_env (items : List TraceItem) (s : State) : (played items s).env = envAfter s.params s.timing s.lines items s.env := rfl
@[simp] theorem played_draws (items : List TraceItem) (s : State) : (played items s).draws = s.draws := rfl

@[simp] theorem answered_params (r : Result) (data : List Word) (s : State) : (answered r data s).params = s.params := rfl
@[simp] theorem answered_session (r : Result) (data : List Word) (s : State) : (answered r data s).session = s.session := rfl
@[simp] theorem answered_lines (r : Result) (data : List Word) (s : State) : (answered r data s).lines = s.lines := rfl
@[simp] theorem answered_cursor (r : Result) (data : List Word) (s : State) : (answered r data s).cursor = s.cursor := rfl
@[simp] theorem answered_timing (r : Result) (data : List Word) (s : State) : (answered r data s).timing = s.timing := rfl
@[simp] theorem answered_lastResult (r : Result) (data : List Word) (s : State) : (answered r data s).lastResult = r := rfl
@[simp] theorem answered_faultSeen (r : Result) (data : List Word) (s : State) : (answered r data s).faultSeen = s.faultSeen := rfl
@[simp] theorem answered_busy (r : Result) (data : List Word) (s : State) : (answered r data s).busy = false := rfl
@[simp] theorem answered_inbox (r : Result) (data : List Word) (s : State) : (answered r data s).inbox = s.inbox := rfl
@[simp] theorem answered_traceRev (r : Result) (data : List Word) (s : State) : (answered r data s).traceRev = s.traceRev := rfl
@[simp] theorem answered_env (r : Result) (data : List Word) (s : State) : (answered r data s).env = s.env := rfl
@[simp] theorem answered_draws (r : Result) (data : List Word) (s : State) : (answered r data s).draws = s.draws := rfl

@[simp] theorem refusedWith_params (r : Result) (s : State) : (refusedWith r s).params = s.params := rfl
@[simp] theorem refusedWith_session (r : Result) (s : State) : (refusedWith r s).session = s.session := rfl
@[simp] theorem refusedWith_lines (r : Result) (s : State) : (refusedWith r s).lines = s.lines := rfl
@[simp] theorem refusedWith_cursor (r : Result) (s : State) : (refusedWith r s).cursor = s.cursor := rfl
@[simp] theorem refusedWith_timing (r : Result) (s : State) : (refusedWith r s).timing = s.timing := rfl
@[simp] theorem refusedWith_lastResult (r : Result) (s : State) : (refusedWith r s).lastResult = r := rfl
@[simp] theorem refusedWith_faultSeen (r : Result) (s : State) : (refusedWith r s).faultSeen = true := rfl
@[simp] theorem refusedWith_busy (r : Result) (s : State) : (refusedWith r s).busy = false := rfl
@[simp] theorem refusedWith_inbox (r : Result) (s : State) : (refusedWith r s).inbox = s.inbox := rfl
@[simp] theorem refusedWith_traceRev (r : Result) (s : State) : (refusedWith r s).traceRev = s.traceRev := rfl
@[simp] theorem refusedWith_env (r : Result) (s : State) : (refusedWith r s).env = s.env := rfl
@[simp] theorem refusedWith_draws (r : Result) (s : State) : (refusedWith r s).draws = s.draws := rfl

@[simp] theorem blockReset_params (s : State) : (blockReset s).params = s.params := rfl
@[simp] theorem blockReset_session (s : State) : (blockReset s).session = .normal := rfl
@[simp] theorem blockReset_lines (s : State) : (blockReset s).lines = { mclr := true, clk := false, datOut := false, datDir := .out } := rfl
@[simp] theorem blockReset_cursor (s : State) : (blockReset s).cursor = cursorCleared := rfl
@[simp] theorem blockReset_timing (s : State) : (blockReset s).timing = Timing.reset := rfl
@[simp] theorem blockReset_lastResult (s : State) : (blockReset s).lastResult = .ok := rfl
@[simp] theorem blockReset_faultSeen (s : State) : (blockReset s).faultSeen = false := rfl
@[simp] theorem blockReset_busy (s : State) : (blockReset s).busy = false := rfl
@[simp] theorem blockReset_inbox (s : State) : (blockReset s).inbox = s.inbox := rfl
@[simp] theorem blockReset_traceRev (s : State) : (blockReset s).traceRev = State.reset.traceRev ++ s.traceRev := rfl
@[simp] theorem blockReset_responses (s : State) : (blockReset s).responses = s.responses := rfl
@[simp] theorem blockReset_draws (s : State) : (blockReset s).draws = s.draws := rfl

@[simp] theorem withFetchWord_inbox (s : State) (nbits w : Nat) :
    (s.withFetchWord nbits w).inbox = .message (tableMessage nbits w) :: s.inbox := rfl
@[simp] theorem withFetchWord_busy (s : State) (nbits w : Nat) : (s.withFetchWord nbits w).busy = false := rfl
@[simp] theorem withFetchWord_params (s : State) (nbits w : Nat) : (s.withFetchWord nbits w).params = s.params := rfl

/-- Completing is answering (R27, R76, R77). -/
theorem complete_eq_answered (r : Result) (data : List Word) (s : State) : complete r data s = answered r data s := rfl

/-- Refusing is being refused (R137). -/
theorem refuse_eq_refusedWith (r : Result) (s : State) : refuse r s = refusedWith r s := rfl

end Sys2Proof.Machine
end

