-- ==== Sys2Proof/Laws/Lines.lean ====
section
/-! SUPPORT. What the line operations can do, each said once: their whole effect is to play the trace the rules give
them. -/

namespace Sys2Proof.Machine

@[simp] theorem played_nil (s : State) : played [] s = s := rfl

@[simp] theorem linesAfter_append (l : Lines) (a b : List TraceItem) :
    linesAfter l (a ++ b) = linesAfter (linesAfter l a) b := by
  induction a generalizing l with
  | nil => rfl
  | cons x a ih => cases x <;> exact ih _

@[simp] theorem envAfter_append (p : Params) (τ : Timing) (l : Lines) (a b : List TraceItem) (env : Env) :
    envAfter p τ l (a ++ b) env = envAfter p τ (linesAfter l a) b (envAfter p τ l a env) := by
  induction a generalizing l env with
  | nil => rfl
  | cons x a ih => cases x <;> exact ih _ _

@[simp] theorem played_played (a b : List TraceItem) (s : State) : played b (played a s) = played (a ++ b) s := by
  simp [played]

theorem emit_eq_played (e : Event) (s : State) : emit e s = played [.event e] s := rfl

theorem wait_eq_played (t : Word) (s : State) : wait t s = played [.wait t.toNat] s := rfl

theorem sendBit_eq_played (b : Bool) (s : State) : sendBit b s = played (bitItems s.timing.tEdge.toNat b) s := rfl

theorem sendList_eq_played (bs : List Bool) (s : State) :
    sendList bs s = played (bs.flatMap (bitItems s.timing.tEdge.toNat)) s := by
  induction bs generalizing s with
  | nil => rfl
  | cons b bs ih => simp [sendList, sendBit_eq_played, ih]

/-- `SendBits(n, v)` plays its trace (R86). -/
theorem sendBits_eq_played (n v : Nat) (s : State) :
    sendBits n v s = played (sendItems s.timing.tEdge.toNat n v) s := sendList_eq_played _ s

/-- The key plays its trace (R67). -/
theorem sendKey_eq_played (s : State) : sendKey s = played (keyItems s.params s.timing.tEdge.toNat) s :=
  sendBits_eq_played _ _ s

/-- A draw changes the draws alone, not their abort levels, and nothing where the environment fixes the level. -/
theorem drawBit_eq (s : State) :
    ∃ b d, drawBit s = (b, { s with draws := d }) ∧ d.aborts = s.draws.aborts ∧
      (∀ v, envLevel s.env = some v → b = v ∧ d = s.draws) := by
  unfold drawBit
  split
  · next b h => exact ⟨b, s.draws, rfl, rfl, fun v hv => by simp_all⟩
  · next h =>
    split
    · exact ⟨_, _, rfl, rfl, fun v hv => by simp_all⟩
    · exact ⟨_, _, rfl, rfl, fun v hv => by simp_all⟩

/-- An abort point changes the draws alone. -/
theorem abortPoint_eq (s : State) : ∃ b d, abortPoint s = (b, { s with draws := d }) := by
  unfold abortPoint
  split <;> exact ⟨_, _, rfl⟩

/-- A scripted abort level is the one read. -/
theorem abortPoint_scripted (s : State) (b : Bool) (rest : List Bool) (h : s.draws.aborts = b :: rest) :
    abortPoint s = (b, { s with draws := { s.draws with aborts := rest } }) := by
  unfold abortPoint
  split <;> simp_all

/-- One received bit plays its pulse and takes a draw (R87); the level is the one the environment fixes after the rising
edge, if it fixes one. -/
theorem recvBit_eq (s : State) :
    ∃ b d, recvBit s = (b, { played (pulseItems s.timing.tEdge.toNat b) s with draws := d }) ∧
      d.aborts = s.draws.aborts ∧
      (∀ v, envLevel (envWait s.timing.tEdge.toNat (envObserve s.params s.timing s.lines (.clk true) s.env)) = some v →
        b = v ∧ d = s.draws) := by
  obtain ⟨b, d, h, ha, hv⟩ := drawBit_eq (wait s.timing.tEdge (emit (.clk true) s))
  exact ⟨b, d, by simp only [recvBit, sample, h]; rfl, ha, hv⟩

theorem recvList_eq (n : Nat) (s : State) :
    ∃ bs d, bs.length = n ∧ d.aborts = s.draws.aborts ∧
      recvList n s = (bs, { played (bs.flatMap (pulseItems s.timing.tEdge.toNat)) s with draws := d }) := by
  induction n generalizing s with
  | zero => exact ⟨[], s.draws, rfl, rfl, rfl⟩
  | succ n ih =>
    obtain ⟨b, d, h, ha, -⟩ := recvBit_eq s
    obtain ⟨bs, d', hl, ha', h'⟩ := ih { played (pulseItems s.timing.tEdge.toNat b) s with draws := d }
    refine ⟨b :: bs, d', by simp [hl], ha'.trans ha, ?_⟩
    simp only [recvList, h, h']
    simp [played]

/-- `RecvBits(n)` plays the trace of the bits it samples and takes draws, and that is all it does (R87). -/
theorem recvBits_eq (n : Nat) (s : State) :
    ∃ bs d, bs.length = n ∧ d.aborts = s.draws.aborts ∧
      recvBits n s = (bs, { played (recvItems s.timing.tEdge.toNat bs) s with draws := d }) := by
  obtain ⟨bs, d, hl, ha, h⟩ := recvList_eq n (wait s.timing.tEdge (emit (.dir .inp) s))
  refine ⟨bs, d, hl, ha, ?_⟩
  simp only [recvBits, h]
  simp [played, recvItems, linesAfter, envAfter, emit, Lines.apply, wait]

/-- The value of received bits, bit by bit (R87). -/
theorem bitsValue_testBit (bs : List Bool) (k : Nat) : (bitsValue bs).testBit k = bs.getD k false := by
  induction bs generalizing k with
  | nil => simp [bitsValue]
  | cons b bs ih =>
    cases k with
    | zero => cases b <;> simp [bitsValue, Nat.testBit_zero]
    | succ k =>
      have : (bitsValue (b :: bs)) / 2 = bitsValue bs := by
        cases b <;> simp only [bitsValue, Bool.toNat_false, Bool.toNat_true] <;> omega
      rw [Nat.testBit_succ, this, ih]; simp

/-- Nothing observable turns the oracle into a target. -/
theorem envAfter_oracle (p : Params) (τ : Timing) (l : Lines) (items : List TraceItem) :
    envAfter p τ l items .oracle = .oracle := by
  induction items generalizing l with
  | nil => rfl
  | cons x xs ih => cases x <;> exact ih _

theorem recvBit_scripted (s : State) (b : Bool) (rest : List Bool) (he : s.env = .oracle) (hb : s.draws.bits = b :: rest) :
    recvBit s = (b, { played (pulseItems s.timing.tEdge.toNat b) s with draws := { s.draws with bits := rest } }) := by
  simp [recvBit, sample, drawBit, wait, emit, he, envObserve, envWait, envLevel, hb, played, pulseItems, linesAfter, envAfter]

theorem recvList_scripted (bs : List Bool) (s : State) (rest : List Bool) (he : s.env = .oracle)
    (hb : s.draws.bits = bs ++ rest) :
    recvList bs.length s = (bs, { played (bs.flatMap (pulseItems s.timing.tEdge.toNat)) s with draws := { s.draws with bits := rest } }) := by
  induction bs generalizing s with
  | nil =>
    have : s.draws = { s.draws with bits := rest } := by
      cases h : s.draws
      simp_all
    simp only [List.length_nil, recvList, List.flatMap_nil, played_nil, ← this]
  | cons b bs ih =>
    have h1 := recvBit_scripted s b (bs ++ rest) he (by simpa using hb)
    have h2 := ih { played (pulseItems s.timing.tEdge.toNat b) s with draws := { s.draws with bits := bs ++ rest } }
      (by simp [he, envAfter_oracle]) rfl
    simp only [List.length_cons, recvList, h1, h2]
    simp [played]

/-- Against the oracle, `RecvBits` samples the scripted levels (R12, R87). -/
theorem recvBits_scripted (bs : List Bool) (s : State) (rest : List Bool) (he : s.env = .oracle)
    (hb : s.draws.bits = bs ++ rest) :
    recvBits bs.length s = (bs, { played (recvItems s.timing.tEdge.toNat bs) s with draws := { s.draws with bits := rest } }) := by
  have h := recvList_scripted bs (wait s.timing.tEdge (emit (.dir .inp) s)) rest (by simp [he, envObserve, envWait]) (by simpa using hb)
  simp only [recvBits, h]
  simp [played, recvItems, linesAfter, envAfter, emit, Lines.apply, wait]
end Sys2Proof.Machine
end

