-- ==== Sys2Proof/Laws/Commands.lean ====
section
/-! SUPPORT. What `IssueCmd` can do, said once for the commands that send and once for those that read. -/

namespace Sys2Proof.Machine

theorem frameOf_toNat (p : Payload) : (frameOf p).toNat = 2 * p.toNat := by
  have : p.toNat < 2 ^ 14 := p.isLt
  simp only [frameOf, Config.wFrame, Config.wWord, BitVec.toNat_shiftLeft, BitVec.toNat_setWidth]
  rw [Nat.shiftLeft_eq, Nat.mod_eq_of_lt (by omega : p.toNat < 2 ^ 16), Nat.mod_eq_of_lt (by omega)]
  omega

theorem opcodeWait_toNat (c : Cmd) (t : Timing) : (opcodeWait c t).toNat = settle c t := by
  unfold opcodeWait settle
  split
  · split <;> omega
  · rfl

theorem cursorAfter_eq_shadowAfter (c : Cmd) (k : Cursor) : cursorAfter c k = shadowAfter c k := by
  obtain ⟨v, sp, o⟩ := k
  cases c <;> simp [cursorAfter, shadowAfter]
  cases v <;> simp
  apply BitVec.eq_of_toNat_eq
  simp

/-- A command that sends, or only sends its opcode, plays its trace and writes the shadow (R98, R22). -/
theorem issueCmd_sends (c : Cmd) (p : Payload) (s : State) (h : cmdClass c ≠ .inp) :
    issueCmd c p s =
      (0, { played (commandItems s.params s.timing c p []) s with cursor := shadowAfter c s.cursor }) := by
  unfold issueCmd commandItems
  cases hc : cmdClass c with
  | inp => exact absurd hc h
  | none =>
    simp [sendBits_eq_played, wait_eq_played, opcodeWait_toNat, cursorAfter_eq_shadowAfter]
  | out =>
    simp [sendBits_eq_played, wait_eq_played, opcodeWait_toNat, cursorAfter_eq_shadowAfter, frameOf_toNat]

/-- `issue` of a command that sends (R98, R22). -/
theorem issue_sends (c : Cmd) (p : Payload) (s : State) (h : cmdClass c ≠ .inp) :
    issue c p s = { played (commandItems s.params s.timing c p []) s with cursor := shadowAfter c s.cursor } := by
  rw [issue, issueCmd_sends c p s h]

theorem shadowAfter_read (c : Cmd) (k : Cursor) (h : cmdClass c = .inp) : shadowAfter c k = k := by
  cases c <;> simp_all [cmdClass, shadowAfter]

/-- A command that reads plays its trace, takes draws and returns the frame it sampled (R98, R22). -/
theorem issueCmd_reads (c : Cmd) (p : Payload) (s : State) (h : cmdClass c = .inp) :
    ∃ bs d, bs.length = 16 ∧ d.aborts = s.draws.aborts ∧
      issueCmd c p s =
        (BitVec.ofNat 16 (bitsValue bs),
          { played (commandItems s.params s.timing c p bs) s with draws := d }) := by
  obtain ⟨bs, d, hl, ha, hr⟩ := recvBits_eq 16 (wait (opcodeWait c s.timing) (sendBits 6 (s.params.opc c).toNat s))
  have ht : (sendBits 6 (s.params.opc c).toNat s).timing = s.timing := by simp [sendBits_eq_played]
  refine ⟨bs, d, hl, by simpa [sendBits_eq_played] using ha, ?_⟩
  unfold issueCmd commandItems
  simp only [ht, h, hr, cursorAfter_eq_shadowAfter, shadowAfter_read c _ h]
  simp [sendBits_eq_played, wait_eq_played, opcodeWait_toNat, played, linesAfter, envAfter]

end Sys2Proof.Machine
end

