-- ==== Sys2Proof/Laws/Encoding.lean ====
section
/-! SUPPORT. The fields of a header, a frame and a read word, and the opcode table's inverse. -/

namespace Sys2Proof

@[simp] theorem headerOp_mkHeader (op : BitVec 8) (rgn : BitVec 2) (n : BitVec 6) (c : BitVec 16) :
    headerOp (mkHeader op rgn n c) = op := by
  apply BitVec.eq_of_getLsbD_eq
  intro i hi
  have h2 : i < 32 := by omega
  have h3 : i < 16 := by omega
  have h4 : i < 10 := by omega
  simp [headerOp, mkHeader, hi, h2, h3, h4]

@[simp] theorem headerRgn_mkHeader (op : BitVec 8) (rgn : BitVec 2) (n : BitVec 6) (c : BitVec 16) :
    headerRgn (mkHeader op rgn n c) = rgn := by
  apply BitVec.eq_of_getLsbD_eq
  intro i hi
  have h2 : 8 + i < 32 := by omega
  have h3 : 8 + i < 16 := by omega
  have h4 : 8 + i < 10 := by omega
  simp [headerRgn, mkHeader, hi, h2, h3, h4]

@[simp] theorem headerNbits_mkHeader (op : BitVec 8) (rgn : BitVec 2) (n : BitVec 6) (c : BitVec 16) :
    headerNbits (mkHeader op rgn n c) = n := by
  apply BitVec.eq_of_getLsbD_eq
  intro i hi
  have h2 : 10 + i < 32 := by omega
  have h3 : 10 + i < 16 := by omega
  have h4 : ¬ 10 + i < 8 := by omega
  have h5 : rgn.getLsbD (10 + i - 8) = false := BitVec.getLsbD_of_ge _ _ (by omega)
  have h6 : op.getLsbD (10 + i) = false := BitVec.getLsbD_of_ge _ _ (by omega)
  simp [headerNbits, mkHeader, hi, h2, h3, h4, h5, h6]

@[simp] theorem headerCount_mkHeader (op : BitVec 8) (rgn : BitVec 2) (n : BitVec 6) (c : BitVec 16) :
    headerCount (mkHeader op rgn n c) = c := by
  apply BitVec.eq_of_getLsbD_eq
  intro i hi
  have h2 : 16 + i < 32 := by omega
  have h4 : ¬ 16 + i < 8 := by omega
  have h3 : ¬ 16 + i < 10 := by omega
  have h5 : rgn.getLsbD (16 + i - 8) = false := BitVec.getLsbD_of_ge _ _ (by omega)
  have h6 : n.getLsbD (16 + i - 10) = false := BitVec.getLsbD_of_ge _ _ (by omega)
  have h7 : op.getLsbD (16 + i) = false := BitVec.getLsbD_of_ge _ _ (by omega)
  simp [headerCount, mkHeader, hi, h2, h3, h4, h5, h6, h7]

@[simp] theorem regionOf_regionCode (r : Region) : regionOf (regionCode r) = some r := by cases r <;> rfl

@[simp] theorem payloadOf_frameOf (p : Payload) : payloadOf (frameOf p) = p := by
  apply BitVec.eq_of_getLsbD_eq
  intro i hi
  have h0 : i < 14 := hi
  have h1 : 1 + i < 16 := by omega
  simp [payloadOf, frameOf, h0, h1]

/-- Distinct opcode values are told apart (R69). -/
theorem cmdOf_opc (p : Params) (h : p.wf = true) (c : Cmd) : cmdOf p (p.opc c) = some c := by
  have h := of_decide_eq_true h
  simp only [Cmd.all, List.map_cons, List.map_nil, List.nodup_cons, List.mem_cons, List.not_mem_nil, or_false,
    not_or] at h
  cases c <;> simp [cmdOf, Cmd.all, List.find?, h]

end Sys2Proof
end

