-- ==== Sys2Proof/Laws/Regions.lean ====
section
/-! SUPPORT. What the loops of the memory access engine can do, each said once. -/

namespace Sys2Proof.Machine

theorem readingItems_append_sends (p : Params) (t : Timing) (a b : List (Cmd × Payload)) (rx : List (List Bool))
    (h : ∀ c ∈ a, cmdClass c.1 ≠ .inp) :
    readingItems p t (a ++ b) rx = commandsItems p t a ++ readingItems p t b rx := by
  induction a with
  | nil => rfl
  | cons c a ih =>
    have hc := h c (by simp)
    simp [readingItems, commandsItems, hc, ih fun c hc => h c (by simp [hc])]

theorem readingItems_sends (p : Params) (t : Timing) (a : List (Cmd × Payload)) (rx : List (List Bool))
    (h : ∀ c ∈ a, cmdClass c.1 ≠ .inp) : readingItems p t a rx = commandsItems p t a := by
  simpa [readingItems] using readingItems_append_sends p t a [] rx h

@[simp] theorem ranWith_nil (rx : List (List Bool)) (d : Draws) (s : State) :
    ranWith [] rx d s = { s with draws := d } := rfl

@[simp] theorem ranWith_draws (cs : List (Cmd × Payload)) (rx : List (List Bool)) (d : Draws) (s : State) :
    (ranWith cs rx d s).draws = d := rfl

@[simp] theorem ranWith_params (cs : List (Cmd × Payload)) (rx : List (List Bool)) (d : Draws) (s : State) :
    (ranWith cs rx d s).params = s.params := rfl

@[simp] theorem ranWith_ranWith_draws (cs : List (Cmd × Payload)) (rx : List (List Bool)) (d d' : Draws) (s : State) :
    ranWith cs rx d { s with draws := d' } = ranWith cs rx d s := rfl

@[simp] theorem draws_ranWith (cs : List (Cmd × Payload)) (rx : List (List Bool)) (d d' : Draws) (s : State) :
    { ranWith cs rx d s with draws := d' } = ranWith cs rx d' s := rfl

/-- A sent command is a list of one command. -/
theorem issue_eq_ranWith (c : Cmd) (p : Payload) (s : State) (h : cmdClass c ≠ .inp) :
    issue c p s = ranWith [(c, p)] [] s.draws s := by
  simp [issue_sends c p s h, ranWith, readingItems, h, shadowAfterAll, played]

/-- A received command is a list of one command, with one frame. -/
theorem issueCmd_eq_ranWith (c : Cmd) (p : Payload) (s : State) (h : cmdClass c = .inp) :
    ∃ bs d, bs.length = 16 ∧ d.aborts = s.draws.aborts ∧
      issueCmd c p s = (BitVec.ofNat 16 (bitsValue bs), ranWith [(c, p)] [bs] d s) := by
  obtain ⟨bs, d, hl, ha, he⟩ := issueCmd_reads c p s h
  exact ⟨bs, d, hl, ha, by
    simp [he, ranWith, readingItems, h, shadowAfterAll, played, shadowAfter_read c _ h]⟩

/-- Commands after a sent command. -/
theorem ranWith_send (c : Cmd) (p : Payload) (cs : List (Cmd × Payload)) (rx : List (List Bool)) (d d' : Draws)
    (s : State) (h : cmdClass c ≠ .inp) :
    ranWith cs rx d (ranWith [(c, p)] [] d' s) = ranWith ((c, p) :: cs) rx d s := by
  simp [ranWith, readingItems, h, shadowAfterAll, played]

/-- Commands after a received command. -/
theorem ranWith_read (c : Cmd) (p : Payload) (cs : List (Cmd × Payload)) (bs : List Bool) (rx : List (List Bool))
    (d d' : Draws) (s : State) (h : cmdClass c = .inp) :
    ranWith cs rx d (ranWith [(c, p)] [bs] d' s) = ranWith ((c, p) :: cs) (bs :: rx) d s := by
  simp [ranWith, readingItems, h, shadowAfterAll, played]

/-- Commands after commands that send. -/
theorem ranWith_sends (a b : List (Cmd × Payload)) (rx : List (List Bool)) (d d' : Draws) (s : State)
    (h : ∀ c ∈ a, cmdClass c.1 ≠ .inp) :
    ranWith b rx d (ranWith a [] d' s) = ranWith (a ++ b) rx d s := by
  simp [ranWith, readingItems_append_sends _ _ a b rx h, readingItems_sends _ _ a [] h, shadowAfterAll, played]

/-- The commands of `n` words of a read (R113). -/
def wordReads (c : Cmd) (n : Nat) : List (Cmd × Payload) :=
  (List.range n).flatMap fun _ => [(c, 0), (.incrementAddress, 0)]

theorem wordReads_succ (c : Cmd) (n : Nat) :
    wordReads c (n + 1) = (c, 0) :: (.incrementAddress, 0) :: wordReads c n := by
  simp [wordReads, List.range_succ_eq_map, List.flatMap_map]

@[simp] theorem wordReads_zero (c : Cmd) : wordReads c 0 = [] := rfl

/-- One word of a read: the read command and the increment (R113). -/
theorem read_word (c : Cmd) (s : State) (h : cmdClass c = .inp) :
    ∃ raw s' bs d, issueCmd c 0 s = (raw, s') ∧ bs.length = 16 ∧ d.aborts = s.draws.aborts ∧
      readWord raw = wordOfBits bs ∧ issue .incrementAddress 0 s' = ranWith (wordReads c 1) [bs] d s := by
  obtain ⟨bs, d, hl, ha, he⟩ := issueCmd_eq_ranWith c 0 s h
  refine ⟨_, _, bs, d, he, hl, ha, rfl, ?_⟩
  rw [issue_eq_ranWith _ _ _ (by decide), ranWith_draws, ranWith_read c 0 _ bs [] d d s h]
  rfl

/-- More words after one. -/
theorem ranWith_wordReads (c : Cmd) (n : Nat) (bs : List Bool) (rx : List (List Bool)) (d d' : Draws) (s : State)
    (h : cmdClass c = .inp) :
    ranWith (wordReads c n) rx d (ranWith (wordReads c 1) [bs] d' s) = ranWith (wordReads c (n + 1)) (bs :: rx) d s := by
  have hi : cmdClass .incrementAddress = .none := rfl
  simp [ranWith, wordReads_succ, readingItems, h, hi, shadowAfterAll, played]

/-- The read loop from a word that may have an abort point: it reads `k` of its words and ends with `OK` where that is
all of them and with `ABORTED` otherwise (R113, R123). -/
theorem readLoop_eq (c : Cmd) (h : cmdClass c = .inp) (n i : Nat) (out : List Word) (s : State) :
    ∃ k rx d r, rx.length = k ∧ (∀ bs ∈ rx, bs.length = 16) ∧ (r = .ok ∧ k = n ∨ r = .aborted ∧ k < n) ∧
      readLoop c n i out s = complete r (out.reverse ++ rx.map wordOfBits) (ranWith (wordReads c k) rx d s) := by
  induction n generalizing i out s with
  | zero => exact ⟨0, [], s.draws, .ok, rfl, by simp, .inl ⟨rfl, rfl⟩, by simp [readLoop]⟩
  | succ n ih =>
    obtain ⟨stop, d0, h0⟩ : ∃ b d, (if 1 ≤ i then abortPoint s else (false, s)) = (b, { s with draws := d }) := by
      split
      · exact abortPoint_eq s
      · exact ⟨false, s.draws, rfl⟩
    simp only [readLoop, h0]
    split
    · exact ⟨0, [], d0, .aborted, rfl, by simp, .inr ⟨rfl, by omega⟩, by simp⟩
    · obtain ⟨raw, s', bs, d1, he, hl, -, hw, hs⟩ := read_word c { s with draws := d0 } h
      obtain ⟨k, rx, d, r, hk, hrx, hr, h2⟩ :=
        ih (i + 1) (wordOfBits bs :: out) (ranWith (wordReads c 1) [bs] d1 { s with draws := d0 })
      refine ⟨k + 1, bs :: rx, d, r, by simp [hk], by simpa [hl] using hrx, ?_, ?_⟩
      · rcases hr with ⟨h, h'⟩ | ⟨h, h'⟩ <;> simp [h] <;> omega
      · simp only [he, hw, hs, h2, ranWith_wordReads c _ _ _ _ _ _ h]
        simp

/-- The read loop where every abort point of its words reads 0 (R123). -/
theorem readLoop_scripted_ok (c : Cmd) (h : cmdClass c = .inp) (n i : Nat) (hi : 1 ≤ i) (out : List Word)
    (more : List Bool) (s : State) (hs : s.draws.aborts = List.replicate n false ++ more) :
    ∃ rx d, rx.length = n ∧ (∀ bs ∈ rx, bs.length = 16) ∧ d.aborts = more ∧
      readLoop c n i out s = complete .ok (out.reverse ++ rx.map wordOfBits) (ranWith (wordReads c n) rx d s) := by
  induction n generalizing i out s with
  | zero => exact ⟨[], s.draws, rfl, by simp, by simpa using hs, by simp [readLoop]⟩
  | succ n ih =>
    have h0 := abortPoint_scripted s false (List.replicate n false ++ more) (by simpa [List.replicate_succ] using hs)
    obtain ⟨raw, s', bs, d1, he, hl, ha, hw, hs'⟩ :=
      read_word c { s with draws := { s.draws with aborts := List.replicate n false ++ more } } h
    obtain ⟨rx, d, hk, hrx, hd, h2⟩ := ih (i + 1) (by omega) (wordOfBits bs :: out) (ranWith (wordReads c 1) [bs] d1 s) (by exact ha)
    refine ⟨bs :: rx, d, by simp [hk], by simpa [hl] using hrx, hd, ?_⟩
    simp only [readLoop, hi, if_true, h0, Bool.false_eq_true, if_false, he, hw, hs',
      ranWith_ranWith_draws, h2, ranWith_wordReads c _ _ _ _ _ _ h]
    simp

/-- The read loop where an abort point reads 1 after `k` that read 0 (R123). -/
theorem readLoop_scripted_abort (c : Cmd) (h : cmdClass c = .inp) (n k i : Nat) (hk : k < n) (hi : 1 ≤ i)
    (out : List Word) (more : List Bool) (s : State)
    (hs : s.draws.aborts = List.replicate k false ++ true :: more) :
    ∃ rx d, rx.length = k ∧ (∀ bs ∈ rx, bs.length = 16) ∧ d.aborts = more ∧
      readLoop c n i out s = complete .aborted (out.reverse ++ rx.map wordOfBits) (ranWith (wordReads c k) rx d s) := by
  induction k generalizing n i out s with
  | zero =>
    obtain ⟨n, rfl⟩ : ∃ m, n = m + 1 := ⟨n - 1, by omega⟩
    have h0 := abortPoint_scripted s true more (by simpa using hs)
    exact ⟨[], { s.draws with aborts := more }, rfl, by simp, rfl, by simp [readLoop, hi, h0]⟩
  | succ k ih =>
    obtain ⟨n, rfl⟩ : ∃ m, n = m + 1 := ⟨n - 1, by omega⟩
    have h0 := abortPoint_scripted s false (List.replicate k false ++ true :: more)
      (by simpa [List.replicate_succ] using hs)
    obtain ⟨raw, s', bs, d1, he, hl, ha, hw, hs'⟩ :=
      read_word c { s with draws := { s.draws with aborts := List.replicate k false ++ true :: more } } h
    obtain ⟨rx, d, hk', hrx, hd, h2⟩ := ih n (i + 1) (by omega) (by omega) (wordOfBits bs :: out) (ranWith (wordReads c 1) [bs] d1 s) (by exact ha)
    refine ⟨bs :: rx, d, by simp [hk'], by simpa [hl] using hrx, hd, ?_⟩
    simp only [readLoop, hi, if_true, h0, Bool.false_eq_true, if_false, he, hw, hs',
      ranWith_ranWith_draws, h2, ranWith_wordReads c _ _ _ _ _ _ h]
    simp

/-- A write command sends. -/
theorem loadCommands_send (c : Cmd) (h : cmdClass c ≠ .inp) (n l i : Nat) (ws : List Word) :
    ∀ x ∈ loadCommands c n l i ws, cmdClass x.1 ≠ .inp := by
  induction ws generalizing i with
  | nil => simp [loadCommands]
  | cons w ws ih =>
    intro x hx
    simp only [loadCommands, List.mem_cons, List.mem_append] at hx
    rcases hx with rfl | hx | rfl | hx
    · exact h
    · split at hx
      · simp only [List.mem_cons, List.not_mem_nil, or_false] at hx
        subst hx
        decide
      · simp at hx
    · decide
    · exact ih _ x hx

theorem operandPayload_eq (w : Word) : operandPayload w = w.extractLsb' 0 14 := by
  apply BitVec.eq_of_getLsbD_eq
  intro i hi
  simp [operandPayload, hi]

/-- The trigger is the one R122 writes. -/
theorem progTrigger_iff (i n l : Nat) : progTrigger i n l = true ↔ ((i + 1) % l = 0 ∨ i + 1 = n) := by
  simp [progTrigger]

/-- One word of a write loop that goes on (R119 to R121). -/
theorem write_word (c : Cmd) (h : cmdClass c ≠ .inp) (n l i : Nat) (w : Word) (s : State) :
    issue .incrementAddress 0
        (if progTrigger i n l then issue .beginIntProg 0 (issue c (operandPayload w) s)
          else issue c (operandPayload w) s) =
      ranWith (loadCommands c n l i [w]) [] s.draws s := by
  have hb : cmdClass .beginIntProg ≠ .inp := by decide
  have hi : cmdClass .incrementAddress ≠ .inp := by decide
  by_cases ht : progTrigger i n l = true
  · rw [if_pos ht]
    rw [progTrigger_iff] at ht
    simp only [loadCommands, ht, issue_eq_ranWith _ _ _ h, issue_eq_ranWith _ _ _ hb, issue_eq_ranWith _ _ _ hi,
      ranWith_draws, ranWith_send _ _ _ _ _ _ _ h, operandPayload_eq, if_true]
    rw [ranWith_sends _ _ _ _ _ _ (by simp [h, hb])]
    rfl
  · rw [if_neg ht]
    rw [progTrigger_iff] at ht
    simp [loadCommands, ht, issue_eq_ranWith _ _ _ h, issue_eq_ranWith _ _ _ hi,
      ranWith_send _ _ _ _ _ _ _ h, operandPayload_eq]

theorem loadCommands_cons (c : Cmd) (n l i : Nat) (w : Word) (ws : List Word) :
    loadCommands c n l i (w :: ws) = loadCommands c n l i [w] ++ loadCommands c n l (i + 1) ws := by
  simp [loadCommands]

/-- The write loop: it programs `k` of its words and ends with `OK` where that is all of them and with `ABORTED`, at the
start of a latch group, otherwise (R119 to R124). -/
theorem writeLoop_eq (c : Cmd) (h : cmdClass c ≠ .inp) (n l i : Nat) (ws : List Word) (s : State) :
    ∃ k d r, (r = .ok ∧ k = ws.length ∨ r = .aborted ∧ k < ws.length ∧ 1 ≤ i + k ∧ (i + k) % l = 0) ∧
      writeLoop c n l ws i s = complete r [] (ranWith (loadCommands c n l i (ws.take k)) [] d s) := by
  induction ws generalizing i s with
  | nil => exact ⟨0, s.draws, .ok, .inl ⟨rfl, rfl⟩, by simp [writeLoop, loadCommands]⟩
  | cons w ws ih =>
    obtain ⟨stop, d0, h0, hp⟩ : ∃ b d, (if 1 ≤ i ∧ i % l = 0 then abortPoint s else (false, s)) =
        (b, { s with draws := d }) ∧ (b = true → 1 ≤ i ∧ i % l = 0) := by
      split
      · next hp =>
        obtain ⟨b, d, hb⟩ := abortPoint_eq s
        exact ⟨b, d, hb, fun _ => hp⟩
      · exact ⟨false, s.draws, rfl, by simp⟩
    simp only [writeLoop, h0]
    by_cases hs : stop = true
    · exact ⟨0, d0, .aborted, .inr ⟨rfl, by simp, hp hs⟩, by simp [hs, loadCommands]⟩
    · obtain ⟨k, d, r, hr, h2⟩ := ih (i + 1) (ranWith (loadCommands c n l i [w]) [] d0 s)
      refine ⟨k + 1, d, r, ?_, ?_⟩
      · rcases hr with ⟨h, h'⟩ | ⟨h, h', h''⟩
        · exact .inl ⟨h, by simp [h']⟩
        · exact .inr ⟨h, by simpa using h', by rwa [show i + (k + 1) = i + 1 + k by omega]⟩
      · rw [if_neg hs, write_word c h n l i w]
        refine h2.trans ?_
        rw [ranWith_sends _ _ _ _ _ _ (loadCommands_send c h n l i [w]), ← loadCommands_cons]
        rfl

/-- The abort points of `len` words from word `i` on (R124). -/
def abortPoints (l : Nat) : Nat → Nat → Nat
  | _, 0 => 0
  | i, len + 1 => (if 1 ≤ i ∧ i % l = 0 then 1 else 0) + abortPoints l (i + 1) len

/-- The write loop where its abort points read 0 (R124). -/
theorem writeLoop_scripted_ok (c : Cmd) (h : cmdClass c ≠ .inp) (n l i : Nat) (ws : List Word) (more : List Bool)
    (s : State) (hs : s.draws.aborts = List.replicate (abortPoints l i ws.length) false ++ more) :
    writeLoop c n l ws i s =
      complete .ok [] (ranWith (loadCommands c n l i ws) [] { s.draws with aborts := more } s) := by
  induction ws generalizing i s with
  | nil =>
    have : s.draws = { s.draws with aborts := more } := by
      cases hd : s.draws; simp_all [abortPoints]
    rw [← this]
    rfl
  | cons w ws ih =>
    have h0 : (if 1 ≤ i ∧ i % l = 0 then abortPoint s else (false, s)) =
        (false, { s with draws := { s.draws with
          aborts := List.replicate (abortPoints l (i + 1) ws.length) false ++ more } }) := by
      split
      · next hp =>
        exact abortPoint_scripted s false _ (by
          simpa [abortPoints, hp, Nat.add_comm 1, List.replicate_succ] using hs)
      · next hp =>
        have : s.draws.aborts = List.replicate (abortPoints l (i + 1) ws.length) false ++ more := by
          simpa [abortPoints, hp] using hs
        rw [← this]
    simp only [writeLoop, h0, Bool.false_eq_true, if_false]
    rw [write_word c h n l i w, ih (i + 1) _ rfl, ranWith_sends _ _ _ _ _ _ (loadCommands_send c h n l i [w]),
      ← loadCommands_cons]
    rfl

/-- The write loop where the abort point before word `k` reads 1 and those before it read 0 (R124). -/
theorem writeLoop_scripted_abort (c : Cmd) (h : cmdClass c ≠ .inp) (n l i k : Nat) (ws : List Word) (more : List Bool)
    (s : State) (hk : k < ws.length) (hp : 1 ≤ i + k ∧ (i + k) % l = 0)
    (hs : s.draws.aborts = List.replicate (abortPoints l i k) false ++ true :: more) :
    writeLoop c n l ws i s =
      complete .aborted [] (ranWith (loadCommands c n l i (ws.take k)) [] { s.draws with aborts := more } s) := by
  induction ws generalizing i k s with
  | nil => simp at hk
  | cons w ws ih =>
    cases k with
    | zero =>
      have h0 := abortPoint_scripted s true more (by simpa [abortPoints] using hs)
      simp only [Nat.add_zero] at hp
      simp only [writeLoop, hp, and_self, if_true, h0]
      rfl
    | succ k =>
      have h0 : (if 1 ≤ i ∧ i % l = 0 then abortPoint s else (false, s)) =
          (false, { s with draws := { s.draws with
            aborts := List.replicate (abortPoints l (i + 1) k) false ++ true :: more } }) := by
        split
        · next hp =>
          exact abortPoint_scripted s false _ (by
            simpa [abortPoints, hp, Nat.add_comm 1, List.replicate_succ] using hs)
        · next hp =>
          have : s.draws.aborts = List.replicate (abortPoints l (i + 1) k) false ++ true :: more := by
            simpa [abortPoints, hp] using hs
          rw [← this]
      simp only [writeLoop, h0, Bool.false_eq_true, if_false]
      rw [write_word c h n l i w, ih (i + 1) k _ (by simpa using hk)
        (by rwa [show i + 1 + k = i + (k + 1) by omega]) rfl,
        ranWith_sends _ _ _ _ _ _ (loadCommands_send c h n l i [w]), ← loadCommands_cons]
      rfl

/-- The abort points of a write of `n` words that has begun with its first word: one for each latch group but the first
(R124). -/
theorem abortPoints_eq (l n : Nat) : abortPoints l 0 n = (n - 1) / l := by
  have key : ∀ len i, abortPoints l (i + 1) len + i / l = (i + len) / l := by
    intro len
    induction len with
    | zero => intro i; simp [abortPoints]
    | succ len ih =>
      intro i
      have := ih (i + 1)
      have hd := Nat.succ_div (a := i) (b := l)
      simp only [abortPoints, Nat.dvd_iff_mod_eq_zero] at this hd ⊢
      rw [show i + 1 + len = i + (len + 1) by omega] at this
      split <;> split at hd <;> simp_all; all_goals omega
  cases n with
  | zero => simp [abortPoints]
  | succ n =>
    have := key n 0
    simpa [abortPoints] using this

theorem shadowAfter_increment (sp : Space) (o : BitVec 16) :
    shadowAfter .incrementAddress ⟨true, sp, o⟩ = ⟨true, sp, o + 1⟩ := by
  have : BitVec.ofNat 16 (o.toNat + 1) = o + 1 := by
    apply BitVec.eq_of_toNat_eq
    simp
  simp [shadowAfter, this]

theorem shadowAfterAll_append (a b : List (Cmd × Payload)) (k : Cursor) :
    shadowAfterAll (a ++ b) k = shadowAfterAll b (shadowAfterAll a k) := List.foldl_append

theorem offset_succ (o : BitVec 16) (n : Nat) : o + 1 + BitVec.ofNat 16 n = o + BitVec.ofNat 16 (n + 1) := by
  apply BitVec.eq_of_toNat_eq
  simp [Nat.add_assoc, Nat.add_comm 1]

/-- The shadow after the words of a read (R22, R113). -/
theorem shadow_wordReads (c : Cmd) (h : cmdClass c = .inp) (n : Nat) (sp : Space) (o : BitVec 16) :
    shadowAfterAll (wordReads c n) ⟨true, sp, o⟩ = ⟨true, sp, o + BitVec.ofNat 16 n⟩ := by
  induction n generalizing o with
  | zero => simp [shadowAfterAll]
  | succ n ih =>
    rw [wordReads_succ, ← offset_succ, ← ih (o + 1), ← shadowAfter_increment]
    simp [shadowAfterAll, shadowAfter_read c _ h]

/-- The shadow after the words of a write (R22, R119 to R121). -/
theorem shadow_loadCommands (c : Cmd) (h : cmdClass c = .out) (h' : c ≠ .loadConfig) (n l i : Nat) (ws : List Word)
    (sp : Space) (o : BitVec 16) :
    shadowAfterAll (loadCommands c n l i ws) ⟨true, sp, o⟩ = ⟨true, sp, o + BitVec.ofNat 16 ws.length⟩ := by
  have hc : ∀ k, shadowAfter c k = k := by
    intro k
    cases c <;> simp_all [shadowAfter, cmdClass]
  have hb : ∀ k, shadowAfter .beginIntProg k = k := fun _ => rfl
  induction ws generalizing i o with
  | nil => simp [shadowAfterAll, loadCommands]
  | cons w ws ih =>
    rw [List.length_cons, ← offset_succ, ← ih (i + 1) (o + 1), ← shadowAfter_increment, loadCommands_cons,
      shadowAfterAll_append]
    congr 1
    simp only [loadCommands, shadowAfterAll]
    split <;> simp [hc, hb]

end Sys2Proof.Machine
end

