-- ==== Sys2Proof/Laws/Exec.lean ====
section
/-! SUPPORT. What an instruction can do, said once: it is refused and changes nothing but the result, `fault_seen` and the
port; or it plays a trace made of whole waveforms and is answered. -/

namespace Sys2Proof.Machine

/-- A trace made of whole waveforms: from idle lines it leads to idle lines, it leaves MCLR alone or not, and it keeps the
edge holds of R88 before any trace that keeps them. -/
structure Whole (e : Nat) (items : List TraceItem) : Prop where
  idle : ∀ l, LinesIdle l → LinesIdle (linesAfter l items)
  holds : ∀ fall chg rest, e ≤ fall →
    (∀ fall' chg', e ≤ fall' → edgesHeld e false fall' chg' rest = true) →
    edgesHeld e false fall chg (items ++ rest) = true

/-- A trace that has no MCLR event leaves MCLR as it is. -/
def MclrStays (items : List TraceItem) : Prop := ∀ l, (linesAfter l items).mclr = l.mclr

theorem Whole.nil (e : Nat) : Whole e [] := ⟨fun _ h => h, fun _ _ _ hf hr => hr _ _ hf⟩

theorem Whole.append {e : Nat} {a b : List TraceItem} (ha : Whole e a) (hb : Whole e b) : Whole e (a ++ b) where
  idle l h := by simpa using hb.idle _ (ha.idle l h)
  holds fall chg rest hf hr := by
    rw [List.append_assoc]
    exact ha.holds _ _ _ hf fun f c hfc => hb.holds f c rest hfc hr

theorem MclrStays.nil : MclrStays [] := fun _ => rfl

theorem MclrStays.append {a b : List TraceItem} (ha : MclrStays a) (hb : MclrStays b) : MclrStays (a ++ b) := fun l => by
  rw [linesAfter_append, hb, ha]

theorem Whole.wait (e ns : Nat) : Whole e [.wait ns] where
  idle _ h := h
  holds fall chg rest hf hr := by
    simp only [List.cons_append, List.nil_append, edgesHeld]
    exact hr _ _ (by omega)

theorem Whole.mclr (e : Nat) (v : Bool) : Whole e [.event (.mclr v)] where
  idle _ h := h
  holds fall chg rest hf hr := by
    simp only [List.cons_append, List.nil_append, edgesHeld]
    exact hr _ _ hf

theorem Whole.bit (e : Nat) (b : Bool) : Whole e (bitItems e b) where
  idle l h := ⟨rfl, h.2⟩
  holds fall chg rest hf hr := by
    have := hr (0 + e) (0 + e + e + e) (by omega)
    simp_all [bitItems, edgesHeld]

theorem MclrStays.bit (e : Nat) (b : Bool) : MclrStays (bitItems e b) := fun _ => rfl

theorem Whole.bits (e : Nat) (bs : List Bool) : Whole e (bs.flatMap (bitItems e)) := by
  induction bs with
  | nil => exact Whole.nil e
  | cons b bs ih => exact (Whole.bit e b).append ih

theorem MclrStays.bits (e : Nat) (bs : List Bool) : MclrStays (bs.flatMap (bitItems e)) := by
  induction bs with
  | nil => exact MclrStays.nil
  | cons b bs ih => exact (MclrStays.bit e b).append ih

theorem Whole.send (e n v : Nat) : Whole e (sendItems e n v) := Whole.bits e _

theorem MclrStays.send (e n v : Nat) : MclrStays (sendItems e n v) := MclrStays.bits e _

/-- The pulses of a reception hold their edges where DATA has been still long enough. -/
theorem edgesHeld_pulses (e : Nat) (bs : List Bool) (fall chg : Nat) (rest : List TraceItem) (hc : e ≤ chg)
    (hf : e ≤ fall) (hr : ∀ fall' chg', e ≤ fall' → e ≤ chg' → edgesHeld e false fall' chg' rest = true) :
    edgesHeld e false fall chg (bs.flatMap (pulseItems e) ++ rest) = true := by
  induction bs generalizing fall chg with
  | nil => exact hr _ _ hf hc
  | cons b bs ih =>
    simp only [List.flatMap_cons, pulseItems, List.cons_append, List.nil_append, edgesHeld]
    simp only [decide_eq_true hc, Bool.true_and]
    exact ih _ _ (by omega) (by omega)

theorem linesAfter_pulses (e : Nat) (bs : List Bool) (l : Lines) (h : l.clk = false) :
    linesAfter l (bs.flatMap (pulseItems e)) = l := by
  induction bs with
  | nil => rfl
  | cons b bs ih =>
    have : linesAfter l (pulseItems e b) = l := by
      cases l
      simp_all [pulseItems, linesAfter, Lines.apply]
    rw [List.flatMap_cons, linesAfter_append, this, ih]

theorem linesAfter_recv (e : Nat) (bs : List Bool) (l : Lines) (h : LinesIdle l) : linesAfter l (recvItems e bs) = l := by
  obtain ⟨hc, hd⟩ := h
  cases l
  simp only at hc hd
  subst hc hd
  simp [recvItems, linesAfter, linesAfter_pulses, Lines.apply]

theorem Whole.recv (e : Nat) (bs : List Bool) : Whole e (recvItems e bs) where
  idle l h := by rwa [linesAfter_recv e bs l h]
  holds fall chg rest hf hr := by
    simp only [recvItems, List.append_assoc, List.cons_append, List.nil_append, edgesHeld, Bool.not_false, Bool.true_and]
    refine edgesHeld_pulses e bs _ _ _ (by omega) (by omega) fun f c hfc _ => ?_
    simp only [edgesHeld, Bool.not_false, Bool.true_and]
    exact hr _ _ hfc

theorem MclrStays.pulses (e : Nat) (bs : List Bool) : MclrStays (bs.flatMap (pulseItems e)) := by
  induction bs with
  | nil => exact MclrStays.nil
  | cons b bs ih => exact (show MclrStays (pulseItems e b) from fun _ => rfl).append ih

theorem MclrStays.recv (e : Nat) (bs : List Bool) : MclrStays (recvItems e bs) := by
  refine MclrStays.append (MclrStays.append (fun _ => rfl) (MclrStays.pulses e bs)) (fun _ => rfl)

theorem Whole.command (p : Params) (t : Timing) (c : Cmd) (payload : Payload) (rx : List Bool) :
    Whole t.tEdge.toNat (commandItems p t c payload rx) := by
  unfold commandItems
  refine ((Whole.send _ _ _).append (Whole.wait _ _)).append ?_
  split
  · exact Whole.nil _
  · exact (Whole.send _ _ _).append (Whole.wait _ _)
  · exact (Whole.recv _ _).append (Whole.wait _ _)

theorem MclrStays.command (p : Params) (t : Timing) (c : Cmd) (payload : Payload) (rx : List Bool) :
    MclrStays (commandItems p t c payload rx) := by
  unfold commandItems
  refine ((MclrStays.send _ _ _).append (fun _ => rfl)).append ?_
  split
  · exact MclrStays.nil
  · exact (MclrStays.send _ _ _).append (fun _ => rfl)
  · exact (MclrStays.recv _ _).append (fun _ => rfl)

theorem Whole.reading (p : Params) (t : Timing) (cs : List (Cmd × Payload)) (rx : List (List Bool)) :
    Whole t.tEdge.toNat (readingItems p t cs rx) := by
  induction cs generalizing rx with
  | nil => exact Whole.nil _
  | cons c cs ih =>
    simp only [readingItems]
    split
    · exact (Whole.command _ _ _ _ _).append (ih _)
    · exact (Whole.command _ _ _ _ _).append (ih _)

theorem MclrStays.reading (p : Params) (t : Timing) (cs : List (Cmd × Payload)) (rx : List (List Bool)) :
    MclrStays (readingItems p t cs rx) := by
  induction cs generalizing rx with
  | nil => exact MclrStays.nil
  | cons c cs ih =>
    simp only [readingItems]
    split
    · exact (MclrStays.command _ _ _ _ _).append (ih _)
    · exact (MclrStays.command _ _ _ _ _).append (ih _)

theorem Whole.key (p : Params) (e : Nat) : Whole e (keyItems p e) := Whole.send e _ _

theorem MclrStays.key (p : Params) (e : Nat) : MclrStays (keyItems p e) := MclrStays.send e _ _

theorem enterWaveform_eq_played (s : State) : enterWaveform s = played (enterItems s.params s.timing) s := by
  simp [enterWaveform, enterItems, sendKey_eq_played, wait_eq_played, emit_eq_played]

theorem resetWaveform_eq_played (s : State) : resetWaveform s = played (resetItems s.timing) s := by
  simp [resetWaveform, resetItems, wait_eq_played, emit_eq_played]

/-- A region request by its loop: refused, a no-op, or run (R112, R134, R136). -/
theorem regionOp_eq (ok : Bool) (n : BitVec 16) (body : State → State) (s : State) :
    regionOp ok n body s =
      if ok = true then
        if n.toNat = 0 then answered .ok [] s
        else if s.session = .prog then body (arrive s)
        else refusedWith .eNotProg s
      else refusedWith .eBadArg s := by
  have h : (n = 0) ↔ n.toNat = 0 := ⟨fun h => by simp [h], fun h => BitVec.eq_of_toNat_eq (by simpa using h)⟩
  simp only [regionOp, complete_eq_answered, refuse_eq_refusedWith, h]

theorem position_eq_ranWith (rgn : Region) (s : State) :
    position rgn s =
      ranWith [if rgn = .cfg then (.loadConfig, s.params.ldcfgPayload) else (.resetAddress, 0)] [] s.draws s := by
  cases rgn
  · exact issue_eq_ranWith _ _ _ (by decide)
  · exact issue_eq_ranWith _ _ _ (by decide)
  · exact issue_eq_ranWith _ _ _ (by decide)

theorem readCmd_reads (rgn : Region) : cmdClass (readCmd rgn) = .inp := by cases rgn <;> rfl

theorem loadCmd_sends (rgn : Region) : cmdClass (loadCmd rgn) ≠ .inp := by cases rgn <;> decide

theorem readCommands_eq (p : Params) (rgn : Region) (n : Nat) :
    readCommands p rgn n =
      (if rgn = .cfg then (.loadConfig, p.ldcfgPayload) else (.resetAddress, 0)) :: wordReads (readCmd rgn) n := by
  cases rgn <;> rfl

theorem erasePm_eq_ranWith (s : State) :
    erasePm s = ranWith [(.loadConfig, s.params.ldcfgPayload), (.bulkErasePm, 0)] [] s.draws s := by
  rw [erasePm, issue_eq_ranWith _ _ _ (by decide), issue_eq_ranWith _ _ _ (by decide), ranWith_draws,
    ranWith_send _ _ _ _ _ _ _ (by decide)]

theorem issueIncrements_eq_ranWith (n : Nat) (s : State) :
    issueIncrements n s = ranWith (List.replicate n (.incrementAddress, 0)) [] s.draws s := by
  induction n generalizing s with
  | zero => rfl
  | succ n ih =>
    rw [issueIncrements, ih, issue_eq_ranWith _ _ _ (by decide), ranWith_draws, ranWith_send _ _ _ _ _ _ _ (by decide)]
    rfl

/-- The commands before the write loop of a region (R119 to R121). -/
def writePrologue (p : Params) : Region → List (Cmd × Payload)
  | .pm => [(.loadConfig, p.ldcfgPayload), (.bulkErasePm, 0), (.resetAddress, 0)]
  | .dm => [(.bulkEraseDm, 0), (.resetAddress, 0)]
  | .cfg => (.loadConfig, p.ldcfgPayload) :: List.replicate p.cfgSkip (.incrementAddress, 0)

theorem writePrologue_sends (p : Params) (rgn : Region) : ∀ c ∈ writePrologue p rgn, cmdClass c.1 ≠ .inp := by
  cases rgn <;> simp +contextual [writePrologue, cmdClass]

theorem prologuePm_eq (s : State) :
    issue .resetAddress 0 (erasePm s) = ranWith (writePrologue s.params .pm) [] s.draws s := by
  rw [erasePm_eq_ranWith, issue_eq_ranWith _ _ _ (by decide), ranWith_draws, ranWith_sends _ _ _ _ _ _ (by simp [cmdClass])]
  rfl

theorem prologueDm_eq (s : State) :
    issue .resetAddress 0 (issue .bulkEraseDm 0 s) = ranWith (writePrologue s.params .dm) [] s.draws s := by
  rw [issue_eq_ranWith _ _ _ (by decide), issue_eq_ranWith _ _ _ (by decide), ranWith_draws,
    ranWith_send _ _ _ _ _ _ _ (by decide)]
  rfl

theorem prologueCfg_eq (s : State) :
    issueIncrements s.params.cfgSkip (position .cfg s) = ranWith (writePrologue s.params .cfg) [] s.draws s := by
  rw [position_eq_ranWith, issueIncrements_eq_ranWith, ranWith_draws, ranWith_sends _ _ _ _ _ _ (by simp [cmdClass])]
  rfl

/-- READ_REGION that runs (R113, R123): it reads `k` words, and ends with `ABORTED` where that is not all of them. -/
theorem readBody_eq (rgn : Region) (n : Nat) (s : State) :
    ∃ k rx d r, rx.length = k ∧ (∀ bs ∈ rx, bs.length = 16) ∧ (r = .ok ∧ k = n ∨ r = .aborted ∧ k < n) ∧
      readLoop (readCmd rgn) n 0 [] (position rgn s) =
        answered r (rx.map wordOfBits) (ranWith (readCommands s.params rgn k) rx d s) := by
  obtain ⟨k, rx, d, r, hk, hrx, hr, h⟩ := readLoop_eq (readCmd rgn) (readCmd_reads rgn) n 0 [] (position rgn s)
  refine ⟨k, rx, d, r, hk, hrx, hr, ?_⟩
  rw [h, position_eq_ranWith, complete_eq_answered, readCommands_eq]
  have hs : ∀ x ∈ [if rgn = .cfg then (Cmd.loadConfig, s.params.ldcfgPayload) else (Cmd.resetAddress, 0)],
      cmdClass x.1 ≠ .inp := by
    cases rgn <;> simp [cmdClass]
  rw [ranWith_sends _ _ _ _ _ _ hs]
  rfl

/-- WRITE_REGION that runs (R119 to R124): it programs `k` words, and ends with `ABORTED` at the start of a latch group
where that is not all of them. -/
theorem writeBody_eq (rgn : Region) (n l : Nat) (ws : List Word) (s : State) :
    ∃ k d r, (r = .ok ∧ k = ws.length ∨ r = .aborted ∧ k < ws.length ∧ 1 ≤ k ∧ k % l = 0) ∧
      writeLoop (loadCmd rgn) n l ws 0 (ranWith (writePrologue s.params rgn) [] s.draws s) =
        answered r []
          (ranWith (writePrologue s.params rgn ++ loadCommands (loadCmd rgn) n l 0 (ws.take k)) [] d s) := by
  obtain ⟨k, d, r, hr, h⟩ := writeLoop_eq (loadCmd rgn) (loadCmd_sends rgn) n l 0 ws
    (ranWith (writePrologue s.params rgn) [] s.draws s)
  refine ⟨k, d, r, by simpa using hr, ?_⟩
  rw [h, complete_eq_answered, ranWith_sends _ _ _ _ _ _ (writePrologue_sends _ _)]

/-- How the session, MCLR and the cursor shadow can move in a request that is not refused (R17, R18, R22). -/
structure Moves (i : Instr) (s : State) (items : List TraceItem) (m : Session) (k : Cursor) (τ : Timing) : Prop where
  session : m = if i = .enterProg [] ∨ i = .icspKey then .prog
    else if i = .exitProg [] ∨ i = .resetTarget [] then .normal else s.session
  mclr : (i = .enterProg [] ∨ i = .icspKey) ∧ (∀ l, (linesAfter l items).mclr = false) ∨
    (i = .exitProg [] ∨ i = .resetTarget []) ∧ (∀ l, (linesAfter l items).mclr = true) ∨
    (i ≠ .enterProg [] ∧ i ≠ .icspKey ∧ i ≠ .exitProg [] ∧ i ≠ .resetTarget []) ∧ MclrStays items
  shadow : k.valid = true → k = s.cursor ∧ m = s.session ∨ m = .prog
  timing : τ = s.timing ∨ (∃ idx ops, i = .setTiming idx ops) ∧ items = []

/-- What `exec` can do with an instruction: it is refused, with nothing but the result, `fault_seen` and the port changed;
or it plays whole waveforms against the environment as it is, or as a raw request or a command stream meets it, moves the
session, MCLR, the shadow and the timing registers as `Moves` says, takes draws, and is answered with `OK` or
`ABORTED`. -/
def Effect (i : Instr) (s : State) : Prop :=
  (∃ r, r.isFault = true ∧ exec i s = .next (refusedWith r s)) ∨
  ∃ env items m k τ d r data, (env = s.env ∨ env = envRaw s.env ∨ env = envCommand s.env) ∧ (r = .ok ∨ r = .aborted) ∧
    Whole s.timing.tEdge.toNat items ∧ Moves i s items m k τ ∧
    exec i s = .next (answered r data
      { played items { s with env := env } with session := m, cursor := k, timing := τ, draws := d })

/-- The instruction is none of the mode-control requests that are performed, nor the key. -/
def NoMode (i : Instr) : Prop := i ≠ .enterProg [] ∧ i ≠ .icspKey ∧ i ≠ .exitProg [] ∧ i ≠ .resetTarget []

theorem Moves.still {i : Instr} {s : State} {items : List TraceItem} {k : Cursor} {τ : Timing} (h : NoMode i)
    (hm : MclrStays items) (hk : k.valid = true → k = s.cursor ∨ s.session = .prog)
    (hτ : τ = s.timing ∨ (∃ idx ops, i = .setTiming idx ops) ∧ items = []) : Moves i s items s.session k τ where
  session := by simp [h.1, h.2.1, h.2.2.1, h.2.2.2]
  mclr := .inr (.inr ⟨h, hm⟩)
  shadow hv := (hk hv).imp (fun h => ⟨h, rfl⟩) id
  timing := hτ

theorem Effect.refused {i : Instr} {s : State} (r : Result) (hr : r.isFault = true)
    (h : exec i s = .next (refusedWith r s)) : Effect i s := .inl ⟨r, hr, h⟩

theorem Effect.ran {i : Instr} {s : State} (hn : NoMode i) (cs : List (Cmd × Payload)) (rx : List (List Bool))
    (d : Draws) (r : Result) (data : List Word) (hr : r = .ok ∨ r = .aborted) (hp : s.session = .prog)
    (h : exec i s = .next (answered r data (ranWith cs rx d (arrive s)))) : Effect i s :=
  .inr ⟨_, _, s.session, _, s.timing, d, r, data, .inr (.inr rfl), hr, Whole.reading s.params s.timing cs rx,
    Moves.still hn (MclrStays.reading _ _ _ _) (fun _ => .inr hp) (.inl rfl), h⟩

theorem Effect.sends {i : Instr} {s : State} (hn : NoMode i) (ok : Bool) (c : Cmd) (p : Payload)
    (hc : cmdClass c ≠ .inp) (h : exec i s = .next (commandOp ok (runCommand c p) s)) : Effect i s := by
  simp only [commandOp, refuse_eq_refusedWith, runCommand, complete_eq_answered, issue_eq_ranWith c p (arrive s) hc] at h
  split at h
  · split at h
    · next hp => exact Effect.ran hn _ _ _ _ _ (.inl rfl) hp h
    · exact Effect.refused .eNotProg rfl h
  · exact Effect.refused .eBadArg rfl h

theorem Effect.reads {i : Instr} {s : State} (hn : NoMode i) (ok : Bool) (c : Cmd) (hc : cmdClass c = .inp)
    (h : exec i s = .next (commandOp ok (runRead c) s)) : Effect i s := by
  obtain ⟨bs, d, -, -, he⟩ := issueCmd_eq_ranWith c 0 (arrive s) hc
  simp only [commandOp, refuse_eq_refusedWith, runRead, complete_eq_answered, he] at h
  split at h
  · split at h
    · next hp => exact Effect.ran hn _ _ _ _ _ (.inl rfl) hp h
    · exact Effect.refused .eNotProg rfl h
  · exact Effect.refused .eBadArg rfl h

/-- A request that only its arguments can refuse, played against the environment `s0` meets. -/
theorem Effect.playedOn {i : Instr} {s s0 : State} (hs : s0 = s ∨ s0 = arriveRaw s) (ok : Bool) (items : List TraceItem)
    (m : Session) (k : Cursor) (τ : Timing) (d : Draws) (data : List Word) (hw : Whole s.timing.tEdge.toNat items)
    (hm : ok = true → Moves i s items m k τ)
    (h : exec i s = .next (if ok = true then
      answered .ok data { played items s0 with session := m, cursor := k, timing := τ, draws := d }
      else refusedWith .eBadArg s)) : Effect i s := by
  split at h
  · next ho =>
    obtain rfl | rfl := hs
    · exact .inr ⟨_, items, m, k, τ, d, .ok, data, .inl rfl, .inl rfl, hw, hm ho, h⟩
    · exact .inr ⟨_, items, m, k, τ, d, .ok, data, .inr (.inl rfl), .inl rfl, hw, hm ho, h⟩
  · exact Effect.refused .eBadArg rfl h

theorem Effect.plain {i : Instr} {s : State} (ok : Bool) (items : List TraceItem) (m : Session) (k : Cursor)
    (τ : Timing) (d : Draws) (data : List Word) (hw : Whole s.timing.tEdge.toNat items)
    (hm : ok = true → Moves i s items m k τ)
    (h : exec i s = .next (if ok = true then
      answered .ok data { played items s with session := m, cursor := k, timing := τ, draws := d }
      else refusedWith .eBadArg s)) : Effect i s :=
  Effect.playedOn (.inl rfl) ok items m k τ d data hw hm h

/-- SEND_BITS and RECV_BITS (R90, R91). -/
theorem Effect.raw {i : Instr} {s : State} (hn : NoMode i) (ok : Bool) (items : List TraceItem) (d : Draws)
    (data : List Word) (hw : Whole s.timing.tEdge.toNat items) (hm : MclrStays items)
    (h : exec i s = .next (if ok = true then
      answered .ok data { played items (arriveRaw s) with cursor := { s.cursor with valid := false }, draws := d }
      else refusedWith .eBadArg s)) : Effect i s :=
  Effect.playedOn (.inr rfl) ok items s.session { s.cursor with valid := false } s.timing d data hw
    (fun _ => Moves.still hn hm (fun h => by simp at h) (.inl rfl)) h

theorem Effect.region {i : Instr} {s : State} (hn : NoMode i) (ok : Bool) (n : BitVec 16) (body : State → State)
    (h : exec i s = .next (regionOp ok n body s))
    (hb : ∃ cs rx d r data, (r = .ok ∨ r = .aborted) ∧
      body (arrive s) = answered r data (ranWith cs rx d (arrive s))) : Effect i s := by
  obtain ⟨cs, rx, d, r, data, hr, hb⟩ := hb
  rw [regionOp_eq] at h
  split at h
  · split at h
    · exact .inr ⟨s.env, [], s.session, s.cursor, s.timing, s.draws, .ok, [], .inl rfl, .inl rfl, Whole.nil _,
        Moves.still hn MclrStays.nil (fun _ => .inl rfl) (.inl rfl), h⟩
    · split at h
      · next hp => exact Effect.ran hn cs rx d r data hr hp (by rw [h, hb])
      · exact Effect.refused .eNotProg rfl h
  · exact Effect.refused .eBadArg rfl h

theorem hasOperands_zero (ops : List Word) : hasOperands ops 0 = true ↔ ops = [] := by simp [hasOperands]

theorem mclr_enterItems (p : Params) (t : Timing) (l : Lines) : (linesAfter l (enterItems p t)).mclr = false := by
  rw [enterItems, linesAfter_append, linesAfter_append]
  simp only [linesAfter]
  rw [MclrStays.key]
  rfl

theorem effect_getStatus (ops : List Word) (s : State) : Effect (.getStatus ops) s :=
  Effect.plain (hasOperands ops 0) [] s.session s.cursor s.timing s.draws [] (Whole.nil _)
    (fun _ => Moves.still (by simp [NoMode]) MclrStays.nil (fun _ => .inl rfl) (.inl rfl)) rfl

theorem effect_setTiming (idx : BitVec 16) (ops : List Word) (s : State) : Effect (.setTiming idx ops) s :=
  Effect.plain (indexLegal idx && hasOperands ops 1) [] s.session s.cursor (s.timing.set idx.toNat (operand ops))
    s.draws [] (Whole.nil _)
    (fun _ => Moves.still (by simp [NoMode]) MclrStays.nil (fun _ => .inl rfl) (.inr ⟨⟨_, _, rfl⟩, rfl⟩)) rfl

theorem effect_getTiming (idx : BitVec 16) (ops : List Word) (s : State) : Effect (.getTiming idx ops) s :=
  Effect.plain (indexLegal idx && hasOperands ops 0) [] s.session s.cursor s.timing s.draws
    [s.timing.get idx.toNat] (Whole.nil _)
    (fun _ => Moves.still (by simp [NoMode]) MclrStays.nil (fun _ => .inl rfl) (.inl rfl)) rfl

theorem effect_sendBits (n : BitVec 6) (ops : List Word) (s : State) : Effect (.sendBits n ops) s :=
  Effect.raw (by simp [NoMode]) (bitsLegal s.params n && hasOperands ops 1) _ s.draws []
    (Whole.send s.timing.tEdge.toNat n.toNat (operand ops).toNat) (MclrStays.send _ _ _)
    (by simp only [exec, execSendBits, plainOp, sendBits_eq_played]; rfl)

theorem effect_recvBits (n : BitVec 6) (ops : List Word) (s : State) : Effect (.recvBits n ops) s := by
  obtain ⟨bs, d, -, -, h⟩ := recvBits_eq n.toNat (arriveRaw s)
  exact Effect.raw (by simp [NoMode]) (bitsLegal s.params n && hasOperands ops 0) _ d
    [BitVec.ofNat 32 (bitsValue bs)] (Whole.recv s.timing.tEdge.toNat bs) (MclrStays.recv _ _)
    (by simp only [exec, execRecvBits, plainOp, h]; rfl)

theorem Whole.enter (p : Params) (t : Timing) : Whole t.tEdge.toNat (enterItems p t) :=
  ((((((Whole.wait _ _).append (Whole.mclr _ _)).append (Whole.wait _ _)).append (Whole.mclr _ _)).append
    (Whole.wait _ _)).append (Whole.key _ _)).append (Whole.wait _ _)

theorem Whole.reset (t : Timing) : Whole t.tEdge.toNat (resetItems t) :=
  (((Whole.mclr _ _).append (Whole.wait _ _)).append (Whole.mclr _ _)).append (Whole.wait _ _)

theorem effect_enterProg (ops : List Word) (s : State) : Effect (.enterProg ops) s := by
  refine Effect.plain (hasOperands ops 0) (enterItems s.params s.timing) .prog cursorCleared s.timing s.draws []
    (Whole.enter _ _) (fun ho => ?_)
    (by simp only [exec, execEnterProg, plainOp, enterWaveform_eq_played]
        generalize enterItems s.params s.timing = items
        rfl)
  rw [hasOperands_zero] at ho
  subst ho
  exact ⟨by simp, .inl ⟨.inl rfl, mclr_enterItems _ _⟩, fun h => by simp [cursorCleared] at h, .inl rfl⟩

theorem effect_exitProg (ops : List Word) (s : State) : Effect (.exitProg ops) s := by
  refine Effect.plain (hasOperands ops 0) [.event (.mclr true)] .normal cursorCleared s.timing s.draws []
    (Whole.mclr _ _) (fun ho => ?_) rfl
  rw [hasOperands_zero] at ho
  subst ho
  exact ⟨by simp, .inr (.inl ⟨.inl rfl, fun _ => rfl⟩), fun h => by simp [cursorCleared] at h, .inl rfl⟩

theorem effect_resetTarget (ops : List Word) (s : State) : Effect (.resetTarget ops) s := by
  refine Effect.plain (hasOperands ops 0) (resetItems s.timing) .normal cursorCleared s.timing s.draws []
    (Whole.reset _) (fun ho => ?_) (by simp only [exec, execResetTarget, plainOp, resetWaveform_eq_played]; rfl)
  rw [hasOperands_zero] at ho
  subst ho
  exact ⟨by simp, .inr (.inl ⟨.inr rfl, fun _ => rfl⟩), fun h => by simp [cursorCleared] at h, .inl rfl⟩

theorem effect_readRegion (rgn : Region) (n : BitVec 16) (ops : List Word) (s : State) :
    Effect (.readRegion rgn n ops) s := by
  obtain ⟨k, rx, d, r, -, -, hr, h⟩ := readBody_eq rgn n.toNat (arrive s)
  exact Effect.region (by simp [NoMode]) _ _ _ rfl ⟨_, _, _, r, _, hr.imp And.left And.left, h⟩

theorem effect_eraseRegionPm (n : BitVec 16) (ops : List Word) (s : State) : Effect (.eraseRegionPm n ops) s :=
  Effect.region (by simp [NoMode]) _ _ _ rfl
    ⟨_, _, _, .ok, _, .inl rfl, by rw [erasePm_eq_ranWith, complete_eq_answered]⟩

theorem effect_eraseRegionDm (n : BitVec 16) (ops : List Word) (s : State) : Effect (.eraseRegionDm n ops) s :=
  Effect.region (by simp [NoMode]) _ _ _ rfl
    ⟨_, _, _, .ok, _, .inl rfl, by rw [issue_eq_ranWith _ _ _ (by decide), complete_eq_answered]⟩

theorem effect_writeRegionPm (n : BitVec 16) (ops : List Word) (s : State) : Effect (.writeRegionPm n ops) s := by
  obtain ⟨k, d, r, hr, h⟩ := writeBody_eq .pm n.toNat ((arrive s).params.latchSize .pm) ops (arrive s)
  refine Effect.region (by simp [NoMode]) _ _ _ rfl ⟨_, [], d, r, [], hr.imp And.left And.left, by rw [prologuePm_eq, h]⟩

theorem effect_writeRegionDm (n : BitVec 16) (ops : List Word) (s : State) : Effect (.writeRegionDm n ops) s := by
  obtain ⟨k, d, r, hr, h⟩ := writeBody_eq .dm n.toNat ((arrive s).params.latchSize .dm) ops (arrive s)
  refine Effect.region (by simp [NoMode]) _ _ _ rfl ⟨_, [], d, r, [], hr.imp And.left And.left, by rw [prologueDm_eq, h]⟩

theorem effect_writeRegionCfg (n : BitVec 16) (ops : List Word) (s : State) : Effect (.writeRegionCfg n ops) s := by
  obtain ⟨k, d, r, hr, h⟩ := writeBody_eq .cfg n.toNat ((arrive s).params.latchSize .cfg) ops (arrive s)
  refine Effect.region (by simp [NoMode]) _ _ _ rfl ⟨_, [], d, r, [], hr.imp And.left And.left, by rw [prologueCfg_eq, h]⟩

theorem effect_icspKey (s : State) : Effect .icspKey s :=
  Effect.plain true (enterItems s.params s.timing) .prog cursorCleared s.timing s.draws [] (Whole.enter _ _)
    (fun _ => ⟨by simp, .inl ⟨.inr rfl, mclr_enterItems _ _⟩, fun h => by simp [cursorCleared] at h, .inl rfl⟩)
    (by simp only [exec, execIcspKey, enterWaveform_eq_played]
        generalize enterItems s.params s.timing = items
        rfl)

/-- The inversion of `exec`: every instruction has one of the two effects. -/
theorem exec_effect (i : Instr) (s : State) : Effect i s := by
  cases i with
  | getStatus ops => exact effect_getStatus ops s
  | setTiming idx ops => exact effect_setTiming idx ops s
  | getTiming idx ops => exact effect_getTiming idx ops s
  | sendBits n ops => exact effect_sendBits n ops s
  | recvBits n ops => exact effect_recvBits n ops s
  | enterProg ops => exact effect_enterProg ops s
  | exitProg ops => exact effect_exitProg ops s
  | resetTarget ops => exact effect_resetTarget ops s
  | cmdLoadConfig ops => exact Effect.sends (by simp [NoMode]) _ _ _ (by decide) rfl
  | cmdLoadDataPm ops => exact Effect.sends (by simp [NoMode]) _ _ _ (by decide) rfl
  | cmdLoadDataDm ops => exact Effect.sends (by simp [NoMode]) _ _ _ (by decide) rfl
  | cmdReadDataPm ops => exact Effect.reads (by simp [NoMode]) _ _ (by decide) rfl
  | cmdReadDataDm ops => exact Effect.reads (by simp [NoMode]) _ _ (by decide) rfl
  | cmdIncrementAddress ops => exact Effect.sends (by simp [NoMode]) _ _ _ (by decide) rfl
  | cmdResetAddress ops => exact Effect.sends (by simp [NoMode]) _ _ _ (by decide) rfl
  | cmdBeginIntProg ops => exact Effect.sends (by simp [NoMode]) _ _ _ (by decide) rfl
  | cmdBulkErasePm ops => exact Effect.sends (by simp [NoMode]) _ _ _ (by decide) rfl
  | cmdBulkEraseDm ops => exact Effect.sends (by simp [NoMode]) _ _ _ (by decide) rfl
  | readRegion rgn n ops => exact effect_readRegion rgn n ops s
  | eraseRegionPm n ops => exact effect_eraseRegionPm n ops s
  | eraseRegionDm n ops => exact effect_eraseRegionDm n ops s
  | eraseRegionCfg n ops => exact Effect.refused .eBadArg rfl rfl
  | writeRegionPm n ops => exact effect_writeRegionPm n ops s
  | writeRegionDm n ops => exact effect_writeRegionDm n ops s
  | writeRegionCfg n ops => exact effect_writeRegionCfg n ops s
  | icspLoadConfiguration payload => exact Effect.sends (by simp [NoMode]) true _ _ (by decide) rfl
  | icspLoadDataProgramMemory payload => exact Effect.sends (by simp [NoMode]) true _ _ (by decide) rfl
  | icspLoadDataDataMemory payload => exact Effect.sends (by simp [NoMode]) true _ _ (by decide) rfl
  | icspReadDataProgramMemory => exact Effect.reads (by simp [NoMode]) true _ (by decide) rfl
  | icspReadDataDataMemory => exact Effect.reads (by simp [NoMode]) true _ (by decide) rfl
  | icspIncrementAddress => exact Effect.sends (by simp [NoMode]) true _ _ (by decide) rfl
  | icspResetAddress => exact Effect.sends (by simp [NoMode]) true _ _ (by decide) rfl
  | icspBeginInternallyTimedProgramming => exact Effect.sends (by simp [NoMode]) true _ _ (by decide) rfl
  | icspBulkEraseProgramMemory => exact Effect.sends (by simp [NoMode]) true _ _ (by decide) rfl
  | icspBulkEraseDataMemory => exact Effect.sends (by simp [NoMode]) true _ _ (by decide) rfl
  | icspKey => exact effect_icspKey s

theorem commandOp_load (w : Word) (c : Cmd) (s : State) :
    commandOp (hasOperands [w] 1) (runCommand c (operandPayload (operand [w]))) s =
      commandOp true (runCommand c (w.extractLsb' 0 14)) s := by
  rw [operandPayload_eq]; rfl

theorem loadForm_eq_some {c c' : Cmd} {ops : List Word} {p : Payload} (h : loadForm c ops = some (c', p)) :
    ∃ w, ops = [w] ∧ c' = c ∧ p = w.extractLsb' 0 14 := by
  match ops, h with
  | [w], h => cases h; exact ⟨w, rfl, rfl, rfl⟩

theorem bareForm_eq_some {c c' : Cmd} {ops : List Word} {p : Payload} (h : bareForm c ops = some (c', p)) :
    ops = [] ∧ c' = c ∧ p = 0 := by
  match ops, h with
  | [], h => cases h; exact ⟨rfl, rfl, rfl⟩

/-- An instruction that asks for a command is that command: sent, or read (R98 to R109). -/
theorem exec_command {i : Instr} {c : Cmd} {p : Payload} (s : State) (h : commandForm i = some (c, p)) :
    cmdClass c ≠ .inp ∧ exec i s = .next (commandOp true (runCommand c p) s) ∨
    cmdClass c = .inp ∧ p = 0 ∧ exec i s = .next (commandOp true (runRead c) s) := by
  cases i <;> simp only [commandForm, reduceCtorEq, Option.some.injEq, Prod.mk.injEq] at h
  all_goals
    first
    | obtain ⟨w, rfl, rfl, rfl⟩ := loadForm_eq_some h
      exact .inl ⟨by decide, congrArg Host.Outcome.next (commandOp_load w _ s)⟩
    | obtain ⟨rfl, rfl, rfl⟩ := bareForm_eq_some h
    | obtain ⟨rfl, rfl⟩ := h
  all_goals
    first
    | refine .inl ⟨by decide, ?_⟩
      rfl
    | refine .inr ⟨by decide, rfl, ?_⟩
      rfl

/-- The inversion of `exec` for a given next state. -/
theorem exec_next {i : Instr} {s t : State} (h : exec i s = .next t) :
    (∃ r, r.isFault = true ∧ t = refusedWith r s) ∨
    ∃ env items m k τ d r data, (env = s.env ∨ env = envRaw s.env ∨ env = envCommand s.env) ∧ (r = .ok ∨ r = .aborted) ∧
      Whole s.timing.tEdge.toNat items ∧ Moves i s items m k τ ∧
      t = answered r data
        { played items { s with env := env } with session := m, cursor := k, timing := τ, draws := d } := by
  rcases exec_effect i s with ⟨r, hr, he⟩ | ⟨env, items, m, k, τ, d, r, data, hv, hr, hw, hm, he⟩
  · rw [h] at he
    cases he
    exact .inl ⟨r, hr, rfl⟩
  · rw [h] at he
    cases he
    exact .inr ⟨env, items, m, k, τ, d, r, data, hv, hr, hw, hm, rfl⟩

/-- A request any session may make, by its argument check (R136). -/
theorem plainOp_eq (ok : Bool) (body : State → State) (s : State) :
    plainOp ok body s = if ok = true then body s else refusedWith .eBadArg s := rfl

/-- A command, by its argument check and its session check (R99, R136). -/
theorem commandOp_eq (ok : Bool) (body : State → State) (s : State) :
    commandOp ok body s =
      if ok = true then if s.session = .prog then body (arrive s) else refusedWith .eNotProg s
      else refusedWith .eBadArg s := rfl

end Sys2Proof.Machine
end

