-- ==== Sys2Proof/Laws/Memory.lean ====
section
/-! SUPPORT. Every operation over a target memory or a latch map keeps its canonical form, and what a write does to what
is read. -/

namespace Sys2Proof.Machine

theorem cellsRiseFrom_mono {α : Type} {lo lo' : Nat} (h : lo' ≤ lo) (m : List (Nat × α))
    (hm : cellsRiseFrom lo m = true) : cellsRiseFrom lo' m = true := by
  cases m with
  | nil => rfl
  | cons c m =>
    simp only [cellsRiseFrom, Bool.and_eq_true, decide_eq_true_eq] at hm ⊢
    exact ⟨by omega, hm.2⟩

theorem cellsRiseFrom_erase {α : Type} {lo : Nat} (m : List (Nat × α)) (x : Nat) (hm : cellsRiseFrom lo m = true) :
    cellsRiseFrom lo (cellErase m x) = true := by
  induction m generalizing lo with
  | nil => rfl
  | cons c m ih =>
    simp only [cellsRiseFrom, Bool.and_eq_true, decide_eq_true_eq] at hm
    simp only [cellErase]
    split
    · exact cellsRiseFrom_mono (by omega) m hm.2
    · simp only [cellsRiseFrom, Bool.and_eq_true, decide_eq_true_eq]
      exact ⟨hm.1, ih hm.2⟩

theorem cellsRiseFrom_insert {α : Type} {lo : Nat} (m : List (Nat × α)) (x : Nat) (v : α) (hx : lo ≤ x)
    (hm : cellsRiseFrom lo m = true) : cellsRiseFrom lo (cellInsert m x v) = true := by
  induction m generalizing lo with
  | nil => simp [cellInsert, cellsRiseFrom, hx]
  | cons c m ih =>
    simp only [cellsRiseFrom, Bool.and_eq_true, decide_eq_true_eq] at hm
    simp only [cellInsert]
    split
    · next h =>
      simp only [cellsRiseFrom, Bool.and_eq_true, decide_eq_true_eq]
      exact ⟨hx, by omega, hm.2⟩
    · split
      · next h =>
        simp only [cellsRiseFrom, Bool.and_eq_true, decide_eq_true_eq]
        exact ⟨hx, h ▸ hm.2⟩
      · simp only [cellsRiseFrom, Bool.and_eq_true, decide_eq_true_eq]
        exact ⟨hm.1, ih (by omega) hm.2⟩

theorem mem_cellErase {α : Type} {m : List (Nat × α)} {x : Nat} {c : Nat × α} (h : c ∈ cellErase m x) : c ∈ m := by
  induction m with
  | nil => simp [cellErase] at h
  | cons d m ih =>
    simp only [cellErase] at h
    split at h
    · exact List.mem_cons_of_mem _ h
    · rcases List.mem_cons.1 h with h | h
      · exact List.mem_cons.2 (.inl h)
      · exact List.mem_cons_of_mem _ (ih h)

theorem mem_cellInsert {α : Type} {m : List (Nat × α)} {x : Nat} {v : α} {c : Nat × α} (h : c ∈ cellInsert m x v) :
    c = (x, v) ∨ c ∈ m := by
  induction m with
  | nil => simpa [cellInsert] using h
  | cons d m ih =>
    simp only [cellInsert] at h
    split at h
    · simpa using h
    · split at h
      · rcases List.mem_cons.1 h with h | h
        · exact .inl h
        · exact .inr (List.mem_cons_of_mem _ h)
      · rcases List.mem_cons.1 h with h | h
        · exact .inr (List.mem_cons.2 (.inl h))
        · exact (ih h).imp_right (List.mem_cons_of_mem _)

/-- Putting a word in a partial map keeps its form. -/
theorem cellInsert_wf {α : Type} {m : List (Nat × α)} (x : Nat) (v : α) (h : cellsWf m = true) :
    cellsWf (cellInsert m x v) = true := cellsRiseFrom_insert m x v (Nat.zero_le _) h

theorem Memory.wf_iff (m : Memory) : m.wf = true ↔ cellsWf m.cells = true ∧ ∀ c ∈ m.cells, c.2 ≠ m.rest := by
  simp [Memory.wf]

@[simp] theorem memWrite_rest (m : Memory) (x : Nat) (v : Option Payload) : (memWrite m x v).rest = m.rest := rfl

/-- A write keeps the canonical form of a memory. -/
theorem memWrite_wf {m : Memory} (x : Nat) (v : Option Payload) (h : m.wf = true) : (memWrite m x v).wf = true := by
  rw [Memory.wf_iff] at h ⊢
  simp only [memWrite]
  split
  · exact ⟨cellsRiseFrom_erase m.cells x h.1, fun c hc => h.2 c (mem_cellErase hc)⟩
  · next hv =>
    refine ⟨cellInsert_wf x v h.1, fun c hc => ?_⟩
    rcases mem_cellInsert hc with rfl | hc
    · exact hv
    · exact h.2 c hc

theorem Memory.fill_wf (v : Option Payload) : (Memory.fill v).wf = true := rfl

/-- A memory made of given words is canonical. -/
theorem Memory.given_wf (blank : Payload) (ws : List WordCell) : (Memory.given blank ws).wf = true := by
  have key : ∀ (ws : List WordCell) (m : Memory), m.wf = true →
      (ws.foldl (fun m c => memWrite m c.1 (some c.2)) m).wf = true := by
    intro ws
    induction ws with
    | nil => exact fun _ h => h
    | cons c ws ih => exact fun m h => ih _ (memWrite_wf _ _ h)
  exact key ws _ (Memory.fill_wf _)

/-- Words put at their offsets keep the form (R60). -/
theorem commitWords_wf (has : Nat → Bool) (ws : List (Nat × Option Payload)) {m : Memory} (h : m.wf = true) :
    (commitWords has ws m).wf = true := by
  induction ws generalizing m with
  | nil => exact h
  | cons c ws ih =>
    simp only [commitWords]
    split
    · exact ih (memWrite_wf _ _ h)
    · exact ih h

end Sys2Proof.Machine
end

