-- ==== Sys2Proof/Laws/PerInstr.lean ====
section
/-! SUPPORT. A law of every instruction as syntax: the encoding of a well-formed host request carries exactly the operand
words its header asks for (spec/30_encoding.md R75). -/

namespace Sys2Proof.Laws

/-- Under every choice of opcode values, a well-formed instruction is encoded as a request whose operand list has the
length R75 gives its header, or as a unit of the wire. -/
def OperandCount.Statement (i : Instr) : Prop :=
  ∀ p : Params, WellFormed p i = true →
    match encode p i with
    | .request h ops => ops.length = operandWords h
    | .command _ _ => True
    | .key _ => True

theorem wfOperands_length {ops : List Word} {n : Nat} (h : wfOperands ops n = true) : ops.length = n :=
  of_decide_eq_true h

theorem OperandCount.getStatus (ops : List Word) : OperandCount.Statement (.getStatus ops) := by
  intro _ h
  simpa [encode, plainRequest, operandWords] using wfOperands_length h

theorem OperandCount.setTiming (idx : BitVec 16) (ops : List Word) : OperandCount.Statement (.setTiming idx ops) := by
  intro _ h
  simpa [encode, plainRequest, operandWords] using wfOperands_length (Bool.and_eq_true_iff.1 h).2

theorem OperandCount.getTiming (idx : BitVec 16) (ops : List Word) : OperandCount.Statement (.getTiming idx ops) := by
  intro _ h
  simpa [encode, plainRequest, operandWords] using wfOperands_length (Bool.and_eq_true_iff.1 h).2

theorem OperandCount.sendBits (n : BitVec 6) (ops : List Word) : OperandCount.Statement (.sendBits n ops) := by
  intro _ h
  simpa [encode, plainRequest, operandWords] using wfOperands_length (Bool.and_eq_true_iff.1 h).2

theorem OperandCount.recvBits (n : BitVec 6) (ops : List Word) : OperandCount.Statement (.recvBits n ops) := by
  intro _ h
  simpa [encode, plainRequest, operandWords] using wfOperands_length (Bool.and_eq_true_iff.1 h).2

theorem OperandCount.enterProg (ops : List Word) : OperandCount.Statement (.enterProg ops) := by
  intro _ h
  simpa [encode, plainRequest, operandWords] using wfOperands_length h

theorem OperandCount.exitProg (ops : List Word) : OperandCount.Statement (.exitProg ops) := by
  intro _ h
  simpa [encode, plainRequest, operandWords] using wfOperands_length h

theorem OperandCount.resetTarget (ops : List Word) : OperandCount.Statement (.resetTarget ops) := by
  intro _ h
  simpa [encode, plainRequest, operandWords] using wfOperands_length h

theorem OperandCount.cmdLoadConfig (ops : List Word) : OperandCount.Statement (.cmdLoadConfig ops) := by
  intro _ h
  simpa [encode, plainRequest, operandWords] using wfOperands_length h

theorem OperandCount.cmdLoadDataPm (ops : List Word) : OperandCount.Statement (.cmdLoadDataPm ops) := by
  intro _ h
  simpa [encode, plainRequest, operandWords] using wfOperands_length h

theorem OperandCount.cmdLoadDataDm (ops : List Word) : OperandCount.Statement (.cmdLoadDataDm ops) := by
  intro _ h
  simpa [encode, plainRequest, operandWords] using wfOperands_length h

theorem OperandCount.cmdReadDataPm (ops : List Word) : OperandCount.Statement (.cmdReadDataPm ops) := by
  intro _ h
  simpa [encode, plainRequest, operandWords] using wfOperands_length h

theorem OperandCount.cmdReadDataDm (ops : List Word) : OperandCount.Statement (.cmdReadDataDm ops) := by
  intro _ h
  simpa [encode, plainRequest, operandWords] using wfOperands_length h

theorem OperandCount.cmdIncrementAddress (ops : List Word) : OperandCount.Statement (.cmdIncrementAddress ops) := by
  intro _ h
  simpa [encode, plainRequest, operandWords] using wfOperands_length h

theorem OperandCount.cmdResetAddress (ops : List Word) : OperandCount.Statement (.cmdResetAddress ops) := by
  intro _ h
  simpa [encode, plainRequest, operandWords] using wfOperands_length h

theorem OperandCount.cmdBeginIntProg (ops : List Word) : OperandCount.Statement (.cmdBeginIntProg ops) := by
  intro _ h
  simpa [encode, plainRequest, operandWords] using wfOperands_length h

theorem OperandCount.cmdBulkErasePm (ops : List Word) : OperandCount.Statement (.cmdBulkErasePm ops) := by
  intro _ h
  simpa [encode, plainRequest, operandWords] using wfOperands_length h

theorem OperandCount.cmdBulkEraseDm (ops : List Word) : OperandCount.Statement (.cmdBulkEraseDm ops) := by
  intro _ h
  simpa [encode, plainRequest, operandWords] using wfOperands_length h

theorem OperandCount.readRegion (rgn : Region) (count : BitVec 16) (ops : List Word) : OperandCount.Statement (.readRegion rgn count ops) := by
  intro _ h
  simpa [encode, plainRequest, operandWords] using wfOperands_length h

theorem OperandCount.eraseRegionPm (count : BitVec 16) (ops : List Word) : OperandCount.Statement (.eraseRegionPm count ops) := by
  intro _ h
  simpa [encode, plainRequest, operandWords] using wfOperands_length h

theorem OperandCount.eraseRegionDm (count : BitVec 16) (ops : List Word) : OperandCount.Statement (.eraseRegionDm count ops) := by
  intro _ h
  simpa [encode, plainRequest, operandWords] using wfOperands_length h

theorem OperandCount.eraseRegionCfg (count : BitVec 16) (ops : List Word) : OperandCount.Statement (.eraseRegionCfg count ops) := fun _ h => by simp [WellFormed] at h

theorem OperandCount.writeRegionPm (count : BitVec 16) (ops : List Word) : OperandCount.Statement (.writeRegionPm count ops) := by
  intro _ h
  simpa [encode, plainRequest, operandWords] using wfOperands_length h

theorem OperandCount.writeRegionDm (count : BitVec 16) (ops : List Word) : OperandCount.Statement (.writeRegionDm count ops) := by
  intro _ h
  simpa [encode, plainRequest, operandWords] using wfOperands_length h

theorem OperandCount.writeRegionCfg (count : BitVec 16) (ops : List Word) : OperandCount.Statement (.writeRegionCfg count ops) := by
  intro _ h
  simpa [encode, plainRequest, operandWords] using wfOperands_length (Bool.and_eq_true_iff.1 h).2

theorem OperandCount.icspLoadConfiguration (payload : Payload) : OperandCount.Statement (.icspLoadConfiguration payload) := fun _ _ => trivial

theorem OperandCount.icspLoadDataProgramMemory (payload : Payload) : OperandCount.Statement (.icspLoadDataProgramMemory payload) := fun _ _ => trivial

theorem OperandCount.icspLoadDataDataMemory (payload : Payload) : OperandCount.Statement (.icspLoadDataDataMemory payload) := fun _ _ => trivial

theorem OperandCount.icspReadDataProgramMemory : OperandCount.Statement .icspReadDataProgramMemory := fun _ _ => trivial

theorem OperandCount.icspReadDataDataMemory : OperandCount.Statement .icspReadDataDataMemory := fun _ _ => trivial

theorem OperandCount.icspIncrementAddress : OperandCount.Statement .icspIncrementAddress := fun _ _ => trivial

theorem OperandCount.icspResetAddress : OperandCount.Statement .icspResetAddress := fun _ _ => trivial

theorem OperandCount.icspBeginInternallyTimedProgramming : OperandCount.Statement .icspBeginInternallyTimedProgramming := fun _ _ => trivial

theorem OperandCount.icspBulkEraseProgramMemory : OperandCount.Statement .icspBulkEraseProgramMemory := fun _ _ => trivial

theorem OperandCount.icspBulkEraseDataMemory : OperandCount.Statement .icspBulkEraseDataMemory := fun _ _ => trivial

theorem OperandCount.icspKey : OperandCount.Statement .icspKey := fun _ _ => trivial

end Sys2Proof.Laws
end

