-- ==== Sys2Proof/Laws/Step.lean ====
section
/-! SUPPORT. What a step can do, said once: it idles, it performs a message, it resets the block, or it performs a message
and cuts it off. -/

namespace Sys2Proof.Machine

/-- A message performed to a next state is refused with a fault, or is the instruction it decodes to. -/
theorem perform_next {m : Message} {s t : State} (h : perform m s = .next t) :
    (∃ r, r.isFault = true ∧ t = refusedWith r s) ∨ ∃ i, decode s.params m = .ok i ∧ exec i s = .next t := by
  unfold perform at h
  split at h
  · next i hi => exact .inr ⟨i, hi, h⟩
  · cases h
    exact .inl ⟨.eBadOp, rfl, rfl⟩
  · cases h
    exact .inl ⟨.eBadArg, rfl, rfl⟩
  · cases h
  · cases h

/-- A message performed only adds to the trace (R10). -/
theorem perform_trace {m : Message} {s t : State} (h : perform m s = .next t) :
    ∃ new : List TraceItem, t.traceRev = new.reverse ++ s.traceRev := by
  rcases perform_next h with ⟨r, -, rfl⟩ | ⟨i, -, hx⟩
  · exact ⟨[], rfl⟩
  · rcases exec_next hx with ⟨r, -, rfl⟩ | ⟨env, items, m, k, τ, d, r, data, -, -, -, -, rfl⟩
    · exact ⟨[], rfl⟩
    · exact ⟨items, rfl⟩

/-- What a step that answers a next state has done. -/
theorem step_next {s t : State} (h : step s = .next t) :
    s.busy = false ∧
      (s.inbox = [] ∧ t = s ∨
        (∃ m rest, s.inbox = .message m :: rest ∧ perform m (accept rest s) = .next t) ∨
        (∃ rest, s.inbox = .reset :: rest ∧ t = blockReset { s with inbox := rest }) ∨
        ∃ m k rest full, s.inbox = .messageThenReset m k :: rest ∧ perform m (accept rest s) = .next full ∧
          t = abandon k (messageTouch s.params m s.env) full (accept rest s)) := by
  unfold step at h
  split at h
  · cases h
  · next hb =>
    refine ⟨by simpa using hb, ?_⟩
    split at h
    · next hi =>
      cases h
      exact .inl ⟨hi, rfl⟩
    · next m rest hi => exact .inr (.inl ⟨m, rest, hi, h⟩)
    · next rest hi =>
      cases h
      exact .inr (.inr (.inl ⟨rest, hi, rfl⟩))
    · next m k rest hi =>
      unfold performThenReset at h
      split at h
      · next full hp =>
        cases h
        exact .inr (.inr (.inr ⟨m, k, rest, full, hi, hp, rfl⟩))
      · cases h
      · cases h

/-- A request cut off leaves a front part of its trace, which does not end with a wait, and the four reset events
(R146). -/
theorem abandon_trace (k : Nat) (touch : RefTarget → RefTarget) (full s : State) (new : List TraceItem)
    (h : full.traceRev = new.reverse ++ s.traceRev) :
    (abandon k touch full s).traceRev =
      State.reset.traceRev ++ ((new.reverse.drop (new.length - k)).dropWhile TraceItem.isWait ++ s.traceRev) := by
  simp [abandon, keptItems, h]

/-- Every field a cut leaves but the trace and the environment. -/
theorem abandon_fields (k : Nat) (touch : RefTarget → RefTarget) (full s : State) :
    (abandon k touch full s).params = s.params ∧ (abandon k touch full s).session = .normal ∧
    (abandon k touch full s).lines = State.reset.lines ∧ (abandon k touch full s).cursor = cursorCleared ∧
    (abandon k touch full s).timing = Timing.reset ∧ (abandon k touch full s).lastResult = .ok ∧
    (abandon k touch full s).faultSeen = false ∧ (abandon k touch full s).busy = false ∧
    (abandon k touch full s).inbox = s.inbox ∧ (abandon k touch full s).responses = s.responses ∧
    (abandon k touch full s).draws = { bits := [], aborts := [], taken := full.draws.taken } :=
  ⟨rfl, rfl, rfl, rfl, rfl, rfl, rfl, rfl, rfl, rfl, rfl⟩

end Sys2Proof.Machine
end

