-- ==== Sys2Proof/Laws/Target.lean ====
section
/-! SUPPORT. The reference target stays well formed under everything it sees. -/

namespace Sys2Proof.Machine

/-- A shift state that fits the mode may be put in. -/
theorem TargetWf.withRx {mclr : Bool} {t : RefTarget} (h : TargetWf mclr t) (rx : Rx) (hr : rxWf t.rmode rx) :
    TargetWf mclr { t with rx := rx } := { h with rxFits := hr }

/-- A cursor inside its width may be put in. -/
theorem TargetWf.withCursor {mclr : Bool} {t : RefTarget} (h : TargetWf mclr t) (sp : Space) (off : Nat)
    (ho : off < 2 ^ t.geo.offBits) : TargetWf mclr { t with rspace := sp, roff := off } := { h with offFits := ho }

/-- Canonical memories may be put in. -/
theorem TargetWf.withMemories {mclr : Bool} {t : RefTarget} (h : TargetWf mclr t) {pm cfg dm : Memory}
    (hp : pm.wf = true) (hc : cfg.wf = true) (hd : dm.wf = true) :
    TargetWf mclr { t with pm := pm, cfg := cfg, dm := dm } := { h with pmWf := hp, cfgWf := hc, dmWf := hd }

/-- The latch maps may be emptied. -/
theorem targetUnlatch_wf {mclr : Bool} {t : RefTarget} (h : TargetWf mclr t) : TargetWf mclr (targetUnlatch t) :=
  { h with latchMainWf := rfl, latchCfgWf := rfl, latchDWf := rfl, runs := fun hm => ⟨(h.runs hm).1, rfl, rfl, rfl⟩ }

theorem targetCommit_wf {mclr : Bool} {t : RefTarget} (pm cfg dm : List (Nat × Option Payload))
    (h : TargetWf mclr t) : TargetWf mclr (targetCommit pm cfg dm t) :=
  h.withMemories (commitWords_wf _ _ h.pmWf) (commitWords_wf _ _ h.cfgWf) (commitWords_wf _ _ h.dmWf)

/-- Begin Programming keeps the target well formed (R60). -/
theorem targetProgram_wf {mclr : Bool} {t : RefTarget} (h : TargetWf mclr t) : TargetWf mclr (targetProgram t) :=
  targetUnlatch_wf (targetCommit_wf _ _ _ h)

theorem targetErasePm_wf {mclr : Bool} {t : RefTarget} (h : TargetWf mclr t) : TargetWf mclr (targetErasePm t) := by
  refine targetUnlatch_wf (h.withMemories (Memory.fill_wf _) ?_ h.dmWf)
  split
  · exact h.cfgWf
  · exact commitWords_wf _ _ h.cfgWf

theorem targetEraseDm_wf {mclr : Bool} {t : RefTarget} (h : TargetWf mclr t) : TargetWf mclr (targetEraseDm t) :=
  targetUnlatch_wf (h.withMemories h.pmWf h.cfgWf (Memory.fill_wf _))

theorem forgetProgram_wf {mclr : Bool} {t : RefTarget} (h : TargetWf mclr t) : TargetWf mclr (forgetProgram t) :=
  h.withMemories (Memory.fill_wf _) (commitWords_wf _ _ h.cfgWf) h.dmWf

theorem forgetData_wf {mclr : Bool} {t : RefTarget} (h : TargetWf mclr t) : TargetWf mclr (forgetData t) :=
  h.withMemories h.pmWf h.cfgWf (Memory.fill_wf _)

theorem forgetAll_wf {mclr : Bool} {t : RefTarget} (h : TargetWf mclr t) : TargetWf mclr (forgetAll t) :=
  forgetData_wf (forgetProgram_wf h)

theorem TargetWf.withDue {mclr : Bool} {t : RefTarget} (h : TargetWf mclr t) (ns : Nat) :
    TargetWf mclr { t with due := ns } := { h with }

theorem targetWait_wf {mclr : Bool} {t : RefTarget} (ns : Nat) (h : TargetWf mclr t) : TargetWf mclr (targetWait ns t) :=
  h.withDue _

/-- A target that is not in `RUN` has MCLR at 0. -/
theorem TargetWf.mclr_low {mclr : Bool} {t : RefTarget} (h : TargetWf mclr t) (hm : t.rmode ≠ .run) : mclr = false := by
  cases mclr with
  | false => rfl
  | true => exact absurd (h.runs rfl).1 hm

/-- What a whole opcode does keeps the target well formed (R55, R59 to R61). -/
theorem targetOpcode_wf {t : RefTarget} (τ : Timing) (h : TargetWf false t) (hm : t.rmode = .lvp) (c : Cmd) :
    TargetWf false (targetOpcode τ c t) := by
  have hu : rxWf t.rmode (.unit []) := by simp [hm, rxWf]
  cases c with
  | loadConfig => exact h.withRx _ (by simp [hm, rxWf, cmdClass])
  | loadDataPm => exact h.withRx _ (by simp [hm, rxWf, cmdClass])
  | loadDataDm => exact h.withRx _ (by simp [hm, rxWf, cmdClass])
  | readDataPm => exact h.withRx _ (by simp [hm, rxWf])
  | readDataDm => exact h.withRx _ (by simp [hm, rxWf])
  | incrementAddress => exact (h.withCursor t.rspace _ (Nat.mod_lt _ (by positivity))).withRx _ hu
  | resetAddress => exact (h.withCursor .main 0 (by positivity)).withRx _ hu
  | beginIntProg => exact ((targetProgram_wf h).withRx _ hu).withDue _
  | bulkErasePm => exact ((targetErasePm_wf h).withRx _ hu).withDue _
  | bulkEraseDm => exact ((targetEraseDm_wf h).withRx _ hu).withDue _

/-- What a whole frame does keeps the target well formed (R55 to R57). -/
theorem targetFrame_wf {t : RefTarget} (h : TargetWf false t) (hm : t.rmode = .lvp) (c : Cmd) (p : Payload) :
    TargetWf false (targetFrame c p t) := by
  have hu : rxWf t.rmode (.unit []) := by simp [hm, rxWf]
  have h' := h.withRx _ hu
  cases c with
  | loadConfig => exact (h.withCursor .cfg 0 (by positivity)).withRx _ hu
  | loadDataPm =>
    simp only [targetFrame]
    split
    · exact { h' with latchMainWf := cellInsert_wf _ _ h.latchMainWf, runs := by simp }
    · exact { h' with latchCfgWf := cellInsert_wf _ _ h.latchCfgWf, runs := by simp }
  | loadDataDm => exact { h' with latchDWf := cellInsert_wf _ _ h.latchDWf, runs := by simp }
  | _ => exact h'

theorem targetKey_wf {t : RefTarget} (h : TargetWf false t) (bits : List Bool) :
    TargetWf false (targetKey bits t) := by
  unfold targetKey
  split
  · exact { h with
      latchMainWf := rfl, latchCfgWf := rfl, latchDWf := rfl
      offFits := show 0 < 2 ^ t.geo.offBits by positivity
      rxFits := by simp [rxWf]
      runs := by simp }
  · exact { h with rxFits := rfl, runs := by simp }

theorem targetUnitBit_wf (p : Params) (τ : Timing) (bits : List Bool) {t : RefTarget} (h : TargetWf false t)
    (hm : t.rmode = .lvp) : TargetWf false (targetUnitBit p τ bits t) := by
  unfold targetUnitBit
  split
  · next hl => exact h.withRx _ (by simpa [hm, rxWf] using hl)
  · split
    · exact targetOpcode_wf τ h hm _
    · exact { h with rxFits := rfl, runs := by simp }

/-- Taking a bit keeps the target well formed (R54, R55). -/
theorem targetTakeBit_wf (p : Params) (τ : Timing) {mclr : Bool} (b : Bool) {t t' : RefTarget} (h : TargetWf mclr t)
    (ht : targetTakeBit p τ b t = some t') : TargetWf mclr t' := by
  have hr := h.rxFits
  unfold targetTakeBit at ht
  split at ht
  · cases ht; exact h
  · cases ht; exact h
  · next hm =>
    have := h.mclr_low (by simp [hm])
    subst this
    split at ht
    · next bits hx =>
      cases ht
      split
      · next hl => exact h.withRx _ (by simpa [hm, rxWf] using hl)
      · exact targetKey_wf h _
    · cases ht; exact h
    · cases ht; exact h
  · next hm =>
    have := h.mclr_low (by simp [hm])
    subst this
    split at ht
    · cases ht
    · split at ht
      · cases ht; exact targetUnitBit_wf p τ _ h hm
      · next c bits hx =>
        simp only [hm, hx, rxWf] at hr
        cases ht
        split
        · next hl => exact h.withRx _ (by simpa [hm, rxWf, hr.1] using hl)
        · exact targetFrame_wf h hm _ _
      · cases ht

/-- The end of a pulse keeps the target well formed (R55). -/
theorem targetPulse_wf {mclr : Bool} {t : RefTarget} (h : TargetWf mclr t) : TargetWf mclr (targetPulse t) := by
  unfold targetPulse
  split
  · next hm hx =>
    refine h.withRx _ ?_
    rw [hm]
    split
    · next hl => exact hl
    · exact Nat.succ_pos 5
  · split
    · exact { h with strayFits := Nat.mod_lt _ (by decide) }
    · exact h
  · exact h

/-- A drive of MCLR keeps the target well formed (R54). -/
theorem targetMclr_wf (l : Lines) (v : Bool) {t : RefTarget} (h : TargetWf l.mclr t) :
    TargetWf v (targetMclr l v t) := by
  cases v with
  | true => exact { h with
      latchMainWf := rfl, latchCfgWf := rfl, latchDWf := rfl, strayFits := Nat.succ_pos 15, rxFits := rfl
      runs := fun _ => ⟨rfl, rfl, rfl, rfl⟩ }
  | false =>
    simp only [targetMclr, Bool.false_eq_true, if_false]
    split
    · exact { h with rxFits := by simp [targetKeywait, rxWf], runs := by simp }
    · exact { h with runs := by simp }

/-- A falling edge seen by a desynchronised target keeps the environment well formed (R54, R55, R147). -/
theorem desyncFall_wf (p : Params) (τ : Timing) (l : Lines) {t : RefTarget} (restarted : Bool)
    (h : TargetWf l.mclr t) : EnvWf l.mclr (desyncFall p τ l t restarted) := by
  unfold desyncFall
  split
  · exact h
  · trivial
  · next ht =>
    split
    · exact h
    · exact h
    · exact forgetAll_wf h
    · split <;> exact targetTakeBit_wf p τ _ h ht

/-- A falling edge keeps the environment well formed (R54, R55). -/
theorem targetFall_wf (p : Params) (τ : Timing) (l : Lines) {t : RefTarget} (h : TargetWf l.mclr t) :
    EnvWf l.mclr (targetFall p τ l t) := by
  unfold targetFall
  split
  · exact desyncFall_wf p τ l false h
  · split
    · split
      · next ht => exact targetTakeBit_wf p τ _ h ht
      · trivial
    · exact targetPulse_wf h

/-- Whatever the environment sees, it stays well formed (R54, R55, R62, R147). -/
theorem envObserve_wf (p : Params) (τ : Timing) (l : Lines) (e : Event) {env : Env} (h : EnvWf l.mclr env) :
    EnvWf (l.apply e).mclr (envObserve p τ l e env) := by
  cases env with
  | oracle => trivial
  | reference t =>
    simp only [envObserve]
    split
    · trivial
    · cases e with
      | mclr v =>
        dsimp only
        split
        · exact targetMclr_wf l v h
        · exact targetMclr_wf l v h
      | clk v =>
        cases v with
        | true => exact h
        | false =>
          dsimp only
          split
          · exact targetFall_wf p τ l h
          · exact h
      | dat v => exact h
      | dir d => exact h
      | sample b => exact h
  | desync t held restarted =>
    simp only [envObserve]
    split
    · trivial
    · cases e with
      | mclr v => exact targetMclr_wf l v h
      | clk v =>
        cases v with
        | true => exact h
        | false =>
          dsimp only
          split
          · exact desyncFall_wf p τ l restarted h
          · exact h
      | dat v => exact h
      | dir d => exact h
      | sample b => exact h

/-- A wait keeps the environment well formed. -/
theorem envWait_wf (ns : Nat) {mclr : Bool} {env : Env} (h : EnvWf mclr env) : EnvWf mclr (envWait ns env) := by
  cases env with
  | oracle => trivial
  | reference t => exact targetWait_wf ns h
  | desync t held restarted => exact targetWait_wf ns h

theorem TargetWf.withRaw {mclr : Bool} {t : RefTarget} (h : TargetWf mclr t) (raw : Bool) :
    TargetWf mclr { t with raw := raw } := { h with }

/-- The start of a raw request keeps the environment well formed. -/
theorem envRaw_wf {mclr : Bool} {env : Env} (h : EnvWf mclr env) : EnvWf mclr (envRaw env) := by
  cases env with
  | oracle => trivial
  | reference t => exact TargetWf.withRaw h true
  | desync t held restarted => exact h

/-- The start of a command stream keeps the environment well formed. -/
theorem envCommand_wf {mclr : Bool} {env : Env} (h : EnvWf mclr env) : EnvWf mclr (envCommand env) := by
  cases env with
  | oracle => trivial
  | reference t =>
    simp only [envCommand]
    split
    · exact h
    · exact TargetWf.withRaw h false
  | desync t held restarted => exact h

/-- A trace keeps the environment well formed. -/
theorem envAfter_wf (p : Params) (τ : Timing) (l : Lines) (items : List TraceItem) {env : Env}
    (h : EnvWf l.mclr env) : EnvWf (linesAfter l items).mclr (envAfter p τ l items env) := by
  induction items generalizing l env with
  | nil => exact h
  | cons x items ih =>
    cases x with
    | event e => exact ih _ (envObserve_wf p τ l e h)
    | wait ns => exact ih _ (envWait_wf ns h)

/-- Losing words keeps the target well formed (R146). -/
theorem loseTouched_wf (t0 : RefTarget) (w : Touch) {mclr : Bool} {t : RefTarget} (h : TargetWf mclr t) :
    TargetWf mclr (loseTouched t0 w t) := by
  cases w with
  | nothing => exact h
  | commands => exact h
  | anything => exact forgetAll_wf h
  | program => exact forgetProgram_wf h
  | data => exact forgetData_wf h
  | latched cfg => exact targetCommit_wf _ _ _ h

theorem messageTouch_wf (p : Params) (m : Message) (env : Env) {mclr : Bool} {t : RefTarget} (h : TargetWf mclr t) :
    TargetWf mclr (messageTouch p m env t) := by
  unfold messageTouch
  split
  · split
    · exact loseTouched_wf _ _ h
    · exact h
  · exact h

/-- A cut keeps the environment well formed where the loss of words keeps the target so (R146). -/
theorem envCut_wf (touch : RefTarget → RefTarget) {mclr : Bool} {env : Env}
    (ht : ∀ t, TargetWf mclr t → TargetWf mclr (touch t)) (h : EnvWf mclr env) : EnvWf mclr (envCut touch env) := by
  cases env with
  | oracle => trivial
  | reference t => exact ht t h
  | desync t held restarted => exact ht t h

end Sys2Proof.Machine
end

