-- ==== Sys2Proof/Laws/Wire.lean ====
section
/-! SUPPORT. What the reference target takes from the lines: bits, opcodes, frames and pulses, each said once. -/

namespace Sys2Proof.Machine

@[simp] theorem targetWait_geo (ns : Nat) (t : RefTarget) : (targetWait ns t).geo = t.geo := rfl
@[simp] theorem targetWait_rmode (ns : Nat) (t : RefTarget) : (targetWait ns t).rmode = t.rmode := rfl
@[simp] theorem targetWait_rspace (ns : Nat) (t : RefTarget) : (targetWait ns t).rspace = t.rspace := rfl
@[simp] theorem targetWait_roff (ns : Nat) (t : RefTarget) : (targetWait ns t).roff = t.roff := rfl
@[simp] theorem targetWait_pm (ns : Nat) (t : RefTarget) : (targetWait ns t).pm = t.pm := rfl
@[simp] theorem targetWait_cfg (ns : Nat) (t : RefTarget) : (targetWait ns t).cfg = t.cfg := rfl
@[simp] theorem targetWait_dm (ns : Nat) (t : RefTarget) : (targetWait ns t).dm = t.dm := rfl
@[simp] theorem targetWait_latchMain (ns : Nat) (t : RefTarget) : (targetWait ns t).latchMain = t.latchMain := rfl
@[simp] theorem targetWait_latchCfg (ns : Nat) (t : RefTarget) : (targetWait ns t).latchCfg = t.latchCfg := rfl
@[simp] theorem targetWait_latchD (ns : Nat) (t : RefTarget) : (targetWait ns t).latchD = t.latchD := rfl
@[simp] theorem targetWait_rx (ns : Nat) (t : RefTarget) : (targetWait ns t).rx = t.rx := rfl
@[simp] theorem targetWait_raw (ns : Nat) (t : RefTarget) : (targetWait ns t).raw = t.raw := rfl
@[simp] theorem targetWait_stray (ns : Nat) (t : RefTarget) : (targetWait ns t).stray = t.stray := rfl
@[simp] theorem targetWait_due (ns : Nat) (t : RefTarget) : (targetWait ns t).due = t.due - ns := rfl

@[simp] theorem targetWait_targetWait (a b : Nat) (t : RefTarget) :
    targetWait b (targetWait a t) = targetWait (a + b) t := by simp [targetWait, Nat.sub_sub]

/-- A settled target does not see time go by. -/
theorem targetWait_settled (ns : Nat) {t : RefTarget} (h : t.due = 0) : targetWait ns t = t := by
  cases t
  simp only at h
  simp [targetWait, h]

/-- The reference target takes the bits of a list in turn, each at a falling edge with a hold of `2 * e` before it and
`e` after (R54, R55, R85). -/
def takeBits (p : Params) (τ : Timing) (e : Nat) : List Bool → RefTarget → Option RefTarget
  | [], t => some t
  | b :: bs, t => (targetTakeBit p τ b (targetWait (e + e) t)).bind fun t => takeBits p τ e bs (targetWait e t)

theorem takeBits_append (p : Params) (τ : Timing) (e : Nat) (a b : List Bool) (t : RefTarget) :
    takeBits p τ e (a ++ b) t = (takeBits p τ e a t).bind (takeBits p τ e b) := by
  induction a generalizing t with
  | nil => rfl
  | cons x a ih =>
    simp only [List.cons_append, takeBits, Option.bind_assoc]
    congr 1
    funext t
    exact ih _

theorem bitsValue_bitsOf (n v : Nat) : bitsValue (bitsOf n v) = v % 2 ^ n := by
  apply Nat.eq_of_testBit_eq
  intro k
  rw [bitsValue_testBit, Nat.testBit_mod_two_pow]
  by_cases h : k < n
  · simp [bitsOf, h]
  · simp [bitsOf, h]

/-- What the raw requests left of a unit: no bit that is sent changes it. -/
def RefTarget.rawPart (t : RefTarget) : Bool × Nat := (t.raw, t.stray)

theorem targetOpcode_rawPart (τ : Timing) (c : Cmd) (t : RefTarget) : (targetOpcode τ c t).rawPart = t.rawPart := by
  cases c <;> rfl

theorem targetFrame_rawPart (c : Cmd) (w : Payload) (t : RefTarget) : (targetFrame c w t).rawPart = t.rawPart := by
  cases c <;> try rfl
  simp only [targetFrame]
  split <;> rfl

theorem targetKey_rawPart (bits : List Bool) (t : RefTarget) : (targetKey bits t).rawPart = t.rawPart := by
  unfold targetKey
  split <;> rfl

theorem targetUnitBit_rawPart (p : Params) (τ : Timing) (bits : List Bool) (t : RefTarget) :
    (targetUnitBit p τ bits t).rawPart = t.rawPart := by
  unfold targetUnitBit
  split
  · rfl
  · split
    · exact targetOpcode_rawPart _ _ _
    · rfl

theorem targetTakeBit_rawPart (p : Params) (τ : Timing) (b : Bool) {t t' : RefTarget}
    (h : targetTakeBit p τ b t = some t') : t'.rawPart = t.rawPart := by
  unfold targetTakeBit at h
  split at h
  · cases h; rfl
  · cases h; rfl
  · split at h
    · cases h
      split
      · rfl
      · exact targetKey_rawPart _ _
    · cases h; rfl
    · cases h; rfl
  · split at h
    · cases h
    · split at h
      · cases h; exact targetUnitBit_rawPart _ _ _ _
      · cases h
        split
        · rfl
        · exact targetFrame_rawPart _ _ _
      · cases h

/-- No bit that is sent cuts a unit, where the command is the block's own or no part of a frame was clocked in. -/
theorem unitCut_out {l : Lines} {t : RefTarget} (hl : l.datDir = .out) (hr : t.raw = false ∨ t.stray = 0) :
    unitCut l t = false := by
  unfold unitCut
  split <;> simp_all
  exact fun h => by simpa [h] using hr

/-- What the lines carry while idle, the target takes bit by bit (R54, R55). -/
theorem envAfter_bits (p : Params) (τ : Timing) (e : Nat) (bs : List Bool) (l : Lines) (t t' : RefTarget)
    (hf : belowFloor τ = false) (hl : LinesIdle l) (hr : t.raw = false ∨ t.stray = 0)
    (h : takeBits p τ e bs t = some t') :
    envAfter p τ l (bs.flatMap (bitItems e)) (.reference t) = .reference t' := by
  induction bs generalizing l t with
  | nil => cases h; rfl
  | cons b bs ih =>
    rw [takeBits, Option.bind_eq_some_iff] at h
    obtain ⟨t1, h1, h2⟩ := h
    have hr1 := targetTakeBit_rawPart p τ b h1
    simp only [RefTarget.rawPart, targetWait_raw, targetWait_stray, Prod.mk.injEq] at hr1
    have hc : unitCut ⟨l.mclr, true, b, .out⟩ (targetWait (e + e) t) = false := unitCut_out rfl hr
    have hs : envAfter p τ l (bitItems e b) (.reference t) = .reference (targetWait e t1) := by
      simp [bitItems, envAfter, envObserve, envWait, Lines.apply, targetFall, hl.2, hc, hf, h1]
    rw [List.flatMap_cons, envAfter_append, hs]
    exact ih _ _ ((Whole.bit e b).idle l hl) (by simpa [hr1.1, hr1.2] using hr) h2

/-- Part of an opcode (R55). -/
theorem takeBits_unit (p : Params) (τ : Timing) (e : Nat) (t : RefTarget) (hm : t.rmode = .lvp) (hd : t.due = 0)
    (bs acc : List Bool) (h : acc.length + bs.length < 6) (hx : t.rx = .unit acc) :
    takeBits p τ e bs t = some { t with rx := .unit (acc ++ bs) } := by
  induction bs generalizing t acc with
  | nil => simp [takeBits, ← hx]
  | cons b bs ih =>
    simp only [List.length_cons] at h
    have h1 : targetTakeBit p τ b t = some { t with rx := .unit (acc ++ [b]) } := by
      simp [targetTakeBit, targetUnitBit, hm, hd, hx, show acc.length + 1 < 6 by omega]
    rw [takeBits, targetWait_settled _ hd, h1, Option.bind_some, targetWait_settled _ (by exact hd)]
    refine (ih { t with rx := .unit (acc ++ [b]) } hm hd (acc ++ [b]) (by simp; omega) rfl).trans ?_
    simp

/-- A whole opcode, and the hold after it (R55, R69). -/
theorem takeBits_opcode (p : Params) (hp : p.wf = true) (τ : Timing) (e : Nat) (t : RefTarget) (hm : t.rmode = .lvp)
    (hd : t.due = 0) (hx : t.rx = .unit []) (c : Cmd) :
    takeBits p τ e (bitsOf Config.wOpc (p.opc c).toNat) t = some (targetWait e (targetOpcode τ c t)) := by
  have hb : bitsOf 6 (p.opc c).toNat = bitsOf 5 (p.opc c).toNat ++ [(p.opc c).toNat.testBit 5] := rfl
  have hv := bitsValue_bitsOf 6 (p.opc c).toNat
  rw [hb, Nat.mod_eq_of_lt (p.opc c).isLt] at hv
  have hl : (bitsOf 5 (p.opc c).toNat).length = 5 := by simp [bitsOf]
  have h1 : targetTakeBit p τ ((p.opc c).toNat.testBit 5) { t with rx := .unit (bitsOf 5 (p.opc c).toNat) } =
      some (targetOpcode τ c { t with rx := .unit (bitsOf 5 (p.opc c).toNat) }) := by
    simp [targetTakeBit, targetUnitBit, hm, hd, hl, hv, cmdOf_opc p hp c]
  have h2 : ∀ rx, targetOpcode τ c { t with rx := rx } = targetOpcode τ c t := by
    intro rx
    cases c <;> rfl
  rw [hb, takeBits_append, takeBits_unit p τ e t hm hd _ [] (by simp [bitsOf]) hx]
  simp only [Option.bind_some, takeBits, List.nil_append]
  rw [targetWait_settled _ (by exact hd), h1, h2, Option.bind_some]

/-- Part of a frame (R55). -/
theorem takeBits_part (p : Params) (τ : Timing) (e : Nat) (c : Cmd) (t : RefTarget) (hm : t.rmode = .lvp)
    (hd : t.due = 0) (bs acc : List Bool) (h : acc.length + bs.length < 16) (hx : t.rx = .frame c acc) :
    takeBits p τ e bs t = some { t with rx := .frame c (acc ++ bs) } := by
  induction bs generalizing t acc with
  | nil => simp [takeBits, ← hx]
  | cons b bs ih =>
    simp only [List.length_cons] at h
    have h1 : targetTakeBit p τ b t = some { t with rx := .frame c (acc ++ [b]) } := by
      simp [targetTakeBit, hm, hd, hx, show acc.length + 1 < 16 by omega]
    rw [takeBits, targetWait_settled _ hd, h1, Option.bind_some, targetWait_settled _ (by exact hd)]
    refine (ih { t with rx := .frame c (acc ++ [b]) } hm hd (acc ++ [b]) (by simp; omega) rfl).trans ?_
    simp

/-- A whole frame (R55). -/
theorem takeBits_frame (p : Params) (τ : Timing) (e : Nat) (c : Cmd) (t : RefTarget) (hm : t.rmode = .lvp)
    (hd : t.due = 0) (hx : t.rx = .frame c []) (w : Payload) :
    takeBits p τ e (bitsOf Config.wFrame (2 * w.toNat)) t = some (targetFrame c w t) := by
  have hw : w.toNat < 2 ^ 14 := w.isLt
  have hb : bitsOf 16 (2 * w.toNat) = bitsOf 15 (2 * w.toNat) ++ [(2 * w.toNat).testBit 15] := rfl
  have hv := bitsValue_bitsOf 16 (2 * w.toNat)
  rw [hb, Nat.mod_eq_of_lt (by omega)] at hv
  have hl : (bitsOf 15 (2 * w.toNat)).length = 15 := by simp [bitsOf]
  have hf : BitVec.ofNat 16 (2 * w.toNat) = frameOf w := by
    apply BitVec.eq_of_toNat_eq
    rw [frameOf_toNat, BitVec.toNat_ofNat, Nat.mod_eq_of_lt (by omega)]
  have h1 : targetTakeBit p τ ((2 * w.toNat).testBit 15) { t with rx := .frame c (bitsOf 15 (2 * w.toNat)) } =
      some (targetFrame c w { t with rx := .frame c (bitsOf 15 (2 * w.toNat)) }) := by
    simp [targetTakeBit, hm, hd, hl, hv, hf, payloadOf_frameOf]
  have h2 : ∀ rx, targetFrame c w { t with rx := rx } = targetFrame c w t := by
    intro rx
    cases c <;> rfl
  have h3 : (targetFrame c w t).due = 0 := by
    cases c <;> try exact hd
    simp only [targetFrame]
    split <;> exact hd
  rw [hb, takeBits_append, takeBits_part p τ e c t hm hd _ [] (by simp [bitsOf]) hx]
  simp only [Option.bind_some, takeBits, List.nil_append]
  rw [targetWait_settled _ (by exact hd), h1, h2, Option.bind_some, targetWait_settled _ h3]

/-- Part of the key: time goes by while it is taken (R54). -/
theorem takeBits_key (p : Params) (τ : Timing) (e : Nat) (t : RefTarget) (hm : t.rmode = .keywait)
    (bs acc : List Bool) (h : acc.length + bs.length < 33) (hx : t.rx = .unit acc) :
    takeBits p τ e bs t = some (targetWait (3 * bs.length * e) { t with rx := .unit (acc ++ bs) }) := by
  induction bs generalizing t acc with
  | nil => simp [takeBits, targetWait, ← hx]
  | cons b bs ih =>
    simp only [List.length_cons] at h
    have h1 : targetTakeBit p τ b (targetWait (e + e) t) =
        some { targetWait (e + e) t with rx := .unit (acc ++ [b]) } := by
      simp [targetTakeBit, hm, hx, show acc.length + 1 < 33 by omega]
    rw [takeBits, h1, Option.bind_some]
    refine (ih (targetWait e { targetWait (e + e) t with rx := .unit (acc ++ [b]) }) hm (acc ++ [b])
      (by simp; omega) rfl).trans ?_
    simp only [targetWait, List.append_assoc, List.cons_append, List.nil_append, List.length_cons, Nat.sub_sub]
    congr 3
    ring

/-- The pulses of a reception carry the target's frame on, and end it with the sixteenth (R55). -/
theorem envAfter_pulses (p : Params) (τ : Timing) (e : Nat) (bs : List Bool) (l : Lines) (t : RefTarget)
    (hf : belowFloor τ = false) (hm : t.rmode = .lvp) (hd : t.due = 0) (raw : Option Frame) (j : Nat)
    (hx : t.rx = .drive raw j) (hl : l.datDir = .inp) (hj : j + bs.length ≤ 16) (hj' : j < 16) :
    envAfter p τ l (bs.flatMap (pulseItems e)) (.reference t) =
      .reference { t with rx := if j + bs.length < 16 then .drive raw (j + bs.length) else .unit [] } := by
  induction bs generalizing l t j with
  | nil => simp [envAfter, ← hx, hj']
  | cons b bs ih =>
    simp only [List.length_cons] at hj
    have hs : envAfter p τ l (pulseItems e b) (.reference t) =
        .reference { t with rx := if j + 1 < 16 then .drive raw (j + 1) else .unit [] } := by
      simp [pulseItems, envAfter, envObserve, envWait, Lines.apply, targetFall, unitCut, hl, hf, targetWait, targetPulse,
        hm, hx, hd]
    rw [List.flatMap_cons, envAfter_append, hs]
    by_cases h : j + 1 < 16
    · rw [if_pos h]
      rw [ih (linesAfter l (pulseItems e b)) { t with rx := .drive raw (j + 1) } hm hd (j + 1) rfl
        (by simp [pulseItems, linesAfter, Lines.apply, hl]) (by omega) h]
      simp [Nat.add_assoc, Nat.add_comm 1]
    · have : bs = [] := by rw [← List.length_eq_zero_iff]; omega
      subst this
      simp [envAfter]

end Sys2Proof.Machine
end

