-- ==== Sys2Proof/Tests/Slice0.lean ====
section
/-! SUPPORT. Small tests: ill-formed terms, decoding of words written out from the tables, one step of each instruction
against spec/95_test_vectors.md, and for each statement with hypotheses a state that meets them. Expected values are the
spec's, not the model's. -/

namespace Sys2Proof.Tests

-- One test after another: each evaluation by the kernel waits in a thread of its own otherwise.
set_option Elab.async false

open Sys2Proof Sys2Proof.Machine

/-! ### Helpers -/

/-- In `PROG`, with MCLR at 0. -/
def prog : State :=
  { State.reset with session := .prog, lines := { mclr := false, clk := false, datOut := false, datDir := .out } }

/-- In `PROG`, with scripted levels of DATA and of `abort`. -/
def scripted (bits aborts : List Bool) : State := { prog with draws := { bits := bits, aborts := aborts, taken := 0 } }

/-- A reference target in `LVP` with a few words that are not blank (95_test_vectors.md, `RT0` cut short). -/
def target : RefTarget :=
  { RefTarget.power Geometry.vectors [(0, 0x0123), (1, 0x1234)] [(6, 0x27A3)] [(0, 0x0012)] with rmode := .lvp }

/-- In `PROG` with the reference target attached. -/
def attached : State := { prog with env := .reference target }

/-- In `PROG` with a valid shadow, as after Load Configuration (status 0x00000190). -/
def positioned : State := { prog with cursor := { valid := true, space := .cfg, off := 0 } }

/-- The state an instruction leaves. -/
def after (i : Instr) (s : State) : State :=
  match exec i s with
  | .next t => t
  | .fault _ => s
  | .refused _ => s

/-- The state a message leaves. -/
def afterMessage (m : Message) (s : State) : State :=
  match perform m s with
  | .next t => t
  | .fault _ => s
  | .refused _ => s

/-- The status word and the data words of the latest response. -/
def reply (s : State) : Option (Word × List Word) := s.responses.head?.map fun r => (r.status, r.data)

/-- What an instruction put on the lines from `s` on. -/
def newItems (i : Instr) (s : State) : List TraceItem := (after i s).trace.drop s.trace.length

/-- The bits an instruction sent. -/
def sent (i : Instr) (s : State) : List Bool := sentBits s.lines (newItems i s)

/-- Wire bits written as the vectors write them, first bit first. -/
def wire (ds : List Nat) : List Bool := ds.map fun d => decide (d = 1)

/-- The reference target attached to a state, or another one. -/
def targetOf (s : State) : RefTarget :=
  match s.env with
  | .reference t => t
  | .desync t _ _ => t
  | .oracle => RefTarget.power Geometry.vectors [] [] []

/-! ### Ill-formed terms, one for each check (R74, R75, R118, R133) -/

theorem test_wf_bits_zero : WellFormed Params.default (.sendBits 0 [1]) = false := by decide
theorem test_wf_bits_high : WellFormed Params.default (.recvBits 33 []) = false := by decide
theorem test_wf_bits_bounds : WellFormed Params.default (.sendBits 1 [1]) = true ∧ WellFormed Params.default (.recvBits 32 []) = true := by decide
theorem test_wf_index : WellFormed Params.default (.setTiming 6 [1]) = false ∧ WellFormed Params.default (.getTiming 5 []) = true := by decide
theorem test_wf_operands : WellFormed Params.default (.enterProg [0]) = false ∧ WellFormed Params.default (.cmdLoadConfig []) = false := by decide
theorem test_wf_write_operands : WellFormed Params.default (.writeRegionPm 2 [1, 2, 3]) = false := by decide
theorem test_wf_config_count : WellFormed Params.default (.writeRegionCfg 1 [7]) = false := by decide
theorem test_wf_erase_config : WellFormed Params.default (.eraseRegionCfg 0 []) = false := by decide

/-! ### Decoding of words written out from R73, R79, R69 and R67 (95_test_vectors.md L2.1) -/

theorem test_decode_getStatus : decode Params.default (.request 0x00000000 []) = .ok (.getStatus []) := by decide
theorem test_decode_setTiming : decode Params.default (.request 0x00030001 [9]) = .ok (.setTiming 3 [9]) := by decide
theorem test_decode_getTiming : decode Params.default (.request 0x00050002 []) = .ok (.getTiming 5 []) := by decide
theorem test_decode_sendBits : decode Params.default (.request 0x00001808 [6]) = .ok (.sendBits 6 [6]) := by decide
theorem test_decode_sendBits_full : decode Params.default (.request 0x00008008 [6]) = .ok (.sendBits 32 [6]) := by decide
theorem test_decode_recvBits : decode Params.default (.request 0x00004009 []) = .ok (.recvBits 16 []) := by decide
theorem test_decode_enterProg : decode Params.default (.request 0x00000010 []) = .ok (.enterProg []) := by decide
theorem test_decode_exitProg : decode Params.default (.request 0x00000011 []) = .ok (.exitProg []) := by decide
theorem test_decode_resetTarget : decode Params.default (.request 0x00000012 []) = .ok (.resetTarget []) := by decide
theorem test_decode_cmdLoadConfig : decode Params.default (.request 0x20 [0]) = .ok (.cmdLoadConfig [0]) := by decide
theorem test_decode_cmdLoadDataPm : decode Params.default (.request 0x21 [1]) = .ok (.cmdLoadDataPm [1]) := by decide
theorem test_decode_cmdLoadDataDm : decode Params.default (.request 0x22 [1]) = .ok (.cmdLoadDataDm [1]) := by decide
theorem test_decode_cmdReadDataPm : decode Params.default (.request 0x23 []) = .ok (.cmdReadDataPm []) := by decide
theorem test_decode_cmdReadDataDm : decode Params.default (.request 0x24 []) = .ok (.cmdReadDataDm []) := by decide
theorem test_decode_cmdIncrement : decode Params.default (.request 0x25 []) = .ok (.cmdIncrementAddress []) := by decide
theorem test_decode_cmdReset : decode Params.default (.request 0x26 []) = .ok (.cmdResetAddress []) := by decide
theorem test_decode_cmdBegin : decode Params.default (.request 0x27 []) = .ok (.cmdBeginIntProg []) := by decide
theorem test_decode_cmdErasePm : decode Params.default (.request 0x28 []) = .ok (.cmdBulkErasePm []) := by decide
theorem test_decode_cmdEraseDm : decode Params.default (.request 0x29 []) = .ok (.cmdBulkEraseDm []) := by decide
theorem test_decode_readCfg : decode Params.default (.request 0x000B0230 []) = .ok (.readRegion .cfg 11 []) := by decide
theorem test_decode_readDm : decode Params.default (.request 0x00020130 []) = .ok (.readRegion .dm 2 []) := by decide
theorem test_decode_erasePm : decode Params.default (.request 0x08000031 []) = .ok (.eraseRegionPm 2048 []) := by decide
theorem test_decode_eraseDm : decode Params.default (.request 0x01000131 []) = .ok (.eraseRegionDm 256 []) := by decide
theorem test_decode_eraseCfg : decode Params.default (.request 0x00000231 []) = .ok (.eraseRegionCfg 0 []) := by decide
theorem test_decode_writePm :
    decode Params.default (.request 0x00010032 [0xAAA]) = .ok (.writeRegionPm 1 [0xAAA]) := by decide
theorem test_decode_writeDm : decode Params.default (.request 0x00000132 []) = .ok (.writeRegionDm 0 []) := by decide
theorem test_decode_writeCfg :
    decode Params.default (.request 0x00020232 [1, 2]) = .ok (.writeRegionCfg 2 [1, 2]) := by decide
theorem test_decode_icspLoadConfiguration :
    decode Params.default (.command 0b000000 0b0000000000000000) = .ok (.icspLoadConfiguration 0) := by decide
theorem test_decode_icspLoadDataPm :
    decode Params.default (.command 0b000010 0b0000001001000110) = .ok (.icspLoadDataProgramMemory 0x0123) := by decide
theorem test_decode_icspLoadDataDm :
    decode Params.default (.command 0b000011 0b0000000000100100) = .ok (.icspLoadDataDataMemory 0x12) := by decide
theorem test_decode_icspReads :
    decode Params.default (.command 0b000100 0) = .ok .icspReadDataProgramMemory ∧
    decode Params.default (.command 0b000101 0) = .ok .icspReadDataDataMemory := by decide
theorem test_decode_icspAddress :
    decode Params.default (.command 0b000110 0) = .ok .icspIncrementAddress ∧
    decode Params.default (.command 0b010110 0) = .ok .icspResetAddress := by decide
theorem test_decode_icspTimed :
    decode Params.default (.command 0b001000 0) = .ok .icspBeginInternallyTimedProgramming ∧
    decode Params.default (.command 0b001001 0) = .ok .icspBulkEraseProgramMemory ∧
    decode Params.default (.command 0b001011 0) = .ok .icspBulkEraseDataMemory := by decide
theorem test_decode_icspKey :
    decode Params.default (.key 0b001001101010000110100100001010000) = .ok .icspKey := by decide
/-- L2.1, rule R84. -/
theorem test_decode_refused :
    decode Params.default (.request 0x00000003 []) = .error .badOp ∧
    decode Params.default (.request 0x000003FF []) = .error .badOp ∧
    decode Params.default (.request 0x00000330 []) = .error .badArg ∧
    decode Params.default (.request 0xFFFF0000 []) = .ok (.getStatus []) := by decide
/-- The three formats of the opcode table, at the widths it gives its rows. -/
theorem test_table_words :
    decodeTableWord 8 0x10 = some (.enterProg []) ∧ decodeTableWord 8 0x16 = some .icspResetAddress ∧
    decodeTableWord 8 0x03 = some (.icspLoadDataDataMemory 0) ∧ decodeTableWord 8 0x25 = some (.cmdIncrementAddress []) ∧
    decodeTableWord 16 0x131 = some (.eraseRegionDm 0 []) ∧ decodeTableWord 16 0x230 = some (.readRegion .cfg 0 []) ∧
    decodeTableWord 40 0x4D434850 = some .icspKey := by decide
theorem test_table_words_whole :
    decodeTableWord 32 0x00000010 = some (.enterProg []) ∧ decodeTableWord 64 0x00001808 = some (.sendBits 6 [0]) ∧
    decodeTableWord 6 0x16 = some .icspResetAddress ∧ decodeTableWord 33 0x4D434850 = some .icspKey ∧
    decodeTableWord 22 (2 * 64) = some (.icspLoadConfiguration 1) := by decide
/-- R82, with the headers of 95_test_vectors.md L2.1. -/
theorem test_assemble :
    encode Params.default (assemble (.sendBits 6 0x06)) = .request 0x00001808 [6] ∧
    encode Params.default (assemble (.writeRegion .cfg [0x3FE4, 0x1FFF])) = .request 0x00020232 [0x3FE4, 0x1FFF] ∧
    encode Params.default (assemble (.eraseRegion .pm 2048)) = .request 0x08000031 [] := by decide

/-- R83. -/
theorem test_pseudo :
    expandPseudo .readConfigBlock = .readRegion .cfg 11 [] ∧ encode Params.default (expandPseudo .readIdWord) =
      .request 0x00070230 [] := by decide

/-! ### One step of each instruction (95_test_vectors.md L2.1 to L2.8) -/

/-- Q1. -/
theorem test_getStatus : reply (after (.getStatus []) State.reset) = some (0x00000000, []) := by decide
/-- Q7. -/
theorem test_getStatus_after_fault :
    reply (after (.getStatus []) (after (.getStatus [1]) State.reset)) = some (0x00000020, []) := by decide
/-- Q2. -/
theorem test_setTiming : reply (after (.setTiming 0 [50]) State.reset) = some (0x00000040, []) := by decide
/-- Q5. -/
theorem test_setTiming_index : reply (after (.setTiming 6 [1]) State.reset) = some (0x00000023, []) := by decide
/-- Q6. -/
theorem test_getTiming : reply (after (.getTiming 2 []) State.reset) = some (0, [0x004C4B40]) := by decide
/-- Q6. -/
theorem test_getTiming_last : reply (after (.getTiming 5 []) State.reset) = some (0, [0x1DCD6500]) := by decide
/-- T1. -/
theorem test_sendBits :
    newItems (.sendBits 2 [2]) State.reset =
      [.event (.dat false), .wait 100, .event (.clk true), .wait 100, .event (.clk false), .wait 100,
       .event (.dat true), .wait 100, .event (.clk true), .wait 100, .event (.clk false), .wait 100] := by decide
/-- T4. -/
theorem test_sendBits_zero : reply (after (.sendBits 0 [1]) State.reset) = some (0x00000023, []) := by decide
/-- T7, with the levels 1 and 0. -/
theorem test_recvBits :
    newItems (.recvBits 2 []) (scripted [true, false] []) =
      [.event (.dir .inp), .wait 100, .event (.clk true), .wait 100, .event (.sample true), .event (.clk false),
       .wait 100, .event (.clk true), .wait 100, .event (.sample false), .event (.clk false), .wait 100,
       .event (.dir .out)] := by decide
/-- T8: after SEND_BITS 6, 0x04 the reference target drives the frame of 0x0123. -/
theorem test_recvBits_target :
    reply (after (.recvBits 16 []) (after (.sendBits 6 [4]) attached)) = some (0x00000010, [0x00000246]) := by
  decide +kernel
/-- M1. -/
theorem test_enterProg :
    reply (after (.enterProg []) State.reset) = some (0x00000010, []) ∧
    sent (.enterProg []) State.reset =
      wire [0, 0, 0, 0, 1, 0, 1, 0, 0, 0, 0, 1, 0, 0, 1, 0, 1, 1, 0, 0, 0, 0, 1, 0, 1, 0, 1, 1, 0, 0, 1, 0, 0] := by
  decide +kernel
/-- M1: the reference target goes from RUN to LVP. -/
theorem test_enterProg_target :
    (targetOf (after (.enterProg []) { State.reset with env := .reference { target with rmode := .run } })).rmode =
      .lvp := by decide +kernel
/-- M4. -/
theorem test_exitProg :
    newItems (.exitProg []) prog = [.event (.mclr true)] ∧ reply (after (.exitProg []) prog) = some (0, []) := by decide
/-- M5. -/
theorem test_resetTarget :
    newItems (.resetTarget []) prog =
      [.event (.mclr false), .wait 500000000, .event (.mclr true), .wait 500000000] ∧
    reply (after (.resetTarget []) prog) = some (0, []) := by decide
/-- L2.4. -/
theorem test_cmdLoadConfig :
    sent (.cmdLoadConfig [0]) prog = wire [0, 0, 0, 0, 0, 0, 0, 0, 0, 0, 0, 0, 0, 0, 0, 0, 0, 0, 0, 0, 0, 0] ∧
    reply (after (.cmdLoadConfig [0]) prog) = some (0x00000190, []) := by decide +kernel
/-- L2.4. -/
theorem test_cmdLoadDataPm :
    sent (.cmdLoadDataPm [0x0123]) prog = wire [0, 1, 0, 0, 0, 0, 0, 1, 1, 0, 0, 0, 1, 0, 0, 1, 0, 0, 0, 0, 0, 0] ∧
    (targetOf (after (.cmdLoadDataPm [0x0123]) attached)).latchMain = [(0, 0x0123)] := by decide +kernel
/-- K6. -/
theorem test_cmdLoadDataPm_operand : reply (after (.cmdLoadDataPm []) State.reset) = some (0x00000023, []) := by decide
/-- L2.4. -/
theorem test_cmdLoadDataDm :
    sent (.cmdLoadDataDm [0x12]) prog = wire [1, 1, 0, 0, 0, 0, 0, 0, 1, 0, 0, 1, 0, 0, 0, 0, 0, 0, 0, 0, 0, 0] ∧
    (targetOf (after (.cmdLoadDataDm [0x12]) attached)).latchD = [(0, 0x12)] := by decide +kernel
/-- L2.1: the frame 0x0246 gives the read word 0x02460123. -/
theorem test_cmdReadDataPm : reply (after (.cmdReadDataPm []) attached) = some (0x00000010, [0x02460123]) := by
  decide +kernel
/-- K5. -/
theorem test_cmdReadDataPm_normal : reply (after (.cmdReadDataPm []) State.reset) = some (0x00000021, []) := by decide
/-- K7, with DM[0] = 0xFF. -/
theorem test_cmdReadDataDm :
    reply (after (.cmdReadDataDm []) { prog with env := .reference { target with dm := Memory.fill (some 0x00FF) } }) =
      some (0x00000010, [0x01FE00FF]) := by decide +kernel
/-- L2.4; the shadow is invalid and stays so. -/
theorem test_cmdIncrementAddress :
    sent (.cmdIncrementAddress []) prog = wire [0, 1, 1, 0, 0, 0] ∧
    reply (after (.cmdIncrementAddress []) prog) = some (0x00000010, []) := by decide +kernel
/-- K3. -/
theorem test_cmdIncrementAddress_wraps :
    reply (after (.cmdIncrementAddress []) { prog with cursor := { valid := true, space := .main, off := 0xFFFF } }) =
      some (0x00000090, []) := by decide +kernel
/-- L2.4. -/
theorem test_cmdResetAddress :
    sent (.cmdResetAddress []) prog = wire [0, 1, 1, 0, 1, 0] ∧
    reply (after (.cmdResetAddress []) positioned) = some (0x00000090, []) := by decide +kernel
/-- L2.4: the wait is the longer one, and the latches are committed. -/
theorem test_cmdBeginIntProg :
    (newItems (.cmdBeginIntProg []) prog).getLast? = some (.wait 5000000) ∧
    (targetOf (after (.cmdBeginIntProg [])
      { prog with env := .reference { target with latchMain := [(3, 0x0789)] } })).pm.cells =
        [(0, some 0x0123), (1, some 0x1234), (3, some 0x0789)] := by decide +kernel
/-- L2.4. -/
theorem test_cmdBulkErasePm :
    sent (.cmdBulkErasePm []) prog = wire [1, 0, 0, 1, 0, 0] ∧
    (targetOf (after (.cmdBulkErasePm []) attached)).pm.cells = [] := by decide +kernel
/-- L2.4. -/
theorem test_cmdBulkEraseDm :
    sent (.cmdBulkEraseDm []) prog = wire [1, 1, 0, 1, 0, 0] ∧
    (targetOf (after (.cmdBulkEraseDm []) attached)).dm.cells = [] := by decide +kernel
/-- A1. -/
theorem test_readRegion_empty : reply (after (.readRegion .pm 0 []) State.reset) = some (0x00000000, []) := by decide
/-- A8. -/
theorem test_readRegion_aborted :
    reply (after (.readRegion .pm 3 []) { attached with draws := { bits := [], aborts := [true], taken := 0 } }) =
      some (0x00010094, [0x02460123]) := by decide +kernel
/-- A6. -/
theorem test_eraseRegionPm :
    sent (.eraseRegionPm 2048 []) prog =
      wire [0, 0, 0, 0, 0, 0, 0, 0, 0, 0, 0, 0, 0, 0, 0, 0, 0, 0, 0, 0, 0, 0, 1, 0, 0, 1, 0, 0] ∧
    reply (after (.eraseRegionPm 2048 []) prog) = some (0x00000190, []) := by decide +kernel
/-- A7. -/
theorem test_eraseRegionDm :
    sent (.eraseRegionDm 256 []) prog = wire [1, 1, 0, 1, 0, 0] ∧
    reply (after (.eraseRegionDm 256 []) positioned) = some (0x00000190, []) := by decide +kernel
/-- A2. -/
theorem test_eraseRegionCfg : reply (after (.eraseRegionCfg 0 []) State.reset) = some (0x00000023, []) := by decide
/-- P3, response 2: the 68 pulses and the status. -/
theorem test_writeRegionPm :
    pulses (newItems (.writeRegionPm 1 [0xAAA]) prog) = 68 ∧
    reply (after (.writeRegionPm 1 [0xAAA]) prog) = some (0x00010090, []) := by decide +kernel
/-- A11. -/
theorem test_writeRegionDm_aborted :
    reply (after (.writeRegionDm 2 [0x12, 0x34]) (scripted [] [true])) = some (0x00010094, []) ∧
    (targetOf (after (.writeRegionDm 2 [0x12, 0x34])
      { attached with draws := { bits := [], aborts := [true], taken := 0 } })).dm.cells = [(0, some 0x12)] := by decide +kernel
/-- P3, response 4. -/
theorem test_writeRegionCfg :
    pulses (newItems (.writeRegionCfg 2 [0x3FE4, 0x1FFF]) (scripted [] [false])) = 132 ∧
    reply (after (.writeRegionCfg 2 [0x3FE4, 0x1FFF]) (scripted [] [false])) = some (0x00090190, []) := by
  decide +kernel
/-- A12. -/
theorem test_writeRegionCfg_aborted :
    reply (after (.writeRegionCfg 2 [1, 2]) (scripted [] [true])) = some (0x00080194, []) := by decide +kernel
/-- The wire commands put the bits of L2.4 on the lines. -/
theorem test_icsp_sent :
    sent (.icspLoadConfiguration 0) prog = wire [0, 0, 0, 0, 0, 0, 0, 0, 0, 0, 0, 0, 0, 0, 0, 0, 0, 0, 0, 0, 0, 0] ∧
    sent (.icspLoadDataProgramMemory 0x3FFF) prog =
      wire [0, 1, 0, 0, 0, 0, 0, 1, 1, 1, 1, 1, 1, 1, 1, 1, 1, 1, 1, 1, 1, 0] ∧
    sent (.icspLoadDataDataMemory 0x12) prog =
      wire [1, 1, 0, 0, 0, 0, 0, 0, 1, 0, 0, 1, 0, 0, 0, 0, 0, 0, 0, 0, 0, 0] := by decide +kernel
theorem test_icsp_reads :
    reply (after .icspReadDataProgramMemory attached) = some (0x00000010, [0x02460123]) ∧
    reply (after .icspReadDataDataMemory attached) = some (0x00000010, [0x00240012]) := by decide +kernel
theorem test_icsp_address :
    sent .icspIncrementAddress prog = wire [0, 1, 1, 0, 0, 0] ∧
    (targetOf (after .icspIncrementAddress attached)).roff = 1 ∧
    reply (after .icspResetAddress prog) = some (0x00000090, []) := by decide +kernel
theorem test_icsp_timed :
    sent .icspBeginInternallyTimedProgramming prog = wire [0, 0, 0, 1, 0, 0] ∧
    sent .icspBulkEraseProgramMemory prog = wire [1, 0, 0, 1, 0, 0] ∧
    sent .icspBulkEraseDataMemory prog = wire [1, 1, 0, 1, 0, 0] := by decide +kernel
/-- R63: the key goes out inside the entry sequence, with its MCLR edges. -/
theorem test_icspKey :
    pulses (newItems .icspKey State.reset) = 33 ∧ (after .icspKey State.reset).session = .prog ∧
    newItems .icspKey State.reset = newItems (.enterProg []) State.reset := by decide +kernel
/-- L2.7, and the refusals of R84. -/
theorem test_faults :
    reply (afterMessage (.request 0x00000007 []) State.reset) = some (0x00000022, []) ∧
    reply (afterMessage (.request 0x000003FF []) State.reset) = some (0x00000022, []) ∧
    reply (afterMessage (.request 0x00010330 []) State.reset) = some (0x00000023, []) ∧
    reply (afterMessage (.request 0x00020232 [1, 2]) State.reset) = some (0x00000021, []) := by decide
/-- Z1. -/
theorem test_blockReset :
    (blockReset prog).trace.drop prog.trace.length =
      [.event (.clk false), .event (.dir .out), .event (.dat false), .event (.mclr true)] := by decide
/-- R146: cut after the first CLK edge of a command, the trace goes on with the reset events. -/
theorem test_abandon :
    (abandon 3 id (after (.cmdIncrementAddress []) prog) prog).trace.drop prog.trace.length =
      [.event (.dat false), .wait 100, .event (.clk true), .event (.clk false), .event (.dir .out), .event (.dat false),
       .event (.mclr true)] := by decide +kernel

/-- The reference target, with DATA memory and program memory known, after a message was cut off at its 30th item. -/
def cutTarget (m : Message) : State :=
  match performThenReset m 30 attached with
  | .next t => t
  | .fault _ => attached
  | .refused _ => attached

/-- R146: of an erase of data memory cut off, the data words are lost and the program words kept, and every sample is a
draw until RESET_TARGET and ENTER_PROG have been made (R147). -/
theorem test_abandon_keeps_untouched :
    memRead (targetOf (cutTarget (.request 0x29 []))).dm 0 = none ∧
    memRead (targetOf (cutTarget (.request 0x29 []))).pm 0 = some 0x0123 ∧
    (match (cutTarget (.request 0x29 [])).env with
      | .desync _ held restarted => !held && !restarted
      | .oracle => false
      | .reference _ => false) = true := by decide +kernel

/-- R147: the recovery brings a target back, and its words that no request has touched are read again. -/
theorem test_recovery :
    reply (after (.cmdReadDataPm []) (after (.enterProg []) (after (.resetTarget []) (cutTarget (.request 0x29 []))))) =
      some (0x00000010, [0x02460123]) := by decide +kernel

/-- R147: ENTER_PROG alone is no recovery; and a command on part of an opcode desynchronises the target. -/
theorem test_no_recovery :
    envLevel (after (.enterProg []) (cutTarget (.request 0x29 []))).env = none ∧
    (after (.cmdReadDataPm []) (after (.sendBits 3 [0]) attached)).draws.taken = 16 := by decide +kernel

/-- R54, R90: a whole raw opcode is no part unit, and EXIT_PROG and ENTER_PROG after it bring the target to LVP. -/
theorem test_rawOpcode_then_entry :
    targetOf (after (.enterProg []) (after (.exitProg []) (after (.sendBits 6 [4]) attached))) = target ∧
    envLevel (after (.sendBits 6 [4]) (after (.enterProg []) (after (.exitProg []) (after (.sendBits 6 [4]) attached)))).env =
      some false := by decide +kernel

/-- R55: after a whole raw Load Data opcode the next 16 bits are its frame, whoever sends them. Of CMD_LOAD_CONFIG 0x0CA5
they are its opcode of six zeros, its start bit and payload bits 0 to 8; the six bits left are Increment Address. -/
theorem test_rawOpcode_then_command :
    (targetOf (after (.cmdLoadConfig [0x0CA5]) (after (.sendBits 6 [2]) attached))) =
      { target with latchMain := [(0, 0x2940)], roff := 1 } := by decide +kernel

/-- R147, R152: RECV_BITS that make no whole unit desynchronise the target at the next command, on an idle target and after
a whole driven frame; those that make a whole unit do not. -/
theorem test_recvBits_partUnit :
    (after (.cmdReadDataPm []) (after (.recvBits 4 []) attached)).draws.taken = 20 ∧
    (after (.cmdReadDataPm []) (after (.recvBits 20 []) (after (.sendBits 6 [4]) attached))).draws.taken = 20 ∧
    reply (after (.cmdReadDataPm []) (after (.recvBits 16 []) (after (.sendBits 6 [4]) attached))) =
      some (0x00000010, [0x02460123]) := by decide +kernel

/-- R62 case 2: a command before the settle of a raw Bulk Erase has elapsed is answered by draws, and the one that waits
for it is not. -/
theorem test_settle :
    (after (.cmdReadDataPm []) (after (.sendBits 6 [9]) attached)).env = .oracle ∧
    (after (.cmdReadDataPm []) (after (.sendBits 6 [9]) attached)).draws.taken = 16 ∧
    reply (after (.cmdReadDataPm []) (after (.cmdBulkErasePm []) attached)) = some (0x00000010, [0x7FFE3FFF]) := by
  decide +kernel
/-- R62: driving against the target leaves the reference target. -/
theorem test_collision :
    (after (.sendBits 1 [1]) (after (.sendBits 6 [4]) attached)).env = .oracle := by decide +kernel
/-- R122 and L2.5. -/
theorem test_progTrigger :
    (List.range 33).filter (progTrigger · 33 16) = [15, 31, 32] ∧ (List.range 17).filter (progTrigger · 17 16) = [15, 16] ∧
    (List.range 3).filter (progTrigger · 3 1) = [0, 1, 2] := by decide +kernel
/-- R115 and L2.5. -/
theorem test_groups : groups 16 17 = [(0, 16), (16, 1)] ∧ groups 16 20 = [(0, 16), (16, 4)] ∧ groups 16 0 = [] := by decide
/-- The reply of the step that follows a word placed at the port after reset. -/
def replyToWord (nbits w : Nat) : Option (Word × List Word) :=
  match Sys2Proof.core.step (State.reset.withFetchWord nbits w) with
  | .next t => reply t
  | .fault _ => none
  | .refused _ => none

/-- The word of a table row runs as the first instruction after reset: GET_TIMING 5 (Q6), ENTER_PROG (M1), and a command,
which `NORMAL` refuses (K5). -/
theorem test_step_runs_word :
    replyToWord 32 0x00050002 = some (0, [0x1DCD6500]) ∧ replyToWord 8 0x10 = some (0x00000010, []) ∧
    replyToWord 8 0x16 = some (0x00000021, []) := by decide +kernel

/-- The parameters of R7 after reset. -/
theorem reset_r7 : R7Values State.reset.params := ⟨rfl, rfl, rfl, rfl, rfl, rfl, rfl, rfl⟩

/-! ### States and operands that meet the hypotheses of the statements -/

/-- A message at the port of a state. -/
def waiting (x : Input) (s : State) : State := { s with inbox := [x] }

theorem witness_DecodeEncodeEveryInstruction : Params.default.wf = true := by decide

theorem witness_UnusedFieldsAndBitsIgnored :
    headerOp 0x00000000 = headerOp 0xFFFFFF00 ∧
    (headerOp 0x00001808 = 0x08 ∧ headerOp 0xFFFF1B08 = 0x08 ∧ headerNbits 0x00001808 = headerNbits 0xFFFF1B08) ∧
    (headerOp 0x000B0230 = 0x30 ∧ headerOp 0x000BFE30 = 0x30 ∧ headerRgn 0x000B0230 = headerRgn 0x000BFE30 ∧
      headerCount 0x000B0230 = headerCount 0x000BFE30) ∧
    (∀ k < (4 : BitVec 6).toNat, (0x00000005 : Word).getLsbD k = (0xFFFFFFF5 : Word).getLsbD k) ∧
    (0x00003FFF : Word).extractLsb' 0 14 = (0x0000FFFF : Word).extractLsb' 0 14 ∧
    ([0x00003FFF, 1] : List Word).map (fun w => w.extractLsb' 0 14) =
      ([0xFFFFFFFF, 0x4001] : List Word).map (fun w => w.extractLsb' 0 14) := by decide

theorem witness_UnassignedOperationRefused :
    ([0x03, 0x07, 0x0A, 0x0F, 0x13, 0x1F, 0x2A, 0x2F, 0x33, 0xFF] : List Word).map (fun h => (headerOp h).toNat) =
      [0x03, 0x07, 0x0A, 0x0F, 0x13, 0x1F, 0x2A, 0x2F, 0x33, 0xFF] ∧
    ([0x330, 0x331, 0x332] : List Word).map (fun h => (headerOp h, headerRgn h)) =
      [(0x30, 3), (0x31, 3), (0x32, 3)] := by decide

/-- Every instruction completes or is refused by a next state, so each has one to speak of. -/
theorem witness_exec_next (i : Instr) (s : State) : ∃ t, exec i s = .next t := by
  cases i <;> exact ⟨_, rfl⟩

theorem witness_OutboundFrameOnTheWire :
    commandForm (.cmdLoadDataPm [0x0123]) = some (.loadDataPm, 0x0123) ∧
    commandForm (.icspLoadConfiguration 0) = some (.loadConfig, 0) ∧ cmdClass .loadDataPm = .out ∧
    cmdClass .loadConfig = .out ∧ prog.session = .prog ∧ (prog.lines.clk = false ∧ prog.lines.datDir = .out) ∧
    exec (.cmdLoadDataPm [0x0123]) prog = .next (after (.cmdLoadDataPm [0x0123]) prog) ∧
    (after (.cmdLoadDataPm [0x0123]) prog).trace = prog.trace ++ newItems (.cmdLoadDataPm [0x0123]) prog :=
  ⟨rfl, rfl, rfl, rfl, rfl, ⟨rfl, rfl⟩, rfl, by decide +kernel⟩

theorem witness_StatusWordOfEveryResponse :
    perform (.request 0 []) State.reset = .next (afterMessage (.request 0 []) State.reset) := rfl

theorem witness_StepRunsDecodedInstruction :
    (waiting (.message (.request 0x10 [])) State.reset).busy = false ∧
    (waiting (.message (.request 0x10 [])) State.reset).inbox = .message (.request 0x10 []) :: [] ∧
    decode State.reset.params (.request 0x10 []) = .ok (.enterProg []) := by decide

theorem witness_StepWithoutRequest :
    State.reset.busy = false ∧ State.reset.inbox = [] ∧ { State.reset with busy := true }.busy = true := by decide

theorem witness_OtherWireUnitsRefused :
    (∀ k ∈ Cmd.all, State.reset.params.opc k ≠ 0x3F) ∧ (∀ k, k ∈ Cmd.all) ∧ (0 : BitVec 33) ≠ 0x04D434850 := by
  refine ⟨by decide, fun k => by cases k <;> decide, by decide⟩

theorem witness_GetStatusReports : headerOp 0xFFFFFF00 = 0x00 := by decide

theorem witness_SetTimingWritesOneRegister :
    headerOp 0x00030001 = 0x01 ∧ (0 : BitVec 16).toNat ≤ 5 ∧ (5 : BitVec 16).toNat ≤ 5 ∧ 5 < (6 : BitVec 16).toNat ∧
    ([] : List Word).length ≠ 1 := by decide

theorem witness_GetTimingReadsRegister :
    headerOp 0x00050002 = 0x02 ∧ (0 : BitVec 16).toNat ≤ 5 ∧ (5 : BitVec 16).toNat ≤ 5 ∧ 5 < (6 : BitVec 16).toNat ∧
    ([0] : List Word) ≠ [] := by decide

theorem witness_SendBitsWaveform :
    R7Values State.reset.params ∧ headerOp 0x00001808 = 0x08 ∧ (1 ≤ (1 : BitVec 6).toNat ∧ (1 : BitVec 6).toNat ≤ 32) ∧
    (1 ≤ (32 : BitVec 6).toNat ∧ (32 : BitVec 6).toNat ≤ 32) ∧ (0 : BitVec 6).toNat < 1 ∧
    32 < (33 : BitVec 6).toNat ∧ ([] : List Word).length ≠ 1 := ⟨reset_r7, by decide⟩

theorem witness_RecvBitsWaveform :
    R7Values State.reset.params ∧ headerOp 0x00004009 = 0x09 ∧ (1 ≤ (1 : BitVec 6).toNat ∧ (1 : BitVec 6).toNat ≤ 32) ∧
    (1 ≤ (32 : BitVec 6).toNat ∧ (32 : BitVec 6).toNat ≤ 32) ∧ (0 : BitVec 6).toNat < 1 ∧
    32 < (33 : BitVec 6).toNat ∧ ([0] : List Word) ≠ [] := ⟨reset_r7, by decide⟩

theorem witness_mode_headers : headerOp 0x10 = 0x10 ∧ headerOp 0x11 = 0x11 ∧ headerOp 0x12 = 0x12 := by decide

theorem witness_KeyBitsOnTheWire :
    R7Values State.reset.params ∧ (State.reset.lines.clk = false ∧ State.reset.lines.datDir = .out) ∧
    exec (.enterProg []) State.reset = .next (after (.enterProg []) State.reset) ∧
    (after (.enterProg []) State.reset).trace = State.reset.trace ++ newItems (.enterProg []) State.reset :=
  ⟨reset_r7, ⟨rfl, rfl⟩, rfl, by decide +kernel⟩

theorem witness_SendingCommandsComplete :
    commandForm (.cmdBulkEraseDm []) = some (.bulkEraseDm, 0) ∧ commandForm (.cmdLoadDataDm [0x12]) =
      some (.loadDataDm, 0x12) ∧ cmdClass .bulkEraseDm ≠ .inp ∧ cmdClass .loadDataDm ≠ .inp ∧ prog.session = .prog := by
  decide

theorem witness_ReadingCommandsComplete :
    commandForm (.cmdReadDataPm []) = some (.readDataPm, 0) ∧ commandForm .icspReadDataDataMemory =
      some (.readDataDm, 0) ∧ cmdClass .readDataPm = .inp ∧ cmdClass .readDataDm = .inp ∧ prog.session = .prog := by
  decide

theorem witness_CommandsRefusedInNormal :
    commandForm (.cmdReadDataPm []) = some (.readDataPm, 0) ∧ State.reset.session = .normal := by decide

theorem witness_IncrementWrapsShadow :
    { prog with cursor := { valid := true, space := .main, off := 0xFFFF } }.session = .prog ∧
    prog.session = .prog := by decide

theorem witness_ReadRegionReadsEveryWord :
    ((1 : BitVec 16).toNat ≠ 0 ∧ (scripted [] [true]).draws.aborts =
      List.replicate ((1 : BitVec 16).toNat - 1) false ++ [true]) ∧
    ((3 : BitVec 16).toNat ≠ 0 ∧ (scripted [] [false, false]).draws.aborts =
      List.replicate ((3 : BitVec 16).toNat - 1) false ++ []) ∧ (scripted [] []).session = .prog := by decide

theorem witness_ReadRegionAborts :
    1 ≤ 1 ∧ 1 < (2 : BitVec 16).toNat ∧ (scripted [] [true]).draws.aborts = List.replicate (1 - 1) false ++ true :: [] ∧
    (scripted [] [true]).session = .prog := by decide

theorem witness_EraseRegionsComplete : (1 : BitVec 16).toNat ≠ 0 ∧ prog.session = .prog := by decide

theorem witness_WriteProgramRegionCompletes :
    (17 : BitVec 16).toNat ≠ 0 ∧ (List.replicate 17 (0 : Word)).length = (17 : BitVec 16).toNat ∧
    (scripted [] [false]).session = .prog ∧ (scripted [] [false]).draws.aborts =
      List.replicate (((17 : BitVec 16).toNat - 1) / (scripted [] [false]).params.lPm) false ++ [] := by decide

theorem witness_WriteDataRegionCompletes :
    (2 : BitVec 16).toNat ≠ 0 ∧ ([0x12, 0x34] : List Word).length = (2 : BitVec 16).toNat ∧
    (scripted [] [false]).session = .prog ∧ (scripted [] [false]).draws.aborts =
      List.replicate (((2 : BitVec 16).toNat - 1) / (scripted [] [false]).params.lDm) false ++ [] := by decide

theorem witness_WriteConfigRegionCompletes :
    ((2 : BitVec 16).toNat ≠ 0 ∧ (2 : BitVec 16).toNat = (scripted [] [false]).params.cfgWords ∧
      ([0x12, 0x34] : List Word).length = (2 : BitVec 16).toNat ∧ (scripted [] [false]).draws.aborts =
        List.replicate (((2 : BitVec 16).toNat - 1) / (scripted [] [false]).params.lCfg) false ++ []) ∧
    R7Values (scripted [] [false]).params ∧ (scripted [] [false]).session = .prog ∧
    (scripted [] [false]).draws.aborts = false :: [] := ⟨by decide, reset_r7, rfl, rfl⟩

theorem witness_WriteRegionAborts :
    ((List.replicate 17 (0 : Word)).length = (17 : BitVec 16).toNat ∧ 1 ≤ (scripted [] [true]).params.lPm ∧
      (scripted [] [true]).params.lPm * 1 < (17 : BitVec 16).toNat) ∧
    (([1, 2] : List Word).length = (2 : BitVec 16).toNat ∧ 1 ≤ (scripted [] [true]).params.lDm ∧
      (scripted [] [true]).params.lDm * 1 < (2 : BitVec 16).toNat) ∧
    ((2 : BitVec 16).toNat = (scripted [] [true]).params.cfgWords ∧ 1 ≤ (scripted [] [true]).params.lCfg ∧
      (scripted [] [true]).params.lCfg * 1 < (2 : BitVec 16).toNat) ∧
    (scripted [] [true]).session = .prog ∧
    (scripted [] [true]).draws.aborts = List.replicate (1 - 1) false ++ true :: [] := by decide

theorem witness_EmptyRegionIsNoOp :
    regionForm (.writeRegionCfg 0 []) = some (0, []) ∧ WellFormed Params.default (.writeRegionCfg 0 []) = true ∧
    regionForm (.readRegion .dm 0 []) = some (0, []) ∧ WellFormed Params.default (.readRegion .dm 0 []) = true ∧
    (0 : BitVec 16).toNat = 0 := by decide

theorem witness_ProgrammingTriggers :
    (writeForm (.writeRegionPm 1 [0xAAA]) = some (.pm, 1, [0xAAA]) ∧ (1 : BitVec 16).toNat ≠ 0 ∧
      prog.params.wf = true ∧ 1 ≤ prog.params.latchSize .pm) ∧ LinesIdle prog.lines ∧
    exec (.writeRegionPm 1 [0xAAA]) prog = .next (after (.writeRegionPm 1 [0xAAA]) prog) ∧
    (after (.writeRegionPm 1 [0xAAA]) prog).lastResult = .ok ∧
    (after (.writeRegionPm 1 [0xAAA]) prog).trace = prog.trace ++ newItems (.writeRegionPm 1 [0xAAA]) prog :=
  ⟨by decide, ⟨rfl, rfl⟩, rfl, by decide +kernel, by decide +kernel⟩

/-- L2.6 and R70: the commands of a write of one program word, read off the wire. -/
theorem test_commandsSent :
    commandsSent Params.default 68 (sent (.writeRegionPm 1 [0xAAA]) prog) =
      [.loadConfig, .bulkErasePm, .resetAddress, .loadDataPm, .beginIntProg, .incrementAddress] := by decide +kernel

theorem witness_BadArgExactly :
    R7Values State.reset.params ∧ (headerOp 0x00010232).toNat = 0x32 ∧ (headerOp 0x00000008).toNat = 0x08 ∧
    perform (.request 0x00010232 [7]) State.reset = .next (afterMessage (.request 0x00010232 [7]) State.reset) ∧
    (afterMessage (.request 0x00010232 [7]) State.reset).lastResult = .eBadArg ∧
    (afterMessage (.request 0x00020232 [1, 2]) State.reset).lastResult = .eNotProg :=
  ⟨reset_r7, rfl, rfl, rfl, by decide, by decide⟩

theorem witness_NotProgExactly :
    portOp (.cmdIncrementAddress []) = some 0x25 ∧ portOp (.readRegion .pm 1 []) = some 0x30 ∧
    (after (.cmdIncrementAddress []) State.reset).lastResult = .eNotProg ∧
    (after (.readRegion .pm 1 []) State.reset).lastResult = .eNotProg ∧
    (after (.readRegion .pm 0 []) State.reset).lastResult = .ok := by decide

theorem witness_PriorityOfOutcomes :
    WellFormed Params.default (.cmdLoadDataPm []) = false ∧ (WellFormed Params.default (.writeRegionDm 0 []) = true ∧ State.reset.session = .normal) ∧
    (WellFormed Params.default (.eraseRegionPm 1 []) = true ∧ regionForm (.eraseRegionPm 1 []) = some (1, [])) ∧
    WellFormed Params.default .icspKey = true ∧ commandForm .icspKey = none ∧ regionForm .icspKey = none := by decide

theorem witness_RefusalsArePrecise :
    perform (.request 0x07 []) State.reset = .next (afterMessage (.request 0x07 []) State.reset) ∧
    (afterMessage (.request 0x07 []) State.reset).lastResult.isFault = true := ⟨rfl, by decide⟩

theorem witness_SessionWritesOnly :
    portOp (.enterProg []) = some 0x10 ∧ exec (.enterProg []) State.reset = .next (after (.enterProg []) State.reset) ∧
    portOp (.cmdResetAddress []) = some 0x26 := ⟨rfl, rfl, rfl⟩

theorem witness_CommonFrame :
    (commandForm .icspResetAddress).isSome = true ∧
    exec .icspResetAddress prog = .next (after .icspResetAddress prog) ∧
    exec .icspKey State.reset = .next (after .icspKey State.reset) := ⟨rfl, rfl, rfl⟩

theorem witness_MclrChangedByModeControlOnly :
    portOp (.enterProg [0]) = some 0x10 ∧
    exec (.enterProg [0]) State.reset = .next (after (.enterProg [0]) State.reset) ∧
    Instr.enterProg [0] ≠ .enterProg [] ∧ Instr.enterProg [0] ≠ .exitProg [] ∧
    Instr.enterProg [0] ≠ .resetTarget [] := ⟨rfl, rfl, by decide, by decide, by decide⟩

/-- In `PROG`, with the reference target attached and an EXIT_PROG request at the port. -/
def exiting : State := waiting (.message (.request 0x11 [])) attached

theorem witness_StepKeepsInvariant :
    Inv exiting ∧ step exiting = .next (afterMessage (.request 0x11 []) (accept [] exiting)) :=
  ⟨{ params := by decide, idle := ⟨rfl, rfl⟩, mclrSession := by decide, shadow := by decide, faultKept := by decide,
     ready := rfl
     env :=
      { pmWf := by decide, cfgWf := by decide, dmWf := by decide, latchMainWf := rfl, latchCfgWf := rfl, latchDWf := rfl
        offFits := by decide, strayFits := Nat.succ_pos 15, rxFits := Nat.succ_pos 5, runs := fun h => by cases h } }, rfl⟩

theorem witness_EdgeHoldsOfEveryTrace :
    (State.reset.lines.clk = false ∧ State.reset.lines.datDir = .out) ∧
    exec (.sendBits 2 [2]) State.reset = .next (after (.sendBits 2 [2]) State.reset) := ⟨⟨rfl, rfl⟩, rfl⟩

theorem witness_PulseCounts :
    (portOp (.readRegion .cfg 1 [])).isSome = true ∧ (after (.readRegion .cfg 1 []) attached).lastResult = .ok ∧
    pulses (newItems (.readRegion .cfg 1 []) attached) = 50 ∧
    (after (.readRegion .dm 0 []) attached).lastResult = .ok ∧ pulses (newItems (.readRegion .dm 0 []) attached) = 0 ∧
    (after (.readRegion .dm 1 []) attached).lastResult = .ok ∧ pulses (newItems (.readRegion .dm 1 []) attached) = 34 ∧
    pulses (newItems (.eraseRegionPm 1 []) prog) = 28 ∧ pulses (newItems (.eraseRegionDm 1 []) prog) = 6 ∧
    pulses (newItems (.writeRegionDm 1 [0]) prog) = 46 := by decide +kernel

theorem witness_PulseCounts_params : R7Values attached.params ∧ R7Values prog.params := ⟨reset_r7, reset_r7⟩

/-- R160's figures for the reset values, each a clause of the statement. -/
theorem witness_MinimumDurations :
    prog.timing = Timing.reset ∧ R7Values prog.params ∧
    (after (.cmdReadDataPm []) prog).lastResult = .ok ∧ minDuration (newItems (.cmdReadDataPm []) prog) = 7100 ∧
    minDuration (newItems (.cmdLoadDataPm [1]) prog) = 8600 ∧
    minDuration (newItems (.cmdBulkEraseDm []) prog) = 5001800 ∧
    minDuration (newItems (.sendBits 32 [1]) prog) = 9600 ∧ minDuration (newItems (.recvBits 1 []) prog) = 300 ∧
    minDuration (newItems (.enterProg []) prog) = 40009900 ∧
    minDuration (newItems (.resetTarget []) prog) = 1000000000 ∧
    minDuration (newItems (.readRegion .pm 1 []) prog) = 12700 :=
  ⟨rfl, reset_r7, by decide +kernel, by decide +kernel, by decide +kernel, by decide +kernel, by decide +kernel,
   by decide +kernel, by decide +kernel, by decide +kernel, by decide +kernel⟩

theorem witness_MinimumDurations_writes :
    (after (.writeRegionPm 4 [1, 2, 3, 4]) prog).lastResult = .ok ∧
    minDuration (newItems (.writeRegionPm 4 [1, 2, 3, 4]) prog) = 10060600 ∧
    (after (.writeRegionCfg 2 [1, 2]) (scripted [] [false])).lastResult = .ok ∧
    minDuration (newItems (.writeRegionCfg 2 [1, 2]) (scripted [] [false])) = 10054600 := by decide +kernel

theorem witness_TimedCommandsEndWithTheirSettle :
    commandForm (.cmdBulkErasePm []) = some (.bulkErasePm, 0) ∧
    commandForm .icspBeginInternallyTimedProgramming = some (.beginIntProg, 0) ∧
    commandForm (.cmdBulkEraseDm []) = some (.bulkEraseDm, 0) ∧ prog.session = .prog := by decide

theorem witness_GroupsCoverEveryWord : 1 ≤ State.reset.params.group := by decide

theorem witness_BlockResetEffect :
    (waiting .reset prog).busy = false ∧ (waiting .reset prog).inbox = .reset :: [] := by decide

theorem witness_ResetAbandonsRequest :
    (waiting (.messageThenReset (.request 0x26 []) 3) prog).busy = false ∧
    (waiting (.messageThenReset (.request 0x26 []) 3) prog).inbox = .messageThenReset (.request 0x26 []) 3 :: [] ∧
    perform (.request 0x26 []) (accept [] (waiting (.messageThenReset (.request 0x26 []) 3) prog)) =
      .next (afterMessage (.request 0x26 []) (accept [] (waiting (.messageThenReset (.request 0x26 []) 3) prog))) :=
  ⟨rfl, rfl, rfl⟩

theorem witness_ReferenceTargetObeysCommands :
    TargetReady target attached ∧ commandForm (.cmdBulkErasePm []) = some (.bulkErasePm, 0) ∧ attached.session = .prog :=
  ⟨{ attached := rfl, programming := rfl, atBoundary := rfl, settled := rfl, noStray := rfl, floors := by decide
     idle := ⟨rfl, rfl⟩, mclr := rfl, params := by decide }, rfl, rfl⟩

theorem witness_ReferenceTargetReadsBack :
    commandForm (.cmdReadDataPm []) = some (.readDataPm, 0) ∧ cmdClass .readDataPm = .inp ∧
    targetRead .readDataPm target = some 0x0123 := by decide

theorem witness_EnterProgReachesTarget :
    (belowFloor attached.timing = false ∧ LinesIdle attached.lines ∧ R7Values attached.params ∧
      attached.env = .reference target ∧ partUnit target = false) ∧
    { attached with env := .desync target false true }.env = .desync target false true ∧
    { attached with env := .desync target true false }.env = .desync target true false ∧
    { attached with env := .desync target false false }.env = .desync target false false ∧
    (commandForm (.cmdReadDataPm []) = some (.readDataPm, 0) ∧ attached.session = .prog ∧
      targetOf (after (.sendBits 1 [1]) attached) = { target with rx := .unit [true], raw := true } ∧
      targetOf (after (.sendBits 7 [0x02]) attached) = { target with rx := .frame .loadDataPm [false], raw := true } ∧
      targetOf (after (.recvBits 1 []) (after (.sendBits 6 [4]) attached)) =
        { target with rx := .drive (some 0x0246) 1, raw := true } ∧
      targetOf (after (.recvBits 4 []) attached) = { target with raw := true, stray := 4 }) :=
  ⟨⟨by decide, ⟨rfl, rfl⟩, reset_r7, rfl, rfl⟩, rfl, rfl, rfl, by decide +kernel⟩

theorem witness_BelowFloorFreesTarget :
    belowFloor (after (.setTiming 0 [99]) attached).timing = true ∧
    TraceItem.event (.mclr true) ∈ newItems (.exitProg []) (after (.setTiming 0 [99]) attached) ∧
    exec (.exitProg []) (after (.setTiming 0 [99]) attached) =
      .next (after (.exitProg []) (after (.setTiming 0 [99]) attached)) := ⟨by decide, by decide, rfl⟩

theorem witness_TargetMemoryLaws :
    (Memory.given 0x3FFF [(0, 0x0123), (5, 0)]).wf = true ∧
    (memWrite (Memory.given 0x3FFF [(0, 0x0123), (5, 0)]) 0 (some 0x3FFF)).cells = [(5, some 0)] ∧
    (memWrite (Memory.given 0x3FFF [(0, 0x0123), (5, 0)]) 3 none).cells =
      [(0, some 0x0123), (3, none), (5, some 0)] := by decide

theorem witness_WireCommandIsItsRequest : (0xFFFFC123 : Word).extractLsb' 0 14 = 0x0123 := by decide

end Sys2Proof.Tests
end

/-! PROOFS. The writers of the session and of MCLR, and the reset values (spec/10_state.md R17, R18, R34). -/

namespace Sys2Proof.Machine

/-! ### The writers of `session` and of MCLR, for every instruction -/

/-- The mode-control requests with no operand, and the key unit, complete with `OK` in every state: their one argument
check passes, and no session refuses them (R93, R95, R96, R136). -/
theorem exec_completes_of_mode {i : Instr} (s : State)
    (hi : i = .enterProg [] ∨ i = .icspKey ∨ i = .exitProg [] ∨ i = .resetTarget []) :
    ∃ u, exec i s = .next (complete .ok [] u) := by
  rcases hi with rfl | rfl | rfl | rfl <;> exact ⟨_, rfl⟩

theorem noMode_of_exec_isFault {i : Instr} {s t : State} (h : exec i s = .next t) (hf : t.lastResult.isFault = true) :
    NoMode i := by
  by_contra hn
  obtain ⟨u, hu⟩ := exec_completes_of_mode s (by simpa only [NoMode, ne_eq, not_and_or, not_not] using hn)
  rw [hu] at h
  cases h
  cases hf

/-- R17, for every instruction: the entry sequence leaves `PROG`, EXIT_PROG and RESET_TARGET leave `NORMAL`, and nothing
else writes the session. -/
theorem exec_session {i : Instr} {s t : State} (h : exec i s = .next t) :
    t.session = if i = .enterProg [] ∨ i = .icspKey then .prog
      else if i = .exitProg [] ∨ i = .resetTarget [] then .normal else s.session := by
  rcases exec_next h with ⟨r, hr, rfl⟩ | ⟨env, items, m, k, τ, d, r, data, -, -, -, hm, rfl⟩
  case inl =>
    obtain ⟨henter, hkey, hexit, hreset⟩ := noMode_of_exec_isFault h hr
    simp [henter, hkey, hexit, hreset]
  case inr => exact hm.session

/-- The trace of a performed instruction that is none of the four leaves the MCLR level as it was (R18). -/
theorem Moves.mclrStays_of_noMode {i : Instr} {s : State} {items : List TraceItem} {m : Session} {k : Cursor}
    {τ : Timing} (h : Moves i s items m k τ) (hn : NoMode i) : MclrStays items := by
  obtain ⟨henter, hkey, hexit, hreset⟩ := hn
  rcases h.mclr with ⟨hi, -⟩ | ⟨hi, -⟩ | ⟨-, hstays⟩
  · exact (hi.elim henter hkey).elim
  · exact (hi.elim hexit hreset).elim
  · exact hstays

/-- R18, for every instruction: only the entry sequence, EXIT_PROG and RESET_TARGET drive MCLR. -/
theorem exec_mclr_of_noMode {i : Instr} {s t : State} (h : exec i s = .next t) (hn : NoMode i) :
    t.lines.mclr = s.lines.mclr := by
  rcases exec_next h with ⟨r, -, rfl⟩ | ⟨env, items, m, k, τ, d, r, data, -, -, -, hm, rfl⟩
  case inl => rfl
  case inr => exact hm.mclrStays_of_noMode hn s.lines

/-- The key unit is no request of the host port (R79). -/
theorem ne_icspKey_of_portOp {i : Instr} {op : Nat} (h : portOp i = some op) : i ≠ .icspKey := by
  rintro rfl
  cases h

/-! ### The statements -/

/-- Settles O40: the session of `exec_session`, without the key unit, which is no request of the port. -/
theorem sessionWritesOnly : Obligations.SessionWritesOnly := by
  refine ⟨fun i op s t hport h => ?_, blockReset_session⟩
  simpa only [ne_icspKey_of_portOp hport, or_false] using exec_session h

/-- Settles O41: a port request other than the three that run is none that drives MCLR, by `exec_mclr_of_noMode`. -/
theorem mclrChangedByModeControlOnly : Obligations.MclrChangedByModeControlOnly :=
  ⟨fun _ _ _ _ hport h henter hexit hreset =>
    exec_mclr_of_noMode h ⟨henter, ne_icspKey_of_portOp hport, hexit, hreset⟩,
   fun s => congrArg Lines.mclr (blockReset_lines s)⟩

/-- Settles O52: each clause is the field of `State.reset`, the timing registers through `timingReset`. -/
theorem resetValues : Obligations.ResetValues :=
  ⟨rfl, rfl, rfl, rfl, rfl, rfl, rfl⟩

end Sys2Proof.Machine

/-! PROOFS. The encodings: unused header fields and operand bits, unassigned operations, the read word, the status word
and the response (spec/30_encoding.md R72 to R81, spec/60_exceptions.md R131, R132). -/

namespace Sys2Proof

/-! ### What the decoder can do with a header -/

/-- A header that is no instruction is refused by the port itself (R84): its errors are not those of a wire unit. -/
theorem decodeRequest_error {h : Word} {ops : List Word} {e : DecodeError} (he : decodeRequest h ops = .error e) :
    e = .badOp ∨ e = .badArg := by
  unfold decodeRequest at he
  split at he
  case h_19 | h_20 | h_21 => split at he <;> cases he; exact .inr rfl
  case h_22 => cases he; exact .inl rfl
  all_goals cases he

/-- R80: the unassigned values of `OP` are the gaps of the table of R79. -/
theorem decodeRequest_unassigned {h : Word} {op : Nat} (ops : List Word) (hop : op = (headerOp h).toNat)
    (hgap : 3 ≤ op ∧ op ≤ 0x07 ∨ 0x0A ≤ op ∧ op ≤ 0x0F ∨ 0x13 ≤ op ∧ op ≤ 0x1F ∨ 0x2A ≤ op ∧ op ≤ 0x2F ∨ 0x33 ≤ op) :
    decodeRequest h ops = .error .badOp := by
  unfold decodeRequest
  split
  case h_22 => rfl
  all_goals omega

/-- R133 case 2: a region request with the reserved `RGN`. -/
theorem decodeRequest_reservedRegion {h : Word} (ops : List Word)
    (hop : headerOp h = 0x30 ∨ headerOp h = 0x31 ∨ headerOp h = 0x32) (hrgn : headerRgn h = 3) :
    decodeRequest h ops = .error .badArg := by
  have hnone : regionOf (headerRgn h) = none := by rw [hrgn]; rfl
  rcases hop with hop | hop | hop <;> simp [decodeRequest, hop, hnone]

/-- R74, R81: the decoder reads `NBITS`, `RGN` and `COUNT` only in the operations that use them. -/
theorem decodeRequest_congr {h h' : Word} (ops : List Word) (hop : headerOp h = headerOp h')
    (hnbits : headerOp h = 0x08 ∨ headerOp h = 0x09 → headerNbits h = headerNbits h')
    (hrgn : headerOp h = 0x30 ∨ headerOp h = 0x31 ∨ headerOp h = 0x32 → headerRgn h = headerRgn h')
    (hcount : headerOp h = 0x01 ∨ headerOp h = 0x02 ∨ headerOp h = 0x30 ∨ headerOp h = 0x31 ∨ headerOp h = 0x32 →
      headerCount h = headerCount h') :
    decodeRequest h ops = decodeRequest h' ops := by
  unfold decodeRequest
  rw [← hop]
  split
  case h_2 _ hn | h_3 _ hn => rw [hcount (by simp [BitVec.toNat_eq, hn])]
  case h_4 _ hn | h_5 _ hn => rw [hnbits (by simp [BitVec.toNat_eq, hn])]
  case h_19 _ hn | h_20 _ hn | h_21 _ hn =>
    rw [hrgn (by simp [BitVec.toNat_eq, hn]), hcount (by simp [BitVec.toNat_eq, hn])]
  all_goals rfl

end Sys2Proof

namespace Sys2Proof.Machine

/-! ### Bits of the read word and of the status word -/

/-- R78, bit by bit. -/
theorem getLsbD_readWord (raw : Frame) {k : Nat} (hk : k < 32) :
    (readWord raw).getLsbD k =
      (!decide (k < 16) && raw.getLsbD (k - 16) || decide (k < 14) && raw.getLsbD (k + 1)) := by
  simp [readWord, payloadOf, hk, Nat.add_comm 1 k]

theorem getLsbD_flagAt {pos : Nat} (hpos : pos < 32) (b : Bool) (k : Nat) :
    (flagAt pos b).getLsbD k = (decide (k = pos) && b) := by
  rcases lt_trichotomy k pos with h | rfl | h
  · simp [flagAt, h, h.ne]
  · simp [flagAt, hpos]
  · simp [flagAt, h.ne', show ¬ k < pos by omega, show k - pos ≠ 0 by omega]

/-- R77, bit by bit. -/
theorem getLsbD_statusWord (s : State) {k : Nat} (hk : k < 32) :
    (statusWord s).getLsbD k =
      (s.lastResult.code.getLsbD k || decide (k = 4) && decide (s.session = .prog) || decide (k = 5) && s.faultSeen ||
        decide (k = 6) && belowFloor s.timing || decide (k = 7) && s.cursor.valid ||
        decide (k = 8) && decide (s.cursor.space = .cfg) || !decide (k < 16) && s.cursor.off.getLsbD (k - 16)) := by
  simp only [statusWord, BitVec.getLsbD_or, BitVec.getLsbD_setWidth, BitVec.getLsbD_shiftLeft, getLsbD_flagAt,
    hk, decide_true, Bool.true_and, Nat.reduceLT, show k - 16 < 32 by omega]

theorem statusWord_result (s : State) : (statusWord s).extractLsb' 0 4 = s.lastResult.code := by
  apply BitVec.eq_of_getLsbD_eq
  intro k hk
  have hne : ∀ m, 4 ≤ m → k ≠ m := by omega
  simp [getLsbD_statusWord s (show k < 32 by omega), hk, hne, show k < 16 by omega]

theorem statusWord_reserved (s : State) : (statusWord s).extractLsb' 9 7 = 0 := by
  apply BitVec.eq_of_getLsbD_eq
  intro k hk
  have hne : ∀ m, m ≤ 8 → 9 + k ≠ m := by omega
  simp [getLsbD_statusWord s (show 9 + k < 32 by omega),
    BitVec.getLsbD_of_ge s.lastResult.code _ (show 4 ≤ 9 + k by omega), hk, hne, show 9 + k < 16 by omega]

theorem statusWord_curOff (s : State) : (statusWord s).extractLsb' 16 16 = s.cursor.off := by
  apply BitVec.eq_of_getLsbD_eq
  intro k hk
  have hne : ∀ m, m ≤ 8 → 16 + k ≠ m := by omega
  simp [getLsbD_statusWord s (show 16 + k < 32 by omega),
    BitVec.getLsbD_of_ge s.lastResult.code _ (show 4 ≤ 16 + k by omega), hk, hne]

theorem statusWord_flags (s : State) :
    (statusWord s).getLsbD 4 = decide (s.session = .prog) ∧ (statusWord s).getLsbD 5 = s.faultSeen ∧
      (statusWord s).getLsbD 6 = belowFloor s.timing ∧ (statusWord s).getLsbD 7 = s.cursor.valid ∧
      (statusWord s).getLsbD 8 = decide (s.cursor.space = .cfg) := by
  simp (disch := decide) [getLsbD_statusWord, -BitVec.getLsbD_eq_getElem]

theorem belowFloor_iff (t : Timing) :
    belowFloor t = true ↔
      t.tEdge.toNat < 100 ∨ t.tCmd.toNat < 1000 ∨ t.tProg.toNat < 5000000 ∨ t.tMclr.toNat < 1000000 := by
  simp [belowFloor, timingFloor, or_assoc]

/-! ### Every request is answered -/

/-- One response has joined those of `s`, with the status word of `t` (R72, R76). -/
def AnsweredFrom (s t : State) : Prop :=
  ∃ data, t.responses = { status := statusWord t, data := data } :: s.responses

theorem answeredFrom_answered {r : Result} {data : List Word} {s u : State} (h : u.responses = s.responses) :
    AnsweredFrom s (answered r data u) :=
  ⟨data, congrArg _ h⟩

theorem exec_answers (i : Instr) (s : State) : ∃ t, exec i s = .next t ∧ AnsweredFrom s t := by
  rcases exec_effect i s with ⟨r, -, h⟩ | ⟨env, items, m, k, τ, d, r, data, -, -, -, -, h⟩
  · exact ⟨_, h, answeredFrom_answered rfl⟩
  · exact ⟨_, h, answeredFrom_answered rfl⟩

theorem perform_badOp {m : Message} {s : State} (hd : decode s.params m = .error .badOp) :
    perform m s = .next (refusedWith .eBadOp s) := by
  simp only [perform, hd, refuse_eq_refusedWith]

theorem perform_badArg {m : Message} {s : State} (hd : decode s.params m = .error .badArg) :
    perform m s = .next (refusedWith .eBadArg s) := by
  simp only [perform, hd, refuse_eq_refusedWith]

theorem perform_instr {m : Message} {s : State} {i : Instr} (hd : decode s.params m = .ok i) :
    perform m s = exec i s := by
  simp only [perform, hd]

theorem perform_request_answers (h : Word) (ops : List Word) (s : State) :
    ∃ t, perform (.request h ops) s = .next t ∧ AnsweredFrom s t := by
  cases hd : decode s.params (.request h ops) with
  | ok i =>
    rw [perform_instr hd]
    exact exec_answers i s
  | error e =>
    rcases decodeRequest_error hd with rfl | rfl
    · exact ⟨_, perform_badOp hd, answeredFrom_answered rfl⟩
    · exact ⟨_, perform_badArg hd, answeredFrom_answered rfl⟩

/-! ### The operand bits that an operation sends, and no others -/

theorem bitsOf_congr {n v v' : Nat} (h : ∀ k < n, v.testBit k = v'.testBit k) : bitsOf n v = bitsOf n v' :=
  List.map_congr_left fun k hk => h k (List.mem_range.mp hk)

theorem exec_sendBits_single (n : BitVec 6) (v : Word) (s : State) :
    exec (.sendBits n [v]) s =
      .next (plainOp (bitsLegal s.params n)
        (fun s => complete .ok [] (invalidateCursor (sendList (bitsOf n.toNat v.toNat) (arriveRaw s)))) s) := by
  simp [exec, execSendBits, hasOperands, operand, sendBits]

/-- Two instructions that ask for the same command, with the same payload, do the same (R98 to R109). -/
theorem exec_eq_of_commandForm {i j : Instr} {c : Cmd} {p : Payload} (s : State) (hi : commandForm i = some (c, p))
    (hj : commandForm j = some (c, p)) : exec i s = exec j s := by
  rcases exec_command s hi with ⟨hc, hi⟩ | ⟨hc, -, hi⟩ <;> rcases exec_command s hj with ⟨hc', hj⟩ | ⟨hc', -, hj⟩
  · rw [hi, hj]
  · exact absurd hc' hc
  · exact absurd hc hc'
  · rw [hi, hj]

theorem hasOperands_congr {ws ws' : List Word} (h : ws.map operandPayload = ws'.map operandPayload) (n : Nat) :
    hasOperands ws n = hasOperands ws' n := by
  have hlen : ws.length = ws'.length := by simpa using congrArg List.length h
  rw [hasOperands, hlen, hasOperands]

/-- The write loop sends the payloads of its operand words, and nothing else of them (R75, R119 to R121). -/
theorem writeLoop_congr {ws ws' : List Word} (h : ws.map operandPayload = ws'.map operandPayload) (c : Cmd)
    (n l i : Nat) (s : State) : writeLoop c n l ws i s = writeLoop c n l ws' i s := by
  induction ws generalizing ws' i s with
  | nil =>
    obtain rfl : ws' = [] := by simpa using h.symm
    rfl
  | cons w ws ih =>
    cases ws' with
    | nil => cases h
    | cons w' ws' =>
      obtain ⟨hw, hws⟩ := List.cons.inj h
      simp only [writeLoop, hw, ih hws]

/-! ### The statements -/

/-- Settles O5, from the bits of the read word. -/
theorem readWordFields : Obligations.ReadWordFields := by
  intro raw
  refine ⟨BitVec.eq_of_getLsbD_eq fun k hk => ?_, BitVec.eq_of_getLsbD_eq fun k hk => ?_, fun k hk => ?_⟩
  · have h14 : ¬ 16 + k < 14 := by omega
    simp [getLsbD_readWord raw (show 16 + k < 32 by omega), hk, h14]
  · have h16 : 14 + k < 16 := by omega
    simp [getLsbD_readWord raw (show 14 + k < 32 by omega), hk, h16]
  · have h16 : k < 16 := by omega
    simp [getLsbD_readWord raw (show k < 32 by omega), hk, h16]

/-- Settles O3: the decoder's two errors, each answered by the port's refusal. -/
theorem unassignedOperationRefused : Obligations.UnassignedOperationRefused :=
  ⟨fun _ ops _ _ hop hgap => perform_badOp (decodeRequest_unassigned ops hop hgap),
    fun _ ops _ hop hrgn => perform_badArg (decodeRequest_reservedRegion ops hop hrgn)⟩

/-- Settles O6: the fields from the bits of the status word, the response from the inversion of `exec`. -/
theorem statusWordOfEveryResponse : Obligations.StatusWordOfEveryResponse := by
  refine ⟨fun s => ?_, fun h ops s => ?_⟩
  · obtain ⟨hprog, hfault, hfloor, hvalid, hspace⟩ := statusWord_flags s
    refine ⟨?_, hprog, hfault, ?_, hvalid, hspace, statusWord_reserved s, statusWord_curOff s⟩
    · rw [statusWord_result]
      cases s.lastResult <;> rfl
    · rw [hfloor, belowFloor_iff]
  · obtain ⟨t, ht, data, hr⟩ := perform_request_answers h ops s
    exact ⟨t, data, ht, hr⟩

/-- Settles O2: the header by `decodeRequest_congr`, and each operand by what its operation sends of it. -/
theorem unusedFieldsAndBitsIgnored : Obligations.UnusedFieldsAndBitsIgnored := by
  refine ⟨fun h h' ops => decodeRequest_congr ops, fun n v v' s hbits => ?_, fun v v' s hv => ?_,
    fun n ws ws' s hws => ?_⟩
  · rw [exec_sendBits_single, exec_sendBits_single, bitsOf_congr hbits]
  · have hform (c : Cmd) : loadForm c [v] = loadForm c [v'] := congrArg (fun p => some (c, p)) hv
    exact ⟨exec_eq_of_commandForm s (hform _) rfl, exec_eq_of_commandForm s (hform _) rfl,
      exec_eq_of_commandForm s (hform _) rfl⟩
  · simp only [← operandPayload_eq] at hws
    refine ⟨?_, ?_, ?_⟩
    · simp only [exec, execWriteRegionPm, hasOperands_congr hws, writeLoop_congr hws]
    · simp only [exec, execWriteRegionDm, hasOperands_congr hws, writeLoop_congr hws]
    · simp only [exec, execWriteRegionCfg, hasOperands_congr hws, writeLoop_congr hws]

end Sys2Proof.Machine

/-! PROOFS. The mode-control requests, and the key on the wire (spec/41_mode_control.md R93 to R96). -/

namespace Sys2Proof

/-! ### The headers of the three requests (R79) -/

theorem decodeRequest_enterProg {h : Word} (ops : List Word) (hop : headerOp h = 0x10) :
    decodeRequest h ops = .ok (.enterProg ops) := by
  simp [decodeRequest, hop]

theorem decodeRequest_exitProg {h : Word} (ops : List Word) (hop : headerOp h = 0x11) :
    decodeRequest h ops = .ok (.exitProg ops) := by
  simp [decodeRequest, hop]

theorem decodeRequest_resetTarget {h : Word} (ops : List Word) (hop : headerOp h = 0x12) :
    decodeRequest h ops = .ok (.resetTarget ops) := by
  simp [decodeRequest, hop]

end Sys2Proof

namespace Sys2Proof.Machine

/-! ### What each request does, from either session -/

/-- A mode-control request (R93, R95, R96): it takes no operand word (R133), and one that plays `items` writes the session
and clears the cursor shadow (R17, R22). -/
theorem modeRequest_eq (ops : List Word) (m : Session) {waveform : State → State} {items : List TraceItem} {s : State}
    (hplay : waveform s = played items s) :
    plainOp (hasOperands ops 0) (fun s => complete .ok [] (enterSession m (waveform s))) s =
      if ops = [] then answered .ok [] { played items s with session := m, cursor := ⟨false, .main, 0⟩ }
      else refusedWith .eBadArg s := by
  simp only [plainOp_eq, hasOperands_zero, hplay, complete_eq_answered]
  rfl

/-- R93: ENTER_PROG. -/
theorem exec_enterProg (ops : List Word) (s : State) :
    exec (.enterProg ops) s =
      .next (if ops = [] then
        answered .ok [] { played (enterItems s.params s.timing) s with session := .prog, cursor := ⟨false, .main, 0⟩ }
      else refusedWith .eBadArg s) :=
  congrArg Host.Outcome.next (modeRequest_eq ops .prog (enterWaveform_eq_played s))

/-- R95: EXIT_PROG. -/
theorem exec_exitProg (ops : List Word) (s : State) :
    exec (.exitProg ops) s =
      .next (if ops = [] then
        answered .ok [] { played [.event (.mclr true)] s with session := .normal, cursor := ⟨false, .main, 0⟩ }
      else refusedWith .eBadArg s) :=
  congrArg Host.Outcome.next (modeRequest_eq ops .normal (emit_eq_played (.mclr true) s))

/-- R96: RESET_TARGET. -/
theorem exec_resetTarget (ops : List Word) (s : State) :
    exec (.resetTarget ops) s =
      .next (if ops = [] then
        answered .ok [] { played (resetItems s.timing) s with session := .normal, cursor := ⟨false, .main, 0⟩ }
      else refusedWith .eBadArg s) :=
  congrArg Host.Outcome.next (modeRequest_eq ops .normal (resetWaveform_eq_played s))

/-! ### The bits that a sent trace carries (R85, R86, R89) -/

/-- The sent bits of a trace are read piece by piece, each from the levels the one before it leaves. -/
theorem sentBits_append (l : Lines) (a b : List TraceItem) :
    sentBits l (a ++ b) = sentBits l a ++ sentBits (linesAfter l a) b := by
  induction a generalizing l with
  | nil => rfl
  | cons x a ih =>
    cases x with
    | wait ns => exact ih l
    | event e =>
      cases e with
      | mclr v | dat v | dir d | sample v => exact ih _
      | clk v =>
        cases v with
        | true => exact ih _
        | false =>
          simp only [List.cons_append, sentBits, linesAfter, ih]
          split <;> rfl

theorem sentBits_bitItems {l : Lines} (hl : LinesIdle l) (e : Nat) (b : Bool) : sentBits l (bitItems e b) = [b] := by
  simp [bitItems, sentBits, Lines.apply, hl.2]

/-- From idle lines, the bits of a list are read off the trace that sends them. -/
theorem sentBits_bits {l : Lines} (hl : LinesIdle l) (e : Nat) (bs : List Bool) :
    sentBits l (bs.flatMap (bitItems e)) = bs := by
  induction bs generalizing l with
  | nil => rfl
  | cons b bs ih =>
    rw [List.flatMap_cons, sentBits_append, sentBits_bitItems hl, ih ((Whole.bit e b).idle l hl), List.singleton_append]

/-- `SendBits(n, v)` puts bits 0 to `n - 1` of `v` on the wire (R86). -/
theorem sentBits_sendItems {l : Lines} (hl : LinesIdle l) (e n v : Nat) : sentBits l (sendItems e n v) = bitsOf n v :=
  sentBits_bits hl e (bitsOf n v)

/-- DATA keeps the level of the last bit sent (R85). -/
theorem datOut_linesAfter_bits (l : Lines) (e : Nat) (bs : List Bool) :
    (linesAfter l (bs.flatMap (bitItems e))).datOut = bs.getLastD l.datOut := by
  induction bs generalizing l with
  | nil => rfl
  | cons b bs ih =>
    rw [List.flatMap_cons, linesAfter_append, ih, List.getLastD_cons]
    rfl

/-- After `SendBits(n + 1, v)`, DATA keeps the level of bit `n` of `v` (R86). -/
theorem datOut_linesAfter_sendItems (l : Lines) (e n v : Nat) :
    (linesAfter l (sendItems e (n + 1) v)).datOut = v.testBit n := by
  rw [sendItems, datOut_linesAfter_bits]
  simp [bitsOf, List.range_succ]

/-! ### The key inside the entry sequence (R67, R93, R94) -/

/-- ENTER_PROG sends the key and nothing else: only MCLR has moved before it, so CLK and DATA are still idle (R93, R94). -/
theorem sentBits_enterItems {l : Lines} (hl : LinesIdle l) (p : Params) (τ : Timing) :
    sentBits l (enterItems p τ) = bitsOf 33 p.key.toNat := by
  have hkey : sentBits { l with mclr := false } (keyItems p τ.tEdge.toNat) = bitsOf 33 p.key.toNat :=
    sentBits_sendItems (l := { l with mclr := false }) hl _ _ _
  rw [enterItems, sentBits_append, sentBits_append]
  simp [sentBits, linesAfter, Lines.apply, hkey]

/-- After ENTER_PROG, DATA keeps the level of the key's last bit (R94). -/
theorem datOut_linesAfter_enterItems (l : Lines) (p : Params) (τ : Timing) :
    (linesAfter l (enterItems p τ)).datOut = p.key.toNat.testBit 32 := by
  rw [enterItems, linesAfter_append, linesAfter_append]
  simp only [linesAfter, keyItems]
  exact datOut_linesAfter_sendItems _ _ 32 _

theorem trace_played (items : List TraceItem) (s : State) : (played items s).trace = s.trace ++ items := by
  simp [State.trace]

/-- What ENTER_PROG with no operand leaves on the lines and in the trace (R93). -/
theorem enterProg_lines_trace {s t : State} (h : exec (.enterProg []) s = .next t) :
    t.lines = linesAfter s.lines (enterItems s.params s.timing) ∧
      t.trace = s.trace ++ enterItems s.params s.timing := by
  rw [exec_enterProg, if_pos rfl] at h
  generalize enterItems s.params s.timing = items at h ⊢
  cases h
  exact ⟨rfl, trace_played _ s⟩

/-! ### The statements -/

/-- Settles O19: the entry sequence sends the bits of the key of R7, whose last bit is the 0 that DATA keeps. -/
theorem keyBitsOnTheWire : Obligations.KeyBitsOnTheWire := by
  intro s t new hr7 hidle hexec hnew
  obtain ⟨hlines, htrace⟩ := enterProg_lines_trace hexec
  obtain rfl : new = enterItems s.params s.timing := List.append_cancel_left (hnew.symm.trans htrace)
  rw [sentBits_enterItems hidle, hlines, datOut_linesAfter_enterItems, hr7.key]
  decide

/-- Settles O16, by the meaning of ENTER_PROG. -/
theorem enterProgEntersProgramming : Obligations.EnterProgEntersProgramming :=
  ⟨fun _ ops => decodeRequest_enterProg ops, exec_enterProg⟩

/-- Settles O17, by the meaning of EXIT_PROG. -/
theorem exitProgLeavesProgramming : Obligations.ExitProgLeavesProgramming :=
  ⟨fun _ ops => decodeRequest_exitProg ops, exec_exitProg⟩

/-- Settles O18, by the meaning of RESET_TARGET. -/
theorem resetTargetRestartsTarget : Obligations.ResetTargetRestartsTarget :=
  ⟨fun _ ops => decodeRequest_resetTarget ops, exec_resetTarget⟩

end Sys2Proof.Machine

/-! PROOFS. The region requests that run no command: the empty one, and the erase of the configuration region
(spec/43_memory_access.md R112, R118). -/

namespace Sys2Proof.Machine

/-! ### The checks of a region request -/

/-- A region request is `regionOp` behind the check of its argument (R112, R133, R136); the erase of the configuration
region is one whose check never passes (R118). -/
theorem exec_region {i : Instr} {n : BitVec 16} {ops : List Word} (s : State) (h : regionForm i = some (n, ops)) :
    ∃ body, exec i s = .next (regionOp (WellFormed s.params i) n body s) := by
  cases i with
  | readRegion rgn count ops | eraseRegionPm count ops | eraseRegionDm count ops | writeRegionPm count ops
  | writeRegionDm count ops | writeRegionCfg count ops =>
    cases h
    exact ⟨_, rfl⟩
  | eraseRegionCfg count ops => exact ⟨id, rfl⟩
  | _ => cases h

/-- R136 step 3: a region request with `COUNT` = 0 ends after its argument check, before the check of the session. -/
theorem regionOp_zero {n : BitVec 16} (ok : Bool) (body : State → State) (s : State) (hn : n.toNat = 0) :
    regionOp ok n body s = if ok = true then answered .ok [] s else refusedWith .eBadArg s := by
  rw [regionOp_eq, if_pos hn]

/-! ### The statements -/

/-- Settles O33: the argument check passes, and `COUNT` = 0 ends the request there. -/
theorem emptyRegionIsNoOp : Obligations.EmptyRegionIsNoOp := by
  intro i n ops s hform hwf hn
  obtain ⟨body, hexec⟩ := exec_region s hform
  rw [hexec, regionOp_zero _ _ _ hn, if_pos hwf]

/-- Settles O28: the request has no legal form, so its one step is the refusal. -/
theorem eraseConfigRefused : Obligations.EraseConfigRefused :=
  fun _ _ s => congrArg Host.Outcome.next (refuse_eq_refusedWith .eBadArg s)

end Sys2Proof.Machine

/-! PROOFS. The control and status requests (spec/44_control_status.md R127 to R129). -/

namespace Sys2Proof

/-! ### The headers of the three requests (R79) -/

theorem decodeRequest_getStatus {h : Word} (ops : List Word) (hop : headerOp h = 0x00) :
    decodeRequest h ops = .ok (.getStatus ops) := by
  simp [decodeRequest, hop]

theorem decodeRequest_setTiming {h : Word} (ops : List Word) (hop : headerOp h = 0x01) :
    decodeRequest h ops = .ok (.setTiming (headerCount h) ops) := by
  simp [decodeRequest, hop]

theorem decodeRequest_getTiming {h : Word} (ops : List Word) (hop : headerOp h = 0x02) :
    decodeRequest h ops = .ok (.getTiming (headerCount h) ops) := by
  simp [decodeRequest, hop]

end Sys2Proof

namespace Sys2Proof.Machine

/-! ### The timing registers by index (R24) -/

/-- The index counts the registers in the order of R24's table; past the last one it reads 0. -/
theorem timing_get_eq_getD (τ : Timing) (k : Nat) :
    τ.get k = [τ.tEdge, τ.tCmd, τ.tProg, τ.tMclr, τ.tKey, τ.tRst].getD k 0 := by
  match k with
  | 0 | 1 | 2 | 3 | 4 | 5 => rfl
  | _ + 6 => rfl

/-- An index past the last register writes none. -/
theorem timing_set_of_ge (τ : Timing) (v : Word) {idx : Nat} (hidx : 6 ≤ idx) : τ.set idx v = τ := by
  match idx with
  | 0 | 1 | 2 | 3 | 4 | 5 => omega
  | _ + 6 => rfl

/-- Writing one register and reading the same or another back (R24, R25): the registers are distinct fields, so it is a
case for each pair of indices. -/
theorem timing_get_set (τ : Timing) (v : Word) {idx k : Nat} (hk : k < 6) :
    (τ.set idx v).get k = if k = idx then v else τ.get k := by
  rcases Nat.lt_or_ge idx 6 with hidx | hidx
  · interval_cases idx <;> interval_cases k <;> rfl
  · rw [timing_set_of_ge τ v hidx, if_neg (by omega)]

/-! ### What each request does, in either session -/

/-- The operand count check (R75). -/
theorem hasOperands_iff (ops : List Word) (n : Nat) : hasOperands ops n = true ↔ ops.length = n :=
  decide_eq_true_iff

/-- The index check (R74), with the bound R128 and R129 write. -/
theorem indexLegal_iff (idx : BitVec 16) : indexLegal idx = true ↔ idx.toNat ≤ 5 :=
  decide_eq_true_iff.trans Nat.lt_succ_iff

/-- R127: GET_STATUS. -/
theorem exec_getStatus (ops : List Word) (s : State) :
    exec (.getStatus ops) s = .next (if ops = [] then answered .ok [] s else refusedWith .eBadArg s) := by
  simp only [exec, execGetStatus, plainOp_eq, hasOperands_zero, complete_eq_answered]

/-- R128: SET_TIMING. -/
theorem exec_setTiming (idx : BitVec 16) (ops : List Word) (s : State) :
    exec (.setTiming idx ops) s =
      .next (if idx.toNat ≤ 5 ∧ ops.length = 1 then
        answered .ok [] { s with timing := s.timing.set idx.toNat (operand ops) }
      else refusedWith .eBadArg s) := by
  simp only [exec, execSetTiming, plainOp_eq, Bool.and_eq_true, indexLegal_iff, hasOperands_iff, complete_eq_answered]

/-- R129: GET_TIMING. -/
theorem exec_getTiming (idx : BitVec 16) (ops : List Word) (s : State) :
    exec (.getTiming idx ops) s =
      .next (if idx.toNat ≤ 5 ∧ ops = [] then answered .ok [s.timing.get idx.toNat] s else refusedWith .eBadArg s) := by
  simp only [exec, execGetTiming, plainOp_eq, Bool.and_eq_true, indexLegal_iff, hasOperands_zero, complete_eq_answered]

/-! ### The statements -/

/-- Settles O11, by the meaning of GET_STATUS. -/
theorem getStatusReports : Obligations.GetStatusReports :=
  ⟨fun _ ops => decodeRequest_getStatus ops, exec_getStatus⟩

/-- Settles O12: the registers SET_TIMING leaves are those of `Timing.set`, read back by `timing_get_set`. -/
theorem setTimingWritesOneRegister : Obligations.SetTimingWritesOneRegister := by
  refine ⟨fun _ ops => decodeRequest_setTiming ops, ?completes, ?refused⟩
  case completes =>
    intro idx v s hidx
    refine ⟨s.timing.set idx.toNat v, fun k hk => timing_get_set s.timing v hk, ?_⟩
    rw [exec_setTiming, if_pos ⟨hidx, rfl⟩]
    rfl
  case refused =>
    intro idx ops s hbad
    rw [exec_setTiming, if_neg (by omega)]

/-- Settles O13: the value GET_TIMING answers is that of `Timing.get`, in the order of `timing_get_eq_getD`. -/
theorem getTimingReadsRegister : Obligations.GetTimingReadsRegister := by
  refine ⟨fun _ ops => decodeRequest_getTiming ops, ?completes, ?refused⟩
  case completes =>
    intro idx s hidx
    rw [exec_getTiming, if_pos ⟨hidx, rfl⟩, timing_get_eq_getD]
  case refused =>
    intro idx ops s hbad
    rw [exec_getTiming, if_neg]
    rintro ⟨hidx, hops⟩
    exact hbad.elim (Nat.not_lt.2 hidx) (· hops)

end Sys2Proof.Machine

/-! PROOFS. The two faults of the argument and session checks, and exactly when each is raised (spec/60_exceptions.md
R133, R134, R136). -/

namespace Sys2Proof

/-! ### The checks of a request, by what fails them (R74, R75, R133) -/

theorem wfOperands_eq_false_iff (ops : List Word) (n : Nat) : wfOperands ops n = false ↔ ops.length ≠ n :=
  decide_eq_false_iff_not

theorem wfIndex_eq_false_iff (idx : BitVec 16) : wfIndex idx = false ↔ 5 < idx.toNat :=
  decide_eq_false_iff_not.trans Nat.not_le

theorem wfBits_eq_false_iff (p : Params) (n : BitVec 6) :
    wfBits p n = false ↔ n.toNat = 0 ∨ p.nbitsMax < n.toNat := by
  simp only [wfBits, Bool.and_eq_false_iff, decide_eq_false_iff_not]
  omega

theorem wfConfigCount_eq_false_iff (p : Params) (count : BitVec 16) :
    wfConfigCount p count = false ↔ count.toNat ≠ 0 ∧ count.toNat ≠ p.cfgWords := by
  simp only [wfConfigCount, Bool.or_eq_false_iff, decide_eq_false_iff_not, ne_eq]

/-- The four values of `RGN` (R73). -/
theorem rgn_cases (r : BitVec 2) : r = 0 ∨ r = 1 ∨ r = 2 ∨ r = 3 := by
  revert r
  decide

end Sys2Proof

namespace Sys2Proof.Machine

/-! ### The outcome of the checks of every instruction (R136) -/

/-- The instruction is performed only in `PROG`: it asks for a command, or for a region of `COUNT` 1 or more (R97, R112,
R134). -/
def NeedsProg (i : Instr) : Prop :=
  (commandForm i).isSome = true ∨ ∃ n ops, regionForm i = some (n, ops) ∧ 1 ≤ n.toNat

/-- What the checks of an instruction lead to, in their order (R136): the refusal of illegal arguments, the refusal in
`NORMAL`, or a state whose result is no fault. -/
inductive CheckOutcome (i : Instr) (s : State) : State → Prop where
  | badArg (hwf : WellFormed s.params i = false) : CheckOutcome i s (refusedWith .eBadArg s)
  | notProg (hwf : WellFormed s.params i = true) (hnormal : s.session = .normal) (hneeds : NeedsProg i) :
    CheckOutcome i s (refusedWith .eNotProg s)
  | performed {t : State} (hwf : WellFormed s.params i = true) (hprog : NeedsProg i → s.session = .prog)
    (hok : t.lastResult.isFault = false) : CheckOutcome i s t

/-- The instruction leads to a next state, which is an outcome of its checks. -/
def Checked (i : Instr) (s : State) : Prop := ∃ t, exec i s = .next t ∧ CheckOutcome i s t

theorem not_needsProg {i : Instr} (hcmd : commandForm i = none) (hregion : regionForm i = none) : ¬ NeedsProg i := by
  simp [NeedsProg, hcmd, hregion]

theorem session_eq_normal_of_ne_prog {m : Session} (h : m ≠ .prog) : m = .normal := by
  cases m with
  | normal => rfl
  | prog => exact absurd rfl h

theorem Checked.badArg {i : Instr} {s : State} (hwf : ¬ WellFormed s.params i = true)
    (h : exec i s = .next (refusedWith .eBadArg s)) : Checked i s :=
  ⟨_, h, .badArg (Bool.eq_false_iff.2 hwf)⟩

/-- A request that any session may make. -/
theorem Checked.plain {i : Instr} {s : State} {ok : Bool} {body : State → State}
    (h : exec i s = .next (plainOp ok body s)) (hok : ok = WellFormed s.params i) (hneeds : ¬ NeedsProg i)
    (hbody : ∀ u, (body u).lastResult.isFault = false) : Checked i s := by
  rw [plainOp_eq, hok] at h
  split at h
  case isTrue hwf => exact ⟨_, h, .performed hwf (fun hn => absurd hn hneeds) (hbody s)⟩
  case isFalse hwf => exact .badArg hwf h

/-- A command request or a wire command. -/
theorem Checked.command {i : Instr} {s : State} {body : State → State}
    (h : exec i s = .next (commandOp (WellFormed s.params i) body s))
    (hform : WellFormed s.params i = true → (commandForm i).isSome = true)
    (hbody : ∀ u, (body u).lastResult.isFault = false) : Checked i s := by
  rw [commandOp_eq] at h
  split at h
  case isTrue hwf =>
    split at h
    case isTrue hp => exact ⟨_, h, .performed hwf (fun _ => hp) (hbody _)⟩
    case isFalse hp => exact ⟨_, h, .notProg hwf (session_eq_normal_of_ne_prog hp) (.inl (hform hwf))⟩
  case isFalse hwf => exact .badArg hwf h

theorem commandForm_of_region {i : Instr} {n : BitVec 16} {ops : List Word} (hform : regionForm i = some (n, ops)) :
    commandForm i = none := by
  cases i with
  | readRegion rgn count ops | eraseRegionPm count ops | eraseRegionDm count ops | eraseRegionCfg count ops
  | writeRegionPm count ops | writeRegionDm count ops | writeRegionCfg count ops => rfl
  | _ => cases hform

/-- A region request needs `PROG` by its count alone. -/
theorem needsProg_of_region {i : Instr} {n : BitVec 16} {ops : List Word} (hform : regionForm i = some (n, ops)) :
    NeedsProg i ↔ 1 ≤ n.toNat := by
  simp [NeedsProg, commandForm_of_region hform, hform]

/-- A region request. -/
theorem Checked.region {i : Instr} {s : State} {n : BitVec 16} {ops : List Word} {body : State → State}
    (h : exec i s = .next (regionOp (WellFormed s.params i) n body s)) (hform : regionForm i = some (n, ops))
    (hbody : ∀ u, (body u).lastResult.isFault = false) : Checked i s := by
  have hneeds := needsProg_of_region hform
  rw [regionOp_eq] at h
  split at h
  case isTrue hwf =>
    split at h
    case isTrue hn => exact ⟨_, h, .performed hwf (fun hp => absurd hn (Nat.pos_iff_ne_zero.1 (hneeds.1 hp))) rfl⟩
    case isFalse hn =>
      split at h
      case isTrue hp => exact ⟨_, h, .performed hwf (fun _ => hp) (hbody _)⟩
      case isFalse hp =>
        exact ⟨_, h, .notProg hwf (session_eq_normal_of_ne_prog hp) (hneeds.2 (Nat.pos_of_ne_zero hn))⟩
  case isFalse hwf => exact .badArg hwf h

/-- A read that runs ends in `OK` or `ABORTED` (R113, R123). -/
theorem readLoop_not_fault (rgn : Region) (n : Nat) (s : State) :
    (readLoop (readCmd rgn) n 0 [] s).lastResult.isFault = false := by
  obtain ⟨k, rx, d, r, -, -, hr, h⟩ := readLoop_eq (readCmd rgn) (readCmd_reads rgn) n 0 [] s
  rw [h]
  obtain ⟨rfl, -⟩ | ⟨rfl, -⟩ := hr <;> rfl

/-- A write that runs ends in `OK` or `ABORTED` (R119 to R124). -/
theorem writeLoop_not_fault (rgn : Region) (n l : Nat) (ws : List Word) (s : State) :
    (writeLoop (loadCmd rgn) n l ws 0 s).lastResult.isFault = false := by
  obtain ⟨k, d, r, hr, h⟩ := writeLoop_eq (loadCmd rgn) (loadCmd_sends rgn) n l 0 ws s
  rw [h]
  obtain ⟨rfl, -⟩ | ⟨rfl, -⟩ := hr <;> rfl

theorem indexLegal_eq_wfIndex (idx : BitVec 16) : indexLegal idx = wfIndex idx :=
  Bool.eq_iff_iff.2 ((indexLegal_iff idx).trans decide_eq_true_iff.symm)

theorem loadForm_isSome {ops : List Word} (c : Cmd) (h : wfOperands ops 1 = true) : (loadForm c ops).isSome = true := by
  obtain ⟨w, rfl⟩ := List.length_eq_one_iff.1 (Laws.wfOperands_length h)
  rfl

theorem bareForm_isSome {ops : List Word} (c : Cmd) (h : wfOperands ops 0 = true) : (bareForm c ops).isSome = true := by
  obtain rfl := List.length_eq_zero_iff.1 (Laws.wfOperands_length h)
  rfl

theorem runRead_lastResult (c : Cmd) (s : State) : (runRead c s).lastResult = .ok := rfl

/-- Every instruction is a request for any session, a command or a region request, and its arguments are checked by
`WellFormed` (R136). -/
theorem exec_checked (i : Instr) (s : State) : Checked i s := by
  cases i with
  | getStatus ops | sendBits n ops | recvBits n ops | enterProg ops | exitProg ops | resetTarget ops =>
    exact .plain rfl rfl (not_needsProg rfl rfl) fun _ => rfl
  | setTiming idx ops | getTiming idx ops =>
    exact .plain rfl (by rw [indexLegal_eq_wfIndex]; rfl) (not_needsProg rfl rfl) fun _ => rfl
  | icspKey => exact ⟨_, rfl, .performed rfl (fun hn => absurd hn (not_needsProg rfl rfl)) rfl⟩
  | cmdLoadConfig ops | cmdLoadDataPm ops | cmdLoadDataDm ops => exact .command rfl (loadForm_isSome _) fun _ => rfl
  | cmdReadDataPm ops | cmdReadDataDm ops =>
    exact .command rfl (bareForm_isSome _) fun u => congrArg Result.isFault (runRead_lastResult _ u)
  | cmdIncrementAddress ops | cmdResetAddress ops | cmdBeginIntProg ops | cmdBulkErasePm ops | cmdBulkEraseDm ops =>
    exact .command rfl (bareForm_isSome _) fun _ => rfl
  | icspReadDataProgramMemory | icspReadDataDataMemory =>
    exact .command rfl (fun _ => rfl) fun u => congrArg Result.isFault (runRead_lastResult _ u)
  | icspLoadConfiguration payload | icspLoadDataProgramMemory payload | icspLoadDataDataMemory payload
  | icspIncrementAddress | icspResetAddress | icspBeginInternallyTimedProgramming | icspBulkEraseProgramMemory
  | icspBulkEraseDataMemory => exact .command rfl (fun _ => rfl) fun _ => rfl
  | readRegion rgn n ops => exact .region rfl rfl fun u => readLoop_not_fault rgn _ _
  | eraseRegionPm n ops | eraseRegionDm n ops => exact .region rfl rfl fun _ => rfl
  | eraseRegionCfg n ops => exact .badArg (by simp [WellFormed]) rfl
  | writeRegionPm n ops => exact .region rfl rfl fun u => writeLoop_not_fault .pm _ _ _ _
  | writeRegionDm n ops => exact .region rfl rfl fun u => writeLoop_not_fault .dm _ _ _ _
  | writeRegionCfg n ops => exact .region rfl rfl fun u => writeLoop_not_fault .cfg _ _ _ _

/-- The inversion of `exec` by its checks, for a given next state. -/
theorem exec_outcome {i : Instr} {s t : State} (h : exec i s = .next t) : CheckOutcome i s t := by
  obtain ⟨u, hu, hchecks⟩ := exec_checked i s
  cases h.symm.trans hu
  exact hchecks

/-! ### The two faults of an instruction -/

theorem lastResult_ne_of_not_fault {t : State} (r : Result) (hok : t.lastResult.isFault = false)
    (hr : r.isFault = true) : t.lastResult ≠ r := by
  rintro rfl
  exact Bool.false_ne_true (hok.symm.trans hr)

theorem exec_eBadArg_iff {i : Instr} {s t : State} (h : exec i s = .next t) :
    t.lastResult = .eBadArg ↔ WellFormed s.params i = false := by
  cases exec_outcome h with
  | badArg hwf => simp [hwf]
  | notProg hwf => simp [hwf]
  | performed hwf _ hok => simp [hwf, lastResult_ne_of_not_fault .eBadArg hok rfl]

theorem exec_eNotProg_iff {i : Instr} {s t : State} (h : exec i s = .next t) :
    t.lastResult = .eNotProg ↔ s.session = .normal ∧ WellFormed s.params i = true ∧ NeedsProg i := by
  cases exec_outcome h with
  | badArg hwf => simp [hwf]
  | notProg hwf hnormal hneeds => simp [hwf, hnormal, hneeds]
  | performed hwf hprog hok =>
    have hrefused : ¬ (s.session = .normal ∧ WellFormed s.params i = true ∧ NeedsProg i) := by
      rintro ⟨hnormal, -, hneeds⟩
      cases hnormal.symm.trans (hprog hneeds)
    simp only [hrefused, lastResult_ne_of_not_fault .eNotProg hok rfl]

/-! ### The operations of the port that are commands (R79) -/

theorem commandForm_isSome_iff {i : Instr} {op : Nat} {p : Params} (hport : portOp i = some op)
    (hwf : WellFormed p i = true) : (commandForm i).isSome = true ↔ 0x20 ≤ op ∧ op ≤ 0x29 := by
  cases i with
  | cmdLoadConfig ops | cmdLoadDataPm ops | cmdLoadDataDm ops =>
    cases hport
    simp [commandForm, loadForm_isSome _ hwf]
  | cmdReadDataPm ops | cmdReadDataDm ops | cmdIncrementAddress ops | cmdResetAddress ops | cmdBeginIntProg ops
  | cmdBulkErasePm ops | cmdBulkEraseDm ops =>
    cases hport
    simp [commandForm, bareForm_isSome _ hwf]
  | _ =>
    cases hport
    all_goals simp [commandForm]

/-! ### The argument faults of a request, by its header (R133) -/

/-- What the decoder makes of a request is refused with `E_BAD_ARG`: by the port, or by the instruction's own argument
check (R84, R133). -/
def ArgsRefused (p : Params) : Except DecodeError Instr → Prop
  | .ok i => WellFormed p i = false
  | .error e => e = .badArg

theorem perform_request_eBadArg_iff {h : Word} {ops : List Word} {s t : State}
    (hperform : perform (.request h ops) s = .next t) :
    t.lastResult = .eBadArg ↔ ArgsRefused s.params (decode s.params (.request h ops)) := by
  cases hd : decode s.params (.request h ops) with
  | ok i =>
    rw [perform_instr hd] at hperform
    exact exec_eBadArg_iff hperform
  | error e =>
    rcases decodeRequest_error hd with rfl | rfl
    · rw [perform_badOp hd] at hperform
      cases hperform
      simp [ArgsRefused]
    · rw [perform_badArg hd] at hperform
      cases hperform
      simp [ArgsRefused]

/-! ### The statements -/

/-- Settles O35: the decoder's arm for each assigned `OP`, and the checks that arm's request can fail: a register index,
a bit count, a region with its count, and for every `OP` the operand count. -/
theorem badArgExactly : Obligations.BadArgExactly := by
  intro h ops s t op hr7 hop hassigned hperform
  rw [perform_request_eBadArg_iff hperform, decode]
  subst hop
  unfold decodeRequest
  split
  -- no assigned `OP`
  case h_22 => simp_all only [List.mem_cons, List.not_mem_nil, or_self, imp_false]
  case h_2 hn | h_3 hn =>
    simp [hn, ArgsRefused, WellFormed, wfIndex_eq_false_iff, wfOperands_eq_false_iff, Bool.and_eq_false_iff,
      -Bool.and_eq_false_imp]
  case h_4 hn | h_5 hn =>
    simp [hn, ArgsRefused, WellFormed, wfBits_eq_false_iff, wfOperands_eq_false_iff, hr7.nbitsMax,
      Bool.and_eq_false_iff, -Bool.and_eq_false_imp]
  case h_19 hn | h_20 hn | h_21 hn =>
    rcases rgn_cases (headerRgn h) with hr | hr | hr | hr
    all_goals simp [hn, hr, regionOf, ArgsRefused, WellFormed, wfConfigCount_eq_false_iff, wfOperands_eq_false_iff,
      hr7.cfgWords, Bool.and_eq_false_iff, -Bool.and_eq_false_imp, or_comm]
  all_goals simp [*, ArgsRefused, WellFormed, wfOperands_eq_false_iff]

/-- Settles O36: the session check refuses what needs `PROG`, which among well-formed requests of the port is a command
or a non-empty region request. -/
theorem notProgExactly : Obligations.NotProgExactly := by
  intro i op s t hport h
  rw [exec_eNotProg_iff h]
  refine and_congr_right fun _ => and_congr_right fun hwf => ?_
  rw [NeedsProg, commandForm_isSome_iff hport hwf]

end Sys2Proof.Machine

/-! PROOFS. What a request that ends with `OK` adds to the trace, its CLK pulses and its least duration
(spec/70_reset_and_hazards.md R159, R160). -/

namespace Sys2Proof.Machine

/-! ### The trace of a request that ends with `OK` -/

/-- The frames that a list of commands receives: one of `W_FRAME` bits for each that reads (R98). -/
inductive FramesFit : List (Cmd × Payload) → List (List Bool) → Prop where
  | nil : FramesFit [] []
  | send {c : Cmd × Payload} {cs : List (Cmd × Payload)} {rx : List (List Bool)} (hc : cmdClass c.1 ≠ .inp)
    (hrest : FramesFit cs rx) : FramesFit (c :: cs) rx
  | read {c : Cmd × Payload} {cs : List (Cmd × Payload)} {bs : List Bool} {rx : List (List Bool)}
    (hc : cmdClass c.1 = .inp) (hbs : bs.length = Config.wFrame) (hrest : FramesFit cs rx) :
    FramesFit (c :: cs) (bs :: rx)

theorem FramesFit.of_sends {cs : List (Cmd × Payload)} (h : ∀ c ∈ cs, cmdClass c.1 ≠ .inp) : FramesFit cs [] := by
  induction cs with
  | nil => exact .nil
  | cons c cs ih => exact .send (h c List.mem_cons_self) (ih fun c' hc' => h c' (List.mem_cons_of_mem c hc'))

theorem FramesFit.wordReads {c : Cmd} (hc : cmdClass c = .inp) {rx : List (List Bool)}
    (h : ∀ bs ∈ rx, bs.length = Config.wFrame) : FramesFit (wordReads c rx.length) rx := by
  induction rx with
  | nil => exact .nil
  | cons bs rx ih =>
    rw [List.length_cons, wordReads_succ]
    exact .read hc (h bs List.mem_cons_self)
      (.send (by decide) (ih fun bs' hbs' => h bs' (List.mem_cons_of_mem bs hbs')))

theorem FramesFit.readCommands (p : Params) (rgn : Region) {rx : List (List Bool)}
    (h : ∀ bs ∈ rx, bs.length = Config.wFrame) : FramesFit (readCommands p rgn rx.length) rx := by
  rw [readCommands_eq]
  refine .send ?_ (.wordReads (readCmd_reads rgn) h)
  cases rgn <;> simp [cmdClass]

/-- The commands of a region request whose count is not 0 (R113, R116, R117, R119 to R121). -/
def regionCommands (p : Params) : Instr → List (Cmd × Payload)
  | .readRegion rgn n _ => readCommands p rgn n.toNat
  | .eraseRegionPm _ _ => [(.loadConfig, p.ldcfgPayload), (.bulkErasePm, 0)]
  | .eraseRegionDm _ _ => [(.bulkEraseDm, 0)]
  | .writeRegionPm n ops => writePrologue p .pm ++ loadCommands (loadCmd .pm) n.toNat (p.latchSize .pm) 0 ops
  | .writeRegionDm n ops => writePrologue p .dm ++ loadCommands (loadCmd .dm) n.toNat (p.latchSize .dm) 0 ops
  | .writeRegionCfg n ops => writePrologue p .cfg ++ loadCommands (loadCmd .cfg) n.toNat (p.latchSize .cfg) 0 ops
  | _ => []

/-- The traces that an instruction which ends with `OK` can add: the waveform its rule gives it. -/
inductive OkTrace (p : Params) (τ : Timing) : Instr → List TraceItem → Prop where
  | getStatus (ops : List Word) : OkTrace p τ (.getStatus ops) []
  | setTiming (idx : BitVec 16) (ops : List Word) : OkTrace p τ (.setTiming idx ops) []
  | getTiming (idx : BitVec 16) (ops : List Word) : OkTrace p τ (.getTiming idx ops) []
  | sendBits (n : BitVec 6) (ops : List Word) :
    OkTrace p τ (.sendBits n ops) (sendItems τ.tEdge.toNat n.toNat (operand ops).toNat)
  | recvBits (n : BitVec 6) (ops : List Word) {bs : List Bool} (hbs : bs.length = n.toNat) :
    OkTrace p τ (.recvBits n ops) (recvItems τ.tEdge.toNat bs)
  | enterProg (ops : List Word) : OkTrace p τ (.enterProg ops) (enterItems p τ)
  | exitProg (ops : List Word) : OkTrace p τ (.exitProg ops) [.event (.mclr true)]
  | resetTarget (ops : List Word) : OkTrace p τ (.resetTarget ops) (resetItems τ)
  | icspKey : OkTrace p τ .icspKey (enterItems p τ)
  | command {i : Instr} {c : Cmd} {payload : Payload} {rx : List (List Bool)}
    (hform : commandForm i = some (c, payload)) (hrx : FramesFit [(c, payload)] rx) :
    OkTrace p τ i (readingItems p τ [(c, payload)] rx)
  | emptyRegion {i : Instr} {n : BitVec 16} {ops : List Word} (hform : regionForm i = some (n, ops))
    (hn : n.toNat = 0) : OkTrace p τ i []
  | region {i : Instr} {n : BitVec 16} {ops : List Word} {rx : List (List Bool)}
    (hform : regionForm i = some (n, ops)) (hn : n.toNat ≠ 0) (hwf : WellFormed p i = true)
    (hrx : FramesFit (regionCommands p i) rx) : OkTrace p τ i (readingItems p τ (regionCommands p i) rx)

/-- From `s` to `t` the trace has grown by what an instruction that ends with `OK` adds. -/
def AddsOkTrace (i : Instr) (s t : State) : Prop :=
  ∃ items, OkTrace s.params s.timing i items ∧ t.trace = s.trace ++ items

/-- From `s` to `t` the trace has grown by a list of commands, with the frames they received. -/
def AddsCommands (cs : List (Cmd × Payload)) (s t : State) : Prop :=
  ∃ rx, FramesFit cs rx ∧ t.trace = s.trace ++ readingItems s.params s.timing cs rx

theorem AddsOkTrace.silent {i : Instr} {s t : State} (hi : OkTrace s.params s.timing i []) (ht : t.trace = s.trace) :
    AddsOkTrace i s t :=
  ⟨[], hi, by rw [ht, List.append_nil]⟩

theorem addsCommands_ranWith {cs : List (Cmd × Payload)} {rx : List (List Bool)} (hrx : FramesFit cs rx) (r : Result)
    (data : List Word) (d : Draws) (s : State) : AddsCommands cs s (answered r data (ranWith cs rx d (arrive s))) :=
  ⟨rx, hrx, trace_played (readingItems s.params s.timing cs rx) (arrive s)⟩

theorem plainOp_of_ok {ok : Bool} {body : State → State} {s : State} (h : (plainOp ok body s).lastResult = .ok) :
    plainOp ok body s = body s := by
  rw [plainOp_eq] at h ⊢
  split at h
  case isTrue hargs => rw [if_pos hargs]
  case isFalse => cases h

theorem commandOp_of_ok {ok : Bool} {body : State → State} {s : State} (h : (commandOp ok body s).lastResult = .ok) :
    commandOp ok body s = body (arrive s) := by
  rw [commandOp_eq] at h ⊢
  split at h
  case isTrue hargs =>
    split at h
    case isTrue hprog => rw [if_pos hargs, if_pos hprog]
    case isFalse => cases h
  case isFalse => cases h

theorem regionOp_of_ok {ok : Bool} {n : BitVec 16} {body : State → State} {s : State}
    (h : (regionOp ok n body s).lastResult = .ok) :
    n.toNat = 0 ∧ regionOp ok n body s = answered .ok [] s ∨ n.toNat ≠ 0 ∧ regionOp ok n body s = body (arrive s) := by
  rw [regionOp_eq] at h ⊢
  split at h
  case isTrue hargs =>
    rw [if_pos hargs]
    split at h
    case isTrue hn => exact .inl ⟨hn, if_pos hn⟩
    case isFalse hn =>
      split at h
      case isTrue hprog => exact .inr ⟨hn, by rw [if_neg hn, if_pos hprog]⟩
      case isFalse => cases h
  case isFalse => cases h

/-- A request that only its arguments can refuse, by what its body adds. -/
theorem addsOkTrace_plain {i : Instr} {ok : Bool} {body : State → State} {s : State}
    (hok : (plainOp ok body s).lastResult = .ok) (hbody : AddsOkTrace i s (body s)) :
    AddsOkTrace i s (plainOp ok body s) := by
  rwa [plainOp_of_ok hok]

theorem addsOkTrace_sendBits (n : BitVec 6) (ops : List Word) (s : State) :
    AddsOkTrace (.sendBits n ops) s
      (complete .ok [] (invalidateCursor (sendBits n.toNat (operand ops).toNat (arriveRaw s)))) :=
  ⟨_, .sendBits n ops, by rw [sendBits_eq_played]; exact trace_played _ (arriveRaw s)⟩

theorem addsOkTrace_recvBits (n : BitVec 6) (ops : List Word) (s : State) :
    AddsOkTrace (.recvBits n ops) s
      (complete .ok [BitVec.ofNat 32 (bitsValue (recvBits n.toNat (arriveRaw s)).1)]
        (invalidateCursor (recvBits n.toNat (arriveRaw s)).2)) := by
  obtain ⟨bs, d, hbs, -, h⟩ := recvBits_eq n.toNat (arriveRaw s)
  rw [h]
  exact ⟨_, .recvBits n ops hbs, trace_played _ (arriveRaw s)⟩

theorem addsOkTrace_mode {i : Instr} {waveform : State → State} {items : List TraceItem} {s : State} (m : Session)
    (hi : OkTrace s.params s.timing i items) (hplay : waveform s = played items s) :
    AddsOkTrace i s (complete .ok [] (enterSession m (waveform s))) :=
  ⟨items, hi, by rw [hplay]; exact trace_played items s⟩

theorem addsCommands_runCommand {c : Cmd} (payload : Payload) (s : State) (hc : cmdClass c ≠ .inp) :
    AddsCommands [(c, payload)] s (runCommand c payload (arrive s)) := by
  rw [runCommand, issue_eq_ranWith c payload _ hc]
  exact addsCommands_ranWith (.send hc .nil) _ _ _ s

theorem addsCommands_runRead {c : Cmd} (s : State) (hc : cmdClass c = .inp) :
    AddsCommands [(c, 0)] s (runRead c (arrive s)) := by
  obtain ⟨bs, d, hbs, -, h⟩ := issueCmd_eq_ranWith c 0 (arrive s) hc
  rw [runRead, h]
  exact addsCommands_ranWith (.read hc hbs .nil) _ _ _ s

theorem addsOkTrace_command {i : Instr} {s t : State} (hform : (commandForm i).isSome = true)
    (h : exec i s = .next t) (hok : t.lastResult = .ok) : AddsOkTrace i s t := by
  obtain ⟨⟨c, payload⟩, hform⟩ := Option.isSome_iff_exists.1 hform
  have hadds : AddsCommands [(c, payload)] s t := by
    rcases exec_command s hform with ⟨hc, he⟩ | ⟨hc, rfl, he⟩
    · cases h.symm.trans he
      rw [commandOp_of_ok hok]
      exact addsCommands_runCommand payload s hc
    · cases h.symm.trans he
      rw [commandOp_of_ok hok]
      exact addsCommands_runRead s hc
  obtain ⟨rx, hrx, ht⟩ := hadds
  exact ⟨_, .command hform hrx, ht⟩

/-- A region request, by what its body adds where it runs. -/
theorem addsOkTrace_region {i : Instr} {ok : Bool} {n : BitVec 16} {ops : List Word} {body : State → State} {s : State}
    (hok : (regionOp ok n body s).lastResult = .ok) (hform : regionForm i = some (n, ops))
    (hwf : WellFormed s.params i = true)
    (hbody : (body (arrive s)).lastResult = .ok → AddsCommands (regionCommands s.params i) s (body (arrive s))) :
    AddsOkTrace i s (regionOp ok n body s) := by
  rcases regionOp_of_ok hok with ⟨hn, h⟩ | ⟨hn, h⟩
  · rw [h]
    exact .silent (.emptyRegion hform hn) rfl
  · rw [h] at hok ⊢
    obtain ⟨rx, hrx, ht⟩ := hbody hok
    exact ⟨_, .region hform hn hwf hrx, ht⟩

/-- The erase path of program memory (R116). -/
theorem addsCommands_erasePm (s : State) :
    AddsCommands [(.loadConfig, s.params.ldcfgPayload), (.bulkErasePm, 0)] s
      (complete .ok [] (erasePm (arrive s))) := by
  rw [erasePm_eq_ranWith, complete_eq_answered, arrive_params]
  exact addsCommands_ranWith (.of_sends (by simp [cmdClass])) _ _ _ s

/-- A read that ends with `OK` has read every word (R113). -/
theorem addsCommands_readLoop {rgn : Region} {n : Nat} {s : State}
    (hok : (readLoop (readCmd rgn) n 0 [] (position rgn (arrive s))).lastResult = .ok) :
    AddsCommands (readCommands s.params rgn n) s (readLoop (readCmd rgn) n 0 [] (position rgn (arrive s))) := by
  obtain ⟨k, rx, d, r, rfl, hrx, hr, h⟩ := readBody_eq rgn n (arrive s)
  rw [h] at hok ⊢
  obtain ⟨-, rfl⟩ | ⟨rfl, -⟩ := hr
  · exact addsCommands_ranWith (.readCommands s.params rgn hrx) _ _ _ s
  · cases hok

/-- A write that ends with `OK` has written every word (R119 to R121). -/
theorem addsCommands_writeLoop {rgn : Region} {n l : Nat} {ws : List Word} {s : State}
    (hok : (writeLoop (loadCmd rgn) n l ws 0
      (ranWith (writePrologue s.params rgn) [] s.draws (arrive s))).lastResult = .ok) :
    AddsCommands (writePrologue s.params rgn ++ loadCommands (loadCmd rgn) n l 0 ws) s
      (writeLoop (loadCmd rgn) n l ws 0 (ranWith (writePrologue s.params rgn) [] s.draws (arrive s))) := by
  obtain ⟨k, d, r, hr, h⟩ := writeBody_eq rgn n l ws (arrive s)
  simp only [arrive_params, arrive_draws] at h
  rw [h] at hok ⊢
  obtain ⟨-, rfl⟩ | ⟨rfl, -⟩ := hr
  · rw [List.take_length]
    refine addsCommands_ranWith (.of_sends fun c hc => ?_) _ _ _ s
    rcases List.mem_append.1 hc with hc | hc
    · exact writePrologue_sends _ _ c hc
    · exact loadCommands_send _ (loadCmd_sends rgn) _ _ _ _ c hc
  · cases hok

theorem wellFormed_of_ok {i : Instr} {s t : State} (h : exec i s = .next t) (hok : t.lastResult = .ok) :
    WellFormed s.params i = true := by
  rw [← Bool.not_eq_false, ← exec_eBadArg_iff h, hok]
  decide

/-- The inversion of `exec` for an instruction that ends with `OK`, by what it adds to the trace. -/
theorem exec_addsOkTrace {i : Instr} {s t : State} (h : exec i s = .next t) (hok : t.lastResult = .ok) :
    AddsOkTrace i s t := by
  have hwf := wellFormed_of_ok h hok
  cases i with
  | getStatus ops =>
    cases h
    exact addsOkTrace_plain hok (.silent (.getStatus ops) rfl)
  | setTiming idx ops =>
    cases h
    exact addsOkTrace_plain hok (.silent (.setTiming idx ops) rfl)
  | getTiming idx ops =>
    cases h
    exact addsOkTrace_plain hok (.silent (.getTiming idx ops) rfl)
  | sendBits n ops =>
    cases h
    exact addsOkTrace_plain hok (addsOkTrace_sendBits n ops s)
  | recvBits n ops =>
    cases h
    exact addsOkTrace_plain hok (addsOkTrace_recvBits n ops s)
  | enterProg ops =>
    cases h
    exact addsOkTrace_plain hok (addsOkTrace_mode .prog (.enterProg ops) (enterWaveform_eq_played s))
  | exitProg ops =>
    cases h
    exact addsOkTrace_plain hok (addsOkTrace_mode .normal (.exitProg ops) (emit_eq_played (.mclr true) s))
  | resetTarget ops =>
    cases h
    exact addsOkTrace_plain hok (addsOkTrace_mode .normal (.resetTarget ops) (resetWaveform_eq_played s))
  | icspKey =>
    obtain rfl : complete .ok [] (enterSession .prog (enterWaveform s)) = t := Host.Outcome.next.inj h
    exact addsOkTrace_mode .prog .icspKey (enterWaveform_eq_played s)
  | cmdLoadConfig ops | cmdLoadDataPm ops | cmdLoadDataDm ops =>
    exact addsOkTrace_command (loadForm_isSome _ hwf) h hok
  | cmdReadDataPm ops | cmdReadDataDm ops | cmdIncrementAddress ops | cmdResetAddress ops | cmdBeginIntProg ops
  | cmdBulkErasePm ops | cmdBulkEraseDm ops => exact addsOkTrace_command (bareForm_isSome _ hwf) h hok
  | icspLoadConfiguration _ | icspLoadDataProgramMemory _ | icspLoadDataDataMemory _ | icspReadDataProgramMemory
  | icspReadDataDataMemory | icspIncrementAddress | icspResetAddress | icspBeginInternallyTimedProgramming
  | icspBulkEraseProgramMemory | icspBulkEraseDataMemory => exact addsOkTrace_command rfl h hok
  | readRegion rgn n ops =>
    cases h
    exact addsOkTrace_region hok rfl hwf addsCommands_readLoop
  | eraseRegionPm n ops =>
    cases h
    exact addsOkTrace_region hok rfl hwf fun _ => addsCommands_erasePm s
  | eraseRegionDm n ops =>
    cases h
    exact addsOkTrace_region hok rfl hwf fun _ => addsCommands_runCommand 0 s (by decide)
  | eraseRegionCfg n ops => cases hwf
  | writeRegionPm n ops =>
    cases h
    refine addsOkTrace_region hok rfl hwf fun hrun => ?_
    rw [prologuePm_eq] at hrun ⊢
    exact addsCommands_writeLoop hrun
  | writeRegionDm n ops =>
    cases h
    refine addsOkTrace_region hok rfl hwf fun hrun => ?_
    rw [prologueDm_eq] at hrun ⊢
    exact addsCommands_writeLoop hrun
  | writeRegionCfg n ops =>
    cases h
    refine addsOkTrace_region hok rfl hwf fun hrun => ?_
    rw [prologueCfg_eq] at hrun ⊢
    exact addsCommands_writeLoop hrun

/-- What an instruction that ends with `OK` has added is the waveform of its rule. -/
theorem exec_okTrace {i : Instr} {s t : State} {new : List TraceItem} (h : exec i s = .next t)
    (hok : t.lastResult = .ok) (hnew : t.trace = s.trace ++ new) : OkTrace s.params s.timing i new := by
  obtain ⟨items, hitems, ht⟩ := exec_addsOkTrace h hok
  rwa [List.append_cancel_left (hnew.symm.trans ht)]

/-! ### Measures that add up along a trace -/

/-- A measure of traces that adds up along them, as pulses and waits do (R159, R160). -/
structure AddsUp (f : List TraceItem → Nat) : Prop where
  nil : f [] = 0
  append : ∀ a b, f (a ++ b) = f a + f b

theorem pulses_append (a b : List TraceItem) : pulses (a ++ b) = pulses a + pulses b := by
  induction a with
  | nil => simp [pulses]
  | cons x a ih =>
    match x with
    | .event (.clk true) => simp only [List.cons_append, pulses, ih, Nat.add_right_comm]
    | .event (.clk false) | .event (.mclr _) | .event (.dat _) | .event (.dir _) | .event (.sample _) | .wait _ =>
      exact ih

theorem minDuration_append (a b : List TraceItem) : minDuration (a ++ b) = minDuration a + minDuration b := by
  induction a with
  | nil => simp [minDuration]
  | cons x a ih =>
    cases x with
    | event e => exact ih
    | wait ns => simp only [List.cons_append, minDuration, ih, Nat.add_assoc]

theorem addsUp_pulses : AddsUp pulses := ⟨rfl, pulses_append⟩

theorem addsUp_minDuration : AddsUp minDuration := ⟨rfl, minDuration_append⟩

/-- Equal pieces, one for each bit, add up to their number. -/
theorem AddsUp.flatMap {f : List TraceItem → Nat} (hf : AddsUp f) {g : Bool → List TraceItem} {w : Nat}
    (hg : ∀ b, f (g b) = w) (bs : List Bool) : f (bs.flatMap g) = bs.length * w := by
  induction bs with
  | nil => simp [hf.nil]
  | cons b bs ih => rw [List.flatMap_cons, hf.append, hg, ih, List.length_cons, Nat.succ_mul, Nat.add_comm]

theorem length_bitsOf (n v : Nat) : (bitsOf n v).length = n := by simp [bitsOf]

theorem pulses_sendItems (e n v : Nat) : pulses (sendItems e n v) = n := by
  rw [sendItems, addsUp_pulses.flatMap (w := 1) fun _ => rfl, length_bitsOf, Nat.mul_one]

theorem pulses_recvItems (e : Nat) (bs : List Bool) : pulses (recvItems e bs) = bs.length := by
  rw [recvItems, pulses_append, pulses_append, addsUp_pulses.flatMap (w := 1) fun _ => rfl]
  simp [pulses]

theorem minDuration_sendItems (e n v : Nat) : minDuration (sendItems e n v) = 3 * n * e := by
  rw [sendItems, addsUp_minDuration.flatMap (w := e + (e + e)) fun _ => rfl, length_bitsOf]
  ring

theorem minDuration_recvItems (e : Nat) (bs : List Bool) :
    minDuration (recvItems e bs) = (2 * bs.length + 1) * e := by
  rw [recvItems, minDuration_append, minDuration_append, addsUp_minDuration.flatMap (w := e + e) fun _ => rfl]
  simp only [minDuration]
  ring

/-! ### The measures of the waveforms -/

theorem pulses_enterItems (p : Params) (τ : Timing) : pulses (enterItems p τ) = 33 := by
  rw [enterItems, keyItems, pulses_append, pulses_append, pulses_sendItems]
  rfl

theorem minDuration_enterItems (p : Params) (τ : Timing) :
    minDuration (enterItems p τ) = 3 * τ.tMclr.toNat + 99 * τ.tEdge.toNat + τ.tKey.toNat := by
  rw [enterItems, keyItems, minDuration_append, minDuration_append, minDuration_sendItems]
  simp only [minDuration]
  omega

theorem minDuration_resetItems (τ : Timing) : minDuration (resetItems τ) = 2 * τ.tRst.toNat := by
  simp only [resetItems, minDuration]
  omega

/-- The CLK pulses of a command: its opcode, and the frame of the OUT and IN classes (R159). -/
def commandPulses (c : Cmd) : Nat :=
  match cmdClass c with
  | .none => 6
  | .out => 22
  | .inp => 22

/-- The least duration of a command, by its class (R160). -/
def commandDuration (τ : Timing) (c : Cmd) : Nat :=
  match cmdClass c with
  | .none => 18 * τ.tEdge.toNat + settle c τ
  | .out => 66 * τ.tEdge.toNat + 2 * τ.tCmd.toNat
  | .inp => 51 * τ.tEdge.toNat + 2 * τ.tCmd.toNat

/-- The commands that start internal timing are the three of R68. -/
theorem settle_eq (c : Cmd) (τ : Timing) :
    settle c τ = if c = .beginIntProg ∨ c = .bulkErasePm ∨ c = .bulkEraseDm then max τ.tCmd.toNat τ.tProg.toNat
      else τ.tCmd.toNat := by
  cases c <;> rfl

/-- A command with a frame waits `T_CMD` after its opcode (R68, R98). -/
theorem settle_of_frame {c : Cmd} (hc : cmdClass c ≠ .none) (τ : Timing) : settle c τ = τ.tCmd.toNat := by
  rw [settle_eq, if_neg]
  rintro (rfl | rfl | rfl) <;> exact hc rfl

theorem pulses_commandItems (p : Params) (τ : Timing) (c : Cmd) (payload : Payload) {rx : List Bool}
    (hrx : cmdClass c = .inp → rx.length = Config.wFrame) : pulses (commandItems p τ c payload rx) = commandPulses c := by
  unfold commandItems commandPulses
  rw [pulses_append, pulses_append, pulses_sendItems]
  cases hc : cmdClass c with
  | none => rfl
  | out =>
    simp only [pulses_append, pulses_sendItems]
    rfl
  | inp =>
    simp only [pulses_append, pulses_recvItems, hrx hc]
    rfl

theorem minDuration_commandItems (p : Params) (τ : Timing) (c : Cmd) (payload : Payload) {rx : List Bool}
    (hrx : cmdClass c = .inp → rx.length = Config.wFrame) :
    minDuration (commandItems p τ c payload rx) = commandDuration τ c := by
  unfold commandItems commandDuration
  rw [minDuration_append, minDuration_append, minDuration_sendItems]
  cases hc : cmdClass c with
  | none => rfl
  | out =>
    simp only [minDuration_append, minDuration_sendItems, minDuration, settle_of_frame (c := c) (by simp [hc]),
      Config.wOpc, Config.wFrame]
    omega
  | inp =>
    simp only [minDuration_append, minDuration_recvItems, minDuration, settle_of_frame (c := c) (by simp [hc]), hrx hc,
      Config.wOpc, Config.wFrame]
    omega

/-! ### The measure of a list of commands -/

/-- What a list of commands costs, where `w` says what each does. -/
def commandsCost (w : Cmd → Nat) (cs : List (Cmd × Payload)) : Nat := (cs.map fun c => w c.1).sum

@[simp] theorem commandsCost_nil (w : Cmd → Nat) : commandsCost w [] = 0 := rfl

@[simp] theorem commandsCost_cons (w : Cmd → Nat) (c : Cmd × Payload) (cs : List (Cmd × Payload)) :
    commandsCost w (c :: cs) = w c.1 + commandsCost w cs := rfl

@[simp] theorem commandsCost_append (w : Cmd → Nat) (a b : List (Cmd × Payload)) :
    commandsCost w (a ++ b) = commandsCost w a + commandsCost w b := by
  simp [commandsCost]

@[simp] theorem commandsCost_replicate (w : Cmd → Nat) (n : Nat) (c : Cmd × Payload) :
    commandsCost w (List.replicate n c) = n * w c.1 := by
  simp [commandsCost]

/-- A measure that each command's trace costs `w` is what the list costs. -/
theorem AddsUp.readingItems {f : List TraceItem → Nat} (hf : AddsUp f) {p : Params} {τ : Timing} {w : Cmd → Nat}
    (hw : ∀ c payload rx, (cmdClass c = .inp → rx.length = Config.wFrame) → f (commandItems p τ c payload rx) = w c)
    {cs : List (Cmd × Payload)} {rx : List (List Bool)} (hrx : FramesFit cs rx) :
    f (readingItems p τ cs rx) = commandsCost w cs := by
  induction hrx with
  | nil => exact hf.nil
  | send hc _ ih =>
    rw [Machine.readingItems, if_neg hc, hf.append, hw _ _ _ (absurd · hc), ih, commandsCost_cons]
  | read hc hbs _ ih =>
    rw [Machine.readingItems, if_pos hc, List.headD_cons, List.tail_cons, hf.append, hw _ _ _ fun _ => hbs, ih,
      commandsCost_cons]

theorem pulses_readingItems (p : Params) (τ : Timing) {cs : List (Cmd × Payload)} {rx : List (List Bool)}
    (hrx : FramesFit cs rx) : pulses (readingItems p τ cs rx) = commandsCost commandPulses cs :=
  addsUp_pulses.readingItems (fun c payload _ => pulses_commandItems p τ c payload) hrx

theorem minDuration_readingItems (p : Params) (τ : Timing) {cs : List (Cmd × Payload)} {rx : List (List Bool)}
    (hrx : FramesFit cs rx) : minDuration (readingItems p τ cs rx) = commandsCost (commandDuration τ) cs :=
  addsUp_minDuration.readingItems (fun c payload _ => minDuration_commandItems p τ c payload) hrx

theorem commandsCost_wordReads (w : Cmd → Nat) (c : Cmd) (n : Nat) :
    commandsCost w (wordReads c n) = n * (w c + w .incrementAddress) := by
  induction n with
  | zero => simp
  | succ n ih => rw [wordReads_succ, commandsCost_cons, commandsCost_cons, ih]; ring

/-- READ_REGION (R113): the positioning command, and a read and an increment for each word. -/
theorem commandsCost_readCommands (w : Cmd → Nat) (p : Params) (rgn : Region) (n : Nat) :
    commandsCost w (readCommands p rgn n) =
      w (positionCmd rgn) + n * (w (readCmd rgn) + w .incrementAddress) := by
  rw [readCommands_eq, commandsCost_cons, commandsCost_wordReads]
  cases rgn <;> rfl

/-- The programming triggers of `len` words from word `i` on (R122). -/
def triggerCount (n l : Nat) : Nat → Nat → Nat
  | _, 0 => 0
  | i, len + 1 => (if progTrigger i n l then 1 else 0) + triggerCount n l (i + 1) len

/-- A trigger closes every latch group, the last one though it may not be full (R122). -/
theorem triggerCount_add_div {n l : Nat} (hl : 0 < l) (len i : Nat) (hn : i + (len + 1) = n) :
    triggerCount n l i (len + 1) + i / l = (n + (l - 1)) / l := by
  induction len generalizing i with
  | zero =>
    have hlast : n + (l - 1) = i + l := by omega
    have htrigger : progTrigger i n l = true := (progTrigger_iff i n l).2 (.inr hn)
    rw [hlast, Nat.add_div_right i hl, triggerCount, triggerCount, if_pos htrigger]
    omega
  | succ len ih =>
    have hrest := ih (i + 1) (by omega)
    have hgroup : (i + 1) / l = i / l + if progTrigger i n l = true then 1 else 0 := by
      have hmore : i + 1 ≠ n := by omega
      simp only [Nat.succ_div, Nat.dvd_iff_mod_eq_zero, progTrigger_iff, hmore, or_false]
    rw [triggerCount]
    omega

theorem triggerCount_all {l : Nat} (hl : 0 < l) (n : Nat) : triggerCount n l 0 n = (n + (l - 1)) / l := by
  cases n with
  | zero => rw [Nat.zero_add, Nat.div_eq_of_lt (by omega)]; rfl
  | succ n => simpa using triggerCount_add_div hl n 0 (Nat.zero_add _)

theorem commandsCost_loadCommands (w : Cmd → Nat) (c : Cmd) (n l i : Nat) (ws : List Word) :
    commandsCost w (loadCommands c n l i ws) =
      ws.length * (w c + w .incrementAddress) + triggerCount n l i ws.length * w .beginIntProg := by
  induction ws generalizing i with
  | nil => simp [loadCommands, triggerCount]
  | cons v ws ih =>
    simp only [loadCommands, List.length_cons, triggerCount, progTrigger_iff, commandsCost_cons, commandsCost_append, ih]
    split <;> simp only [commandsCost_cons, commandsCost_nil] <;> ring

/-- The words of a write (R119 to R122): a load and an increment for each, and a trigger for each latch group. -/
theorem commandsCost_loadAll (w : Cmd → Nat) (c : Cmd) {n l : Nat} {ws : List Word} (hl : 0 < l) (hn : ws.length = n) :
    commandsCost w (loadCommands c n l 0 ws) =
      n * (w c + w .incrementAddress) + (n + (l - 1)) / l * w .beginIntProg := by
  rw [commandsCost_loadCommands, hn, triggerCount_all hl]

/-! ### The region requests, by what each command costs -/

/-- WRITE_REGION with RGN = 0 (R119). -/
theorem commandsCost_writeRegionPm (w : Cmd → Nat) {p : Params} {n : BitVec 16} {ops : List Word} (hl : 0 < p.lPm)
    (hwf : WellFormed p (.writeRegionPm n ops) = true) :
    commandsCost w (regionCommands p (.writeRegionPm n ops)) =
      w .loadConfig + w .bulkErasePm + w .resetAddress + n.toNat * (w .loadDataPm + w .incrementAddress) +
        (n.toNat + (p.lPm - 1)) / p.lPm * w .beginIntProg := by
  have hlen : ops.length = n.toNat := Laws.wfOperands_length hwf
  simp only [regionCommands, writePrologue, loadCmd, Params.latchSize, commandsCost_append, commandsCost_cons,
    commandsCost_nil, commandsCost_loadAll w .loadDataPm hl hlen]
  ring

/-- WRITE_REGION with RGN = 1 (R120). -/
theorem commandsCost_writeRegionDm (w : Cmd → Nat) {p : Params} {n : BitVec 16} {ops : List Word} (hl : 0 < p.lDm)
    (hwf : WellFormed p (.writeRegionDm n ops) = true) :
    commandsCost w (regionCommands p (.writeRegionDm n ops)) =
      w .bulkEraseDm + w .resetAddress + n.toNat * (w .loadDataDm + w .incrementAddress) +
        (n.toNat + (p.lDm - 1)) / p.lDm * w .beginIntProg := by
  have hlen : ops.length = n.toNat := Laws.wfOperands_length hwf
  simp only [regionCommands, writePrologue, loadCmd, Params.latchSize, commandsCost_append, commandsCost_cons,
    commandsCost_nil, commandsCost_loadAll w .loadDataDm hl hlen]
  ring

/-- WRITE_REGION with RGN = 2 (R121): `CFG_SKIP` increments to the first word, and `CFG_WORDS` words. -/
theorem commandsCost_writeRegionCfg (w : Cmd → Nat) {p : Params} {n : BitVec 16} {ops : List Word} (hl : 0 < p.lCfg)
    (hn : n.toNat ≠ 0) (hwf : WellFormed p (.writeRegionCfg n ops) = true) :
    commandsCost w (regionCommands p (.writeRegionCfg n ops)) =
      w .loadConfig + p.cfgSkip * w .incrementAddress + p.cfgWords * (w .loadDataPm + w .incrementAddress) +
        (p.cfgWords + (p.lCfg - 1)) / p.lCfg * w .beginIntProg := by
  obtain ⟨hcount, hops⟩ := Bool.and_eq_true_iff.1 hwf
  have hwords : n.toNat = p.cfgWords := by simpa [wfConfigCount, hn] using hcount
  have hlen : ops.length = p.cfgWords := (Laws.wfOperands_length hops).trans hwords
  simp only [regionCommands, writePrologue, loadCmd, Params.latchSize, commandsCost_append, commandsCost_cons,
    commandsCost_replicate, hwords, commandsCost_loadAll w .loadDataPm hl hlen]
  ring

/-! ### The pulses of the region requests (R159) -/

theorem pulses_readRegion (p : Params) (rgn : Region) (n : Nat) :
    commandsCost commandPulses (readCommands p rgn n) = commandPulses (positionCmd rgn) + 28 * n := by
  rw [commandsCost_readCommands, Nat.mul_comm]
  cases rgn <;> rfl

theorem pulses_writeRegionPm {p : Params} {n : BitVec 16} {ops : List Word} (hr7 : R7Values p)
    (hwf : WellFormed p (.writeRegionPm n ops) = true) :
    commandsCost commandPulses (regionCommands p (.writeRegionPm n ops)) =
      34 + 28 * n.toNat + 6 * ((n.toNat + 15) / 16) := by
  rw [commandsCost_writeRegionPm _ (by simp [hr7.lPm]) hwf, hr7.lPm]
  simp only [commandPulses, cmdClass]
  omega

theorem pulses_writeRegionDm {p : Params} {n : BitVec 16} {ops : List Word} (hr7 : R7Values p)
    (hwf : WellFormed p (.writeRegionDm n ops) = true) :
    commandsCost commandPulses (regionCommands p (.writeRegionDm n ops)) = 12 + 34 * n.toNat := by
  rw [commandsCost_writeRegionDm _ (by simp [hr7.lDm]) hwf, hr7.lDm]
  simp only [commandPulses, cmdClass]
  omega

theorem pulses_writeRegionCfg {p : Params} {n : BitVec 16} {ops : List Word} (hr7 : R7Values p) (hn : n.toNat ≠ 0)
    (hwf : WellFormed p (.writeRegionCfg n ops) = true) :
    commandsCost commandPulses (regionCommands p (.writeRegionCfg n ops)) = 132 := by
  rw [commandsCost_writeRegionCfg _ (by simp [hr7.lCfg]) hn hwf, hr7.lCfg, hr7.cfgSkip, hr7.cfgWords]
  rfl

/-! ### The duration of each command and request (R160) -/

/-- R160's formula for each class of command. -/
theorem commandDuration_eq (τ : Timing) (c : Cmd) :
    commandDuration τ c =
      match cmdClass c with
      | .none => 18 * τ.tEdge.toNat +
          (if c = .beginIntProg ∨ c = .bulkErasePm ∨ c = .bulkEraseDm then max τ.tCmd.toNat τ.tProg.toNat
            else τ.tCmd.toNat)
      | .out => 66 * τ.tEdge.toNat + 2 * τ.tCmd.toNat
      | .inp => 51 * τ.tEdge.toNat + 2 * τ.tCmd.toNat := by
  unfold commandDuration
  cases cmdClass c with
  | none => exact congrArg (18 * τ.tEdge.toNat + ·) (settle_eq c τ)
  | out => rfl
  | inp => rfl

/-- R160's bracketed figures, at the reset values of the timing registers. -/
theorem commandDuration_reset (c : Cmd) :
    commandDuration Timing.reset c =
      match cmdClass c with
      | .none => if c = .beginIntProg ∨ c = .bulkErasePm ∨ c = .bulkEraseDm then 5001800 else 2800
      | .out => 8600
      | .inp => 7100 := by
  cases c <;> rfl

theorem OkTrace.minDuration_command {p : Params} {τ : Timing} {i : Instr} {items : List TraceItem} {c : Cmd}
    {payload : Payload} (h : OkTrace p τ i items) (hform : commandForm i = some (c, payload)) :
    minDuration items = commandDuration τ c := by
  cases h with
  | command hform' hrx =>
    cases hform.symm.trans hform'
    rw [minDuration_readingItems p τ hrx, commandsCost_cons, commandsCost_nil, Nat.add_zero]
  | emptyRegion hregion _ | region hregion _ _ _ => cases hform.symm.trans (commandForm_of_region hregion)
  | _ => cases hform

theorem OkTrace.minDuration_region {p : Params} {τ : Timing} {i : Instr} {items : List TraceItem} {n : BitVec 16}
    {ops : List Word} (h : OkTrace p τ i items) (hform : regionForm i = some (n, ops)) (hn : n.toNat ≠ 0) :
    WellFormed p i = true ∧ minDuration items = commandsCost (commandDuration τ) (regionCommands p i) := by
  cases h with
  | command hcommand _ => cases hcommand.symm.trans (commandForm_of_region hform)
  | emptyRegion hform' hn' =>
    cases hform.symm.trans hform'
    exact absurd hn' hn
  | region _ _ hwf hrx => exact ⟨hwf, minDuration_readingItems p τ hrx⟩
  | _ => cases hform

theorem OkTrace.minDuration_sendBits {p : Params} {τ : Timing} {n : BitVec 6} {ops : List Word}
    {items : List TraceItem} (h : OkTrace p τ (.sendBits n ops) items) :
    minDuration items = 3 * n.toNat * τ.tEdge.toNat := by
  cases h with
  | sendBits => exact minDuration_sendItems _ _ _
  | command hform _ | emptyRegion hform _ | region hform _ _ _ => cases hform

theorem OkTrace.minDuration_recvBits {p : Params} {τ : Timing} {n : BitVec 6} {ops : List Word}
    {items : List TraceItem} (h : OkTrace p τ (.recvBits n ops) items) :
    minDuration items = (2 * n.toNat + 1) * τ.tEdge.toNat := by
  cases h with
  | recvBits _ _ hbs => rw [minDuration_recvItems, hbs]
  | command hform _ | emptyRegion hform _ | region hform _ _ _ => cases hform

theorem OkTrace.minDuration_enterProg {p : Params} {τ : Timing} {ops : List Word} {items : List TraceItem}
    (h : OkTrace p τ (.enterProg ops) items) :
    minDuration items = 3 * τ.tMclr.toNat + 99 * τ.tEdge.toNat + τ.tKey.toNat := by
  cases h with
  | enterProg => exact minDuration_enterItems p τ
  | command hform _ | emptyRegion hform _ | region hform _ _ _ => cases hform

theorem OkTrace.minDuration_resetTarget {p : Params} {τ : Timing} {ops : List Word} {items : List TraceItem}
    (h : OkTrace p τ (.resetTarget ops) items) : minDuration items = 2 * τ.tRst.toNat := by
  cases h with
  | resetTarget => exact minDuration_resetItems τ
  | command hform _ | emptyRegion hform _ | region hform _ _ _ => cases hform

/-! ### The figures of the region requests at the reset values (R160) -/

theorem commandsCost_readPm_reset (p : Params) (n : Nat) :
    commandsCost (commandDuration Timing.reset) (readCommands p .pm n) = 2800 + 9900 * n := by
  rw [commandsCost_readCommands, commandDuration_reset, commandDuration_reset, commandDuration_reset]
  simp [positionCmd, readCmd, cmdClass, Nat.mul_comm]

theorem commandsCost_writePm_reset {p : Params} {ops : List Word} (hr7 : R7Values p)
    (hwf : WellFormed p (.writeRegionPm 4 ops) = true) :
    commandsCost (commandDuration Timing.reset) (regionCommands p (.writeRegionPm 4 ops)) = 10060600 := by
  rw [commandsCost_writeRegionPm _ (by simp [hr7.lPm]) hwf]
  simp [commandDuration_reset, cmdClass, hr7.lPm]

theorem commandsCost_writeCfg_reset {p : Params} {ops : List Word} (hr7 : R7Values p)
    (hwf : WellFormed p (.writeRegionCfg 2 ops) = true) :
    commandsCost (commandDuration Timing.reset) (regionCommands p (.writeRegionCfg 2 ops)) = 10054600 := by
  rw [commandsCost_writeRegionCfg _ (by simp [hr7.lCfg]) (by decide) hwf]
  simp [commandDuration_reset, cmdClass, hr7.lCfg, hr7.cfgSkip, hr7.cfgWords]

/-! ### The statements -/

/-- Settles O47: each waveform's pulses, those of a region request as the sum over its commands. -/
theorem pulseCounts : Obligations.PulseCounts := by
  intro i op s t new hr7 hport hexec hok hnew
  cases exec_okTrace hexec hok hnew with
  | getStatus | setTiming | getTiming | exitProg | resetTarget => rfl
  | sendBits n ops => exact pulses_sendItems _ _ _
  | recvBits n ops hbs => rw [pulses_recvItems, hbs]
  | enterProg ops => exact pulses_enterItems _ _
  | icspKey => cases hport
  | command hform hrx =>
    rw [pulses_readingItems _ _ hrx, commandsCost_cons, commandsCost_nil]
    cases i with
    | cmdLoadConfig ops | cmdLoadDataPm ops | cmdLoadDataDm ops =>
      obtain ⟨_, -, rfl, -⟩ := loadForm_eq_some hform
      rfl
    | cmdReadDataPm ops | cmdReadDataDm ops | cmdIncrementAddress ops | cmdResetAddress ops | cmdBeginIntProg ops
    | cmdBulkErasePm ops | cmdBulkEraseDm ops =>
      obtain ⟨-, rfl, -⟩ := bareForm_eq_some hform
      rfl
    | icspLoadConfiguration _ | icspLoadDataProgramMemory _ | icspLoadDataDataMemory _ | icspReadDataProgramMemory
    | icspReadDataDataMemory | icspIncrementAddress | icspResetAddress | icspBeginInternallyTimedProgramming
    | icspBulkEraseProgramMemory | icspBulkEraseDataMemory => cases hport
    | _ => cases hform
  | emptyRegion hform hn =>
    cases i with
    | readRegion rgn n ops =>
      cases hform
      cases rgn <;> exact (if_pos hn).symm
    | eraseRegionPm n ops | eraseRegionDm n ops | writeRegionPm n ops | writeRegionDm n ops | writeRegionCfg n ops =>
      cases hform
      exact (if_pos hn).symm
    | eraseRegionCfg n ops => rfl
    | _ => cases hform
  | region hform hn hwf hrx =>
    rw [pulses_readingItems _ _ hrx]
    cases i with
    | readRegion rgn n ops =>
      cases hform
      rw [regionCommands, pulses_readRegion]
      cases rgn <;> exact (if_neg hn).symm
    | eraseRegionPm n ops | eraseRegionDm n ops =>
      cases hform
      exact (if_neg hn).symm
    | eraseRegionCfg n ops => cases hwf
    | writeRegionPm n ops =>
      cases hform
      exact (pulses_writeRegionPm hr7 hwf).trans (if_neg hn).symm
    | writeRegionDm n ops =>
      cases hform
      exact (pulses_writeRegionDm hr7 hwf).trans (if_neg hn).symm
    | writeRegionCfg n ops =>
      cases hform
      exact (pulses_writeRegionCfg hr7 hn hwf).trans (if_neg hn).symm
    | _ => cases hform

/-- Settles O48: each waveform's waits, those of a region request as the sum over its commands. -/
theorem minimumDurations : Obligations.MinimumDurations := by
  intro i op s t new _ hexec hok hnew
  have htrace := exec_okTrace hexec hok hnew
  refine ⟨?send, ?recv, ?command, ?enter, ?reset, fun hτ => ⟨?command0, ?enter0, ?reset0, ?read0, ?writePm0, ?writeCfg0⟩⟩
  case send =>
    rintro n ops rfl
    exact htrace.minDuration_sendBits
  case recv =>
    rintro n ops rfl
    exact htrace.minDuration_recvBits
  case command =>
    intro c payload hform
    exact (htrace.minDuration_command hform).trans (commandDuration_eq s.timing c)
  case enter =>
    rintro rfl
    exact htrace.minDuration_enterProg
  case reset =>
    rintro rfl
    exact htrace.minDuration_resetTarget
  all_goals rw [hτ] at htrace
  case command0 =>
    intro c payload hform
    exact (htrace.minDuration_command hform).trans (commandDuration_reset c)
  case enter0 =>
    rintro rfl
    exact htrace.minDuration_enterProg
  case reset0 =>
    rintro rfl
    exact htrace.minDuration_resetTarget
  case read0 =>
    rintro n rfl hn
    rw [(htrace.minDuration_region rfl hn).2]
    exact commandsCost_readPm_reset _ _
  case writePm0 =>
    rintro hr7 ⟨ws, rfl⟩
    obtain ⟨hwf, hcost⟩ := htrace.minDuration_region rfl (by decide)
    rw [hcost, commandsCost_writePm_reset hr7 hwf]
  case writeCfg0 =>
    rintro hr7 ⟨ws, rfl⟩
    obtain ⟨hwf, hcost⟩ := htrace.minDuration_region rfl (by decide)
    rw [hcost, commandsCost_writeCfg_reset hr7 hwf]

end Sys2Proof.Machine

/-! PROOFS. The encoder and the decoder agree on every instruction, and the units of the wire that are none
(spec/30_encoding.md sections 1 to 3). -/

namespace Sys2Proof

/-! ### A wire command, by its opcode -/

/-- The wire command of a command, with the payload its frame carries (R65, R68). -/
def wireInstr : Cmd → Payload → Instr
  | .loadConfig, payload => .icspLoadConfiguration payload
  | .loadDataPm, payload => .icspLoadDataProgramMemory payload
  | .loadDataDm, payload => .icspLoadDataDataMemory payload
  | .readDataPm, _ => .icspReadDataProgramMemory
  | .readDataDm, _ => .icspReadDataDataMemory
  | .incrementAddress, _ => .icspIncrementAddress
  | .resetAddress, _ => .icspResetAddress
  | .beginIntProg, _ => .icspBeginInternallyTimedProgramming
  | .bulkErasePm, _ => .icspBulkEraseProgramMemory
  | .bulkEraseDm, _ => .icspBulkEraseDataMemory

/-- An opcode value is decoded to its command, because the ten values are distinct (R69). -/
theorem decode_command_opc {p : Params} (hp : p.wf = true) (c : Cmd) (f : Frame) :
    decode p (.command (p.opc c) f) = .ok (wireInstr c (payloadOf f)) := by
  rw [decode, decodeCommand, cmdOf_opc p hp c]
  cases c <;> rfl

/-- A value that is none of the ten opcodes is the opcode of no command (R71). -/
theorem cmdOf_eq_none {p : Params} {c : Opcode} (h : ∀ k : Cmd, p.opc k ≠ c) : cmdOf p c = none :=
  List.find?_eq_none.2 fun k _ => by simp [h k]

/-! ### The statements -/

/-- Settles O1: a host request by the fields of its header, a wire command by its opcode and the payload of its frame. -/
theorem decodeEncodeEveryInstruction : Obligations.DecodeEncodeEveryInstruction := by
  intro p hp i
  cases i with
  | getStatus ops | enterProg ops | exitProg ops | resetTarget ops | cmdLoadConfig ops | cmdLoadDataPm ops
  | cmdLoadDataDm ops | cmdReadDataPm ops | cmdReadDataDm ops | cmdIncrementAddress ops | cmdResetAddress ops
  | cmdBeginIntProg ops | cmdBulkErasePm ops | cmdBulkEraseDm ops =>
    simp [encode, plainRequest, decode, decodeRequest]
  | setTiming idx ops | getTiming idx ops | sendBits n ops | recvBits n ops => simp [encode, decode, decodeRequest]
  | readRegion rgn n ops => simp [encode, decode, decodeRequest]
  | eraseRegionPm n ops | eraseRegionDm n ops | eraseRegionCfg n ops | writeRegionPm n ops | writeRegionDm n ops
  | writeRegionCfg n ops =>
    simp [encode, decode, decodeRequest, regionOf]
  | icspLoadConfiguration payload | icspLoadDataProgramMemory payload | icspLoadDataDataMemory payload =>
    rw [encode, decode_command_opc hp, payloadOf_frameOf]
    rfl
  | icspReadDataProgramMemory | icspReadDataDataMemory | icspIncrementAddress | icspResetAddress
  | icspBeginInternallyTimedProgramming | icspBulkEraseProgramMemory | icspBulkEraseDataMemory =>
    exact decode_command_opc hp _ 0
  | icspKey => simp [encode, decode]

/-- Settles O7: each word is read by the arm of the decoder that its table row names. -/
theorem tableWordsDecode : Obligations.TableWordsDecode :=
  ⟨rfl, rfl, rfl, rfl, rfl, rfl, rfl⟩

/-- Settles O10: the decoder's two errors of the wire, each refused by its name. -/
theorem otherWireUnitsRefused : Obligations.OtherWireUnitsRefused := by
  refine ⟨fun c f s hc => ?command, fun b s hb => ?key⟩
  case command => simp only [Machine.perform, decode, decodeCommand, cmdOf_eq_none hc]
  case key => simp only [Machine.perform, decode, if_neg hb]

end Sys2Proof

/-! PROOFS. The whole machine: the step, its invariant, the edge holds of every trace, and block reset
(spec/10_state.md sections 2 to 8, spec/40_transport.md section 1, spec/70_reset_and_hazards.md section 1). -/

namespace Sys2Proof.Machine

/-! ### What a request keeps of the invariant

A request is performed in the state that has raised `busy`, so what it starts from is the invariant but for `busy`. -/

/-- The invariant but for `busy`. -/
def InvInFlight (s : State) : Prop := Inv { s with busy := false }

theorem invInFlight_accept {s : State} (rest : List Input) (h : Inv s) : InvInFlight (accept rest s) :=
  ⟨h.params, h.idle, h.mclrSession, h.shadow, h.faultKept, rfl, h.env⟩

theorem inv_refusedWith {s : State} (r : Result) (h : InvInFlight s) : Inv (refusedWith r s) :=
  ⟨h.params, h.idle, h.mclrSession, h.shadow, fun _ => rfl, rfl, h.env⟩

/-- The environment is well formed as a request meets it: as it is, or told of a raw request or of a command stream. -/
theorem envWf_of_met {mclr : Bool} {env met : Env} (h : EnvWf mclr env)
    (hmet : met = env ∨ met = envRaw env ∨ met = envCommand env) : EnvWf mclr met := by
  rcases hmet with rfl | rfl | rfl
  · exact h
  · exact envRaw_wf h
  · exact envCommand_wf h

/-- MCLR and the session move together (R17, R18). -/
theorem Moves.mclr_iff_normal {i : Instr} {s : State} {items : List TraceItem} {m : Session} {k : Cursor} {τ : Timing}
    (h : Moves i s items m k τ) (hs : s.lines.mclr = true ↔ s.session = .normal) :
    (linesAfter s.lines items).mclr = true ↔ m = .normal := by
  rcases h.mclr with ⟨hi, hlow⟩ | ⟨hi, hhigh⟩ | ⟨⟨henter, hkey, hexit, hreset⟩, hstays⟩
  · have hm : m = .prog := by rw [h.session, if_pos hi]
    simp [hlow, hm]
  · have hne : ¬ (i = .enterProg [] ∨ i = .icspKey) := by rcases hi with rfl | rfl <;> simp
    have hm : m = .normal := by rw [h.session, if_neg hne, if_pos hi]
    simp [hhigh, hm]
  · have hm : m = s.session := by simp [h.session, henter, hkey, hexit, hreset]
    rw [hstays, hm, hs]

theorem exec_keeps_inv {i : Instr} {s t : State} (h : InvInFlight s) (hexec : exec i s = .next t) : Inv t := by
  rcases exec_next hexec with ⟨r, -, rfl⟩ | ⟨env, items, m, k, τ, d, r, data, henv, hr, hwhole, hmoves, rfl⟩
  case inl => exact inv_refusedWith r h
  case inr =>
    refine ⟨h.params, hwhole.idle _ h.idle, hmoves.mclr_iff_normal h.mclrSession, fun hvalid => ?shadow, fun hf => ?fault,
      rfl, envAfter_wf _ _ _ items (envWf_of_met h.env henv)⟩
    case shadow =>
      rcases hmoves.shadow hvalid with ⟨rfl, rfl⟩ | hprog
      · exact h.shadow hvalid
      · exact hprog
    case fault => rcases hr with rfl | rfl <;> cases hf

theorem perform_keeps_inv {m : Message} {s t : State} (h : InvInFlight s) (hperform : perform m s = .next t) : Inv t := by
  rcases perform_next hperform with ⟨r, -, rfl⟩ | ⟨i, -, hexec⟩
  · exact inv_refusedWith r h
  · exact exec_keeps_inv h hexec

/-! ### What block reset keeps of the invariant -/

/-- The environment sees the four reset events like any others (R145). -/
theorem blockReset_envWf {s : State} (h : EnvWf s.lines.mclr s.env) : EnvWf true (blockReset s).env :=
  envAfter_wf s.params Timing.reset s.lines
    [.event (.clk false), .event (.dir .out), .event (.dat false), .event (.mclr true)] h

/-- A state at the reset values of R34 meets the invariant where its parameters and its environment do. -/
theorem inv_of_resetValues {t : State} (hparams : t.params.wf = true) (hlines : t.lines = State.reset.lines)
    (hsession : t.session = .normal) (hcursor : t.cursor = cursorCleared) (hresult : t.lastResult = .ok)
    (hbusy : t.busy = false) (henv : EnvWf true t.env) : Inv t where
  params := hparams
  idle := by rw [hlines]; exact ⟨rfl, rfl⟩
  mclrSession := by simp [hlines, hsession, State.reset]
  shadow hv := by simp [hcursor, cursorCleared] at hv
  faultKept hf := by simp [hresult, Result.isFault] at hf
  ready := hbusy
  env := by rwa [hlines]

theorem blockReset_keeps_inv {s : State} (hparams : s.params.wf = true) (henv : EnvWf s.lines.mclr s.env) :
    Inv (blockReset s) :=
  inv_of_resetValues hparams rfl rfl rfl rfl rfl (blockReset_envWf henv)

/-- A request cut off leaves the invariant: the environment has seen a front part of its trace, then the reset events, and
has lost the words the request could have touched (R146). -/
theorem abandon_keeps_inv (k : Nat) {touch : RefTarget → RefTarget} (full : State) {s : State}
    (htouch : ∀ t, TargetWf true t → TargetWf true (touch t)) (hparams : s.params.wf = true)
    (henv : EnvWf s.lines.mclr s.env) : Inv (abandon k touch full s) := by
  refine inv_of_resetValues hparams rfl rfl rfl rfl rfl (envCut_wf _ ?_ (blockReset_envWf ?_))
  · split
    · exact fun _ ht => ht
    · exact htouch
  · exact envAfter_wf s.params s.timing s.lines (keptItems k full s).reverse henv

/-! ### The request cut off -/

/-- The front part of a trace, parted before the waits at its end (R146). -/
theorem cut_eq_append (items : List TraceItem) (k : Nat) :
    ∃ done waits : List TraceItem, items.take k = done ++ waits ∧ (∀ x ∈ waits, ∃ ns, x = .wait ns) ∧
      (∀ ns, done.getLast? ≠ some (.wait ns)) ∧
      (items.reverse.drop (items.length - k)).dropWhile TraceItem.isWait = done.reverse := by
  set front := items.reverse.drop (items.length - k) with hfront
  have htake : items.take k = front.reverse := by rw [hfront, ← List.reverse_take, List.reverse_reverse]
  refine ⟨(front.dropWhile TraceItem.isWait).reverse, (front.takeWhile TraceItem.isWait).reverse, ?_, fun x hx => ?_,
    fun ns hlast => ?_, by simp⟩
  · rw [htake, ← List.reverse_append, List.takeWhile_append_dropWhile]
  · have hwait := List.mem_takeWhile_imp (List.mem_reverse.1 hx)
    cases x with
    | event e => cases hwait
    | wait ns => exact ⟨ns, rfl⟩
  · rw [List.getLast?_reverse] at hlast
    have hnot := List.head?_dropWhile_not TraceItem.isWait front
    rw [hlast] at hnot
    cases hnot

/-- After the cut no target fixes a sample: the environment is the oracle, or a desynchronised target (R146). -/
theorem envCut_cases (touch : RefTarget → RefTarget) (env : Env) :
    envCut touch env = .oracle ∨ ∃ t0, envCut touch env = .desync t0 false false := by
  cases env with
  | oracle => exact .inl rfl
  | reference t => exact .inr ⟨_, rfl⟩
  | desync t held restarted => exact .inr ⟨_, rfl⟩

/-! ### The statements -/

/-- Settles O44: the reset values, with the ten default opcodes distinct. -/
theorem resetMeetsInvariant : Obligations.ResetMeetsInvariant :=
  inv_of_resetValues (by decide) rfl rfl rfl rfl rfl trivial

/-- Settles O45, by what a step can do. -/
theorem stepKeepsInvariant : Obligations.StepKeepsInvariant := by
  intro s t h hstep
  obtain ⟨-, hcases⟩ := step_next hstep
  rcases hcases with ⟨-, rfl⟩ | ⟨m, rest, -, hperform⟩ | ⟨rest, -, rfl⟩ | ⟨m, k, rest, full, -, -, rfl⟩
  · exact h
  · exact perform_keeps_inv (invInFlight_accept rest h) hperform
  · exact blockReset_keeps_inv h.params h.env
  · exact abandon_keeps_inv k full (fun _ => messageTouch_wf _ _ _) h.params h.env

/-- Settles O46: what an instruction adds to the trace is made of whole waveforms. -/
theorem edgeHoldsOfEveryTrace : Obligations.EdgeHoldsOfEveryTrace := by
  intro i s t hidle hexec
  rcases exec_next hexec with ⟨r, -, rfl⟩ | ⟨env, items, m, k, τ, d, r, data, -, -, hwhole, -, rfl⟩
  case inl => exact ⟨[], (List.append_nil _).symm, hidle, rfl⟩
  case inr =>
    refine ⟨items, trace_played items s, hwhole.idle _ hidle, ?_⟩
    simpa using hwhole.holds s.timing.tEdge.toNat s.timing.tEdge.toNat [] le_rfl fun _ _ _ => rfl

/-- Settles O8: the step takes the message from the port and performs it. -/
theorem stepRunsDecodedInstruction : Obligations.StepRunsDecodedInstruction := by
  intro s m rest i hbusy hinbox hdecode
  have hstep : step s = perform m (accept rest s) := by simp [step, hbusy, hinbox]
  rw [hstep, perform_instr (s := accept rest s) hdecode]
  rfl

/-- Settles O9: the step's check of `busy`, and its arm for the empty port. -/
theorem stepWithoutRequest : Obligations.StepWithoutRequest :=
  fun s => ⟨fun hbusy hinbox => by simp [step, hbusy, hinbox], fun hbusy => by simp [step, hbusy]⟩

/-- Settles O53: each clause is a field of `blockReset`. -/
theorem blockResetEffect : Obligations.BlockResetEffect := by
  intro s rest hbusy hinbox
  have hstep : step s = .next (blockReset { s with inbox := rest }) := by simp [step, hbusy, hinbox]
  refine ⟨_, hstep, rfl, rfl, rfl, rfl, rfl, rfl, rfl, ?_, rfl, rfl, rfl, rfl⟩
  simp [State.trace, State.reset]

/-- Settles O54: the cut keeps the front part of the request's trace without the waits at its end. -/
theorem resetAbandonsRequest : Obligations.ResetAbandonsRequest := by
  intro s full m k rest hbusy hinbox hperform
  have hstep : step s = .next (abandon k (messageTouch s.params m s.env) full (accept rest s)) := by
    simp [step, hbusy, hinbox, performThenReset, hperform]
  obtain ⟨items, hitems⟩ := perform_trace hperform
  obtain ⟨done, waits, htake, hwaits, hlast, hkept⟩ := cut_eq_append items k
  refine ⟨_, items, done, waits, hstep, ?_, htake, hwaits, hlast, ?_, rfl, rfl, rfl, rfl, envCut_cases _ _, rfl, rfl, rfl,
    rfl, rfl, rfl, rfl⟩
  · simp [State.trace, hitems]
  · rw [State.trace, abandon_trace _ _ _ _ _ hitems, hkept]
    simp [State.trace, State.reset]

end Sys2Proof.Machine

/-! PROOFS. The commands in either session, the bits they send, and the key as a unit of the wire
(spec/42_commands.md, spec/30_encoding.md section 1, spec/41_mode_control.md). -/

namespace Sys2Proof.Machine

/-! ### What a command does, by its session -/

theorem commandOp_prog {s : State} (body : State → State) (hprog : s.session = .prog) :
    commandOp true body s = body (arrive s) := by
  rw [commandOp_eq, if_pos rfl, if_pos hprog]

theorem commandOp_normal {s : State} (body : State → State) (hnormal : s.session = .normal) :
    commandOp true body s = refusedWith .eNotProg s := by
  rw [commandOp_eq, if_pos rfl, if_neg (by simp [hnormal])]

/-- A command that sends, in `PROG` (R98, R100 to R102, R105 to R109). -/
theorem exec_sends_prog {i : Instr} {c : Cmd} {p : Payload} {s : State} (hform : commandForm i = some (c, p))
    (hc : cmdClass c ≠ .inp) (hprog : s.session = .prog) :
    exec i s =
      .next (answered .ok []
        { played (commandItems s.params s.timing c p []) (arrive s) with cursor := shadowAfter c s.cursor }) := by
  rcases exec_command s hform with ⟨-, hexec⟩ | ⟨hinp, -, -⟩
  · rw [hexec, commandOp_prog _ hprog, runCommand, issue_sends c p _ hc, complete_eq_answered, arrive_params,
      arrive_timing, arrive_cursor]
  · exact absurd hinp hc

/-- What a command that sends adds to the trace. -/
theorem exec_sends_trace {i : Instr} {c : Cmd} {p : Payload} {s t : State} (hform : commandForm i = some (c, p))
    (hc : cmdClass c ≠ .inp) (hprog : s.session = .prog) (hexec : exec i s = .next t) :
    t.trace = s.trace ++ commandItems s.params s.timing c p [] := by
  rw [exec_sends_prog hform hc hprog] at hexec
  generalize commandItems s.params s.timing c p [] = items at hexec ⊢
  cases hexec
  exact trace_played items (arrive s)

/-- A command that reads, in `PROG`, is its procedure and its answer (R98, R103, R104). -/
theorem exec_reads_prog {i : Instr} {c : Cmd} {p : Payload} {s : State} (hform : commandForm i = some (c, p))
    (hc : cmdClass c = .inp) (hprog : s.session = .prog) : p = 0 ∧ exec i s = .next (runRead c (arrive s)) := by
  rcases exec_command s hform with ⟨hne, -⟩ | ⟨-, hp, hexec⟩
  · exact absurd hc hne
  · exact ⟨hp, by rw [hexec, commandOp_prog _ hprog]⟩

/-- The value of received bits as a word that holds them, bit by bit (R87). -/
theorem getLsbD_ofNat_bitsValue {w : Nat} (bs : List Bool) {k : Nat} (hk : k < w) :
    (BitVec.ofNat w (bitsValue bs)).getLsbD k = bs.getD k false := by
  rw [BitVec.getLsbD_ofNat, bitsValue_testBit, decide_eq_true hk, Bool.true_and]

/-! ### The bits that a command puts on the wire (R64, R65) -/

theorem bitsOf_succ (n v : Nat) : bitsOf (n + 1) v = bitsOf n v ++ [v.testBit n] := by
  simp [bitsOf, List.range_succ]

theorem bitsOf_double (n v : Nat) : bitsOf (n + 1) (2 * v) = false :: bitsOf n v := by
  simp [bitsOf, List.range_succ_eq_map, Nat.testBit_succ, Nat.testBit_zero]

/-- The bits of a frame are a 0 bit, the payload's bits, and a 0 bit (R65). -/
theorem bitsOf_frame (p : Payload) :
    bitsOf Config.wFrame (2 * p.toNat) = [false] ++ (List.range 14).map p.getLsbD ++ [false] := by
  have htop : p.toNat.testBit 14 = false := Nat.testBit_lt_two_pow p.isLt
  rw [show Config.wFrame = 14 + 1 + 1 from rfl, bitsOf_double, bitsOf_succ, htop]
  rfl

/-- The bits that a command sends: its opcode, and the frame of an OUT command (R64, R65, R68). -/
def commandBits (p : Params) (c : Cmd) (payload : Payload) : List Bool :=
  bitsOf Config.wOpc (p.opc c).toNat ++ if cmdClass c = .out then bitsOf Config.wFrame (2 * payload.toNat) else []

/-- From idle lines, the bits of a command that does not read are read off its trace (R89, R98). -/
theorem sentBits_commandItems {l : Lines} (hl : LinesIdle l) (p : Params) (τ : Timing) {c : Cmd} (payload : Payload)
    (rx : List Bool) (hc : cmdClass c ≠ .inp) : sentBits l (commandItems p τ c payload rx) = commandBits p c payload := by
  have hopcode := (Whole.send τ.tEdge.toNat Config.wOpc (p.opc c).toNat).idle l hl
  rw [commandItems, commandBits, sentBits_append, sentBits_append, sentBits_sendItems hl, linesAfter_append]
  cases hclass : cmdClass c with
  | none => simp [sentBits]
  | out =>
    simp only [sentBits_append, linesAfter, sentBits, sentBits_sendItems hopcode, List.append_nil, if_true]
  | inp => exact absurd hclass hc

/-! ### The statements -/

/-- Settles O21. -/
theorem sendingCommandsComplete : Obligations.SendingCommandsComplete :=
  fun _ _ _ _ => exec_sends_prog

/-- Settles O22: the frame answered is the value of the bits that the command's procedure sampled. -/
theorem readingCommandsComplete : Obligations.ReadingCommandsComplete := by
  intro i c p s hform hc hprog
  obtain ⟨rfl, hexec⟩ := exec_reads_prog hform hc hprog
  obtain ⟨bs, d, hlen, haborts, hissue⟩ := issueCmd_reads c 0 (arrive s) hc
  refine ⟨bs, _, d, hlen, fun k hk => getLsbD_ofNat_bitsValue bs hk, haborts, ?_⟩
  rw [hexec, runRead, hissue, arrive_params, arrive_timing]
  exact congrArg Host.Outcome.next (complete_eq_answered _ _ _)

/-- Settles O23: the session check refuses what has passed the argument check. -/
theorem commandsRefusedInNormal : Obligations.CommandsRefusedInNormal := by
  intro i c p s hform hnormal
  rcases exec_command s hform with ⟨-, hexec⟩ | ⟨-, -, hexec⟩ <;> rw [hexec, commandOp_normal _ hnormal]

/-- Settles O24: the shadow that Increment Address leaves, where it was valid and where it was not. -/
theorem incrementWrapsShadow : Obligations.IncrementWrapsShadow := by
  intro s hprog
  refine ⟨_, exec_sends_prog (i := .cmdIncrementAddress []) rfl (by decide) hprog, ?_⟩
  simp only [answered_cursor]
  cases hvalid : s.cursor.valid <;> simp [shadowAfter, hvalid]

/-- Settles O49: a timed command has no frame, so that its trace is the opcode and the settle. -/
theorem timedCommandsEndWithTheirSettle : Obligations.TimedCommandsEndWithTheirSettle := by
  intro i c p s hform hc hprog
  have hnone : cmdClass c = .none := by rcases hc with rfl | rfl | rfl <;> rfl
  have hitems : commandItems s.params s.timing c p [] =
      (List.range 6).flatMap (fun k => bitItems s.timing.tEdge.toNat ((s.params.opc c).getLsbD k)) ++
        [.wait (max s.timing.tCmd.toNat s.timing.tProg.toNat)] := by
    simp only [commandItems, hnone, settle_eq, if_pos hc, sendItems, bitsOf, List.flatMap_map, List.append_nil]
    rfl
  have hexec := exec_sends_prog hform (by simp [hnone]) hprog
  refine ⟨_, _, hexec, ?_, Nat.le_max_right _ _, Nat.le_max_left _ _⟩
  rw [List.append_assoc, ← hitems]
  exact exec_sends_trace hform (by simp [hnone]) hprog hexec

/-- Settles O4: the opcode and the frame of an OUT command, read off its trace. -/
theorem outboundFrameOnTheWire : Obligations.OutboundFrameOnTheWire := by
  intro i c p s t new hform hout hprog hidle hexec hnew
  have hc : cmdClass c ≠ .inp := by simp [hout]
  obtain rfl : new = commandItems s.params s.timing c p [] :=
    List.append_cancel_left (hnew.symm.trans (exec_sends_trace hform hc hprog hexec))
  rw [sentBits_commandItems hidle _ _ _ _ hc, commandBits, if_pos hout, bitsOf_frame]
  rfl

/-- Settles O20: the unit is ENTER_PROG with no operand list to check. -/
theorem keyUnitSendsKey : Obligations.KeyUnitSendsKey := by
  intro s
  have hkey : exec .icspKey s = exec (.enterProg []) s := rfl
  rw [hkey, exec_enterProg, if_pos rfl]

/-- Settles O60: the two ask for the same command with the same payload. -/
theorem wireCommandIsItsRequest : Obligations.WireCommandIsItsRequest := by
  rintro p w s rfl
  refine ⟨?_, ?_, ?_, ?_, ?_, ?_, ?_, ?_, ?_, ?_⟩ <;> exact exec_eq_of_commandForm s rfl rfl

end Sys2Proof.Machine

/-! PROOFS. The raw transport requests (spec/40_transport.md section 2, R90, R91). -/

namespace Sys2Proof

/-! ### The headers of the two requests (R79) -/

theorem decodeRequest_sendBits {h : Word} (ops : List Word) (hop : headerOp h = 0x08) :
    decodeRequest h ops = .ok (.sendBits (headerNbits h) ops) := by
  simp [decodeRequest, hop]

theorem decodeRequest_recvBits {h : Word} (ops : List Word) (hop : headerOp h = 0x09) :
    decodeRequest h ops = .ok (.recvBits (headerNbits h) ops) := by
  simp [decodeRequest, hop]

end Sys2Proof

namespace Sys2Proof.Machine

/-! ### What each request does, in either session -/

/-- The bit count check (R74), with the bound R7 gives it. -/
theorem bitsLegal_iff {p : Params} (hr7 : R7Values p) (n : BitVec 6) :
    bitsLegal p n = true ↔ 1 ≤ n.toNat ∧ n.toNat ≤ 32 := by
  simp [bitsLegal, hr7.nbitsMax]

/-- R90: SEND_BITS. -/
theorem exec_sendBits (n : BitVec 6) (ops : List Word) {s : State} (hr7 : R7Values s.params) :
    exec (.sendBits n ops) s =
      .next (if (1 ≤ n.toNat ∧ n.toNat ≤ 32) ∧ ops.length = 1 then
        answered .ok []
          { played (sendItems s.timing.tEdge.toNat n.toNat (operand ops).toNat) (arriveRaw s) with
            cursor := { s.cursor with valid := false } }
      else refusedWith .eBadArg s) := by
  simp only [exec, execSendBits, plainOp_eq, Bool.and_eq_true, bitsLegal_iff hr7, hasOperands_iff, sendBits_eq_played,
    complete_eq_answered]
  rfl

/-- R91: RECV_BITS, with the bits it samples and the draws it leaves. -/
theorem exec_recvBits (n : BitVec 6) (s : State) :
    ∃ bs d, bs.length = n.toNat ∧ d.aborts = s.draws.aborts ∧ ∀ ops, R7Values s.params →
      exec (.recvBits n ops) s =
        .next (if (1 ≤ n.toNat ∧ n.toNat ≤ 32) ∧ ops = [] then
          answered .ok [BitVec.ofNat 32 (bitsValue bs)]
            { played (recvItems s.timing.tEdge.toNat bs) (arriveRaw s) with
              cursor := { s.cursor with valid := false }
              draws := d }
        else refusedWith .eBadArg s) := by
  obtain ⟨bs, d, hlen, haborts, hrecv⟩ := recvBits_eq n.toNat (arriveRaw s)
  refine ⟨bs, d, hlen, haborts, fun ops hr7 => ?_⟩
  simp only [exec, execRecvBits, plainOp_eq, Bool.and_eq_true, bitsLegal_iff hr7, hasOperands_zero, hrecv,
    complete_eq_answered]
  rfl

/-! ### The statements -/

/-- Settles O14, by the meaning of SEND_BITS. -/
theorem sendBitsWaveform : Obligations.SendBitsWaveform := by
  refine ⟨fun _ ops => decodeRequest_sendBits ops, ?completes, ?refused⟩
  case completes =>
    intro n v s hr7 hlow hhigh
    rw [exec_sendBits n [v] hr7, if_pos ⟨⟨hlow, hhigh⟩, rfl⟩, sendItems, bitsOf, List.flatMap_map]
    rfl
  case refused =>
    intro n ops s hr7 hbad
    rw [exec_sendBits n ops hr7, if_neg (by omega)]

/-- Settles O15, by the meaning of RECV_BITS; the word answered holds the bits sampled. -/
theorem recvBitsWaveform : Obligations.RecvBitsWaveform := by
  refine ⟨fun _ ops => decodeRequest_recvBits ops, ?completes, ?refused⟩
  case completes =>
    intro n s hr7 hlow hhigh
    obtain ⟨bs, d, hlen, haborts, hexec⟩ := exec_recvBits n s
    refine ⟨bs, _, d, hlen, fun k hk => getLsbD_ofNat_bitsValue bs hk, haborts, ?_⟩
    rw [hexec [] hr7, if_pos ⟨⟨hlow, hhigh⟩, rfl⟩]
  case refused =>
    intro n ops s hr7 hbad
    obtain ⟨bs, d, -, -, hexec⟩ := exec_recvBits n s
    rw [hexec ops hr7, if_neg]
    rintro ⟨⟨hlow, hhigh⟩, hops⟩
    rcases hbad with hbad | hbad | hbad
    · omega
    · omega
    · exact hbad hops

end Sys2Proof.Machine

/-! PROOFS. The region requests that run: reads, erases and writes, complete and aborted (spec/43_memory_access.md). -/

namespace Sys2Proof.Machine

/-! ### A region request that runs -/

/-- A region request runs where its arguments are legal, its count is not 0 and the session is `PROG` (R112, R136). -/
theorem regionOp_runs {ok : Bool} {n : BitVec 16} {s : State} (body : State → State) (hok : ok = true)
    (hn : n.toNat ≠ 0) (hprog : s.session = .prog) : regionOp ok n body s = body (arrive s) := by
  rw [regionOp_eq, if_pos hok, if_neg hn, if_pos hprog]

/-! ### READ_REGION (R113, R123) -/

/-- No abort point stands before the first word of a read (R123). -/
theorem readLoop_first (c : Cmd) (hc : cmdClass c = .inp) (n : Nat) (s : State) :
    ∃ bs d, bs.length = 16 ∧ d.aborts = s.draws.aborts ∧
      readLoop c (n + 1) 0 [] s = readLoop c n 1 [wordOfBits bs] (ranWith (wordReads c 1) [bs] d s) := by
  obtain ⟨raw, s', bs, d, hissue, hlen, haborts, hword, hincrement⟩ := read_word c s hc
  refine ⟨bs, d, hlen, haborts, ?_⟩
  have hfirst : ¬ 1 ≤ 0 := by decide
  simp only [readLoop, hfirst, Bool.false_eq_true, if_false, hissue, hword, hincrement, Nat.zero_add]

theorem shadow_readCommands (p : Params) (rgn : Region) (n : Nat) (k : Cursor) :
    shadowAfterAll (readCommands p rgn n) k = ⟨true, if rgn = .cfg then .cfg else .main, BitVec.ofNat 16 n⟩ := by
  have hwords (sp : Space) := shadow_wordReads (readCmd rgn) (readCmd_reads rgn) n sp 0
  rw [readCommands_eq]
  cases rgn <;> simpa [shadowAfterAll, shadowAfter] using hwords _

/-- The words of a read after its positioning command, with the shadow they leave. -/
theorem ranWith_position (rgn : Region) (n : Nat) (rx : List (List Bool)) (d : Draws) (s : State) :
    ranWith (wordReads (readCmd rgn) n) rx d (position rgn s) =
      { played (readingItems s.params s.timing (readCommands s.params rgn n) rx) s with
        cursor := ⟨true, if rgn = .cfg then .cfg else .main, BitVec.ofNat 16 n⟩
        draws := d } := by
  have hsends : ∀ c ∈ [if rgn = .cfg then (Cmd.loadConfig, s.params.ldcfgPayload) else (Cmd.resetAddress, 0)],
      cmdClass c.1 ≠ .inp := by
    cases rgn <;> simp [cmdClass]
  rw [position_eq_ranWith, ranWith_sends _ _ _ _ _ _ hsends, List.singleton_append, ← readCommands_eq, ranWith,
    shadow_readCommands]

/-- READ_REGION that runs, with the shadow it leaves, where its loop is known to read `k` words. -/
theorem exec_readRegion_of_loop {rgn : Region} {n : BitVec 16} {s : State} {k : Nat} {rx : List (List Bool)} {d : Draws}
    {r : Result} (hn : n.toNat ≠ 0) (hprog : s.session = .prog)
    (hloop : readLoop (readCmd rgn) n.toNat 0 [] (position rgn (arrive s)) =
      complete r (rx.map wordOfBits) (ranWith (wordReads (readCmd rgn) k) rx d (position rgn (arrive s)))) :
    exec (.readRegion rgn n []) s =
      .next (answered r (rx.map wordOfBits)
        { played (readingItems s.params s.timing (readCommands s.params rgn k) rx) (arrive s) with
          cursor := ⟨true, if rgn = .cfg then .cfg else .main, BitVec.ofNat 16 k⟩
          draws := d }) := by
  rw [exec, execReadRegion, regionOp_runs (ok := hasOperands [] 0) _ rfl hn hprog, hloop, ranWith_position, complete_eq_answered, arrive_params,
    arrive_timing]

theorem position_draws (rgn : Region) (s : State) : (position rgn s).draws = s.draws := by
  rw [position_eq_ranWith, ranWith_draws]

/-! ### WRITE_REGION (R119 to R122, R124) -/

/-- The space that the positioning command of a region selects (R111). -/
def regionSpace : Region → Space
  | .pm => .main
  | .dm => .main
  | .cfg => .cfg

/-- The offset of the first word of a write (R119 to R121). -/
def writeStart (p : Params) : Region → Nat
  | .pm => 0
  | .dm => 0
  | .cfg => p.cfgSkip

/-- A write is `regionOp` behind the check of its arguments; its body is the prologue and the loop. -/
theorem exec_write {i : Instr} {rgn : Region} {n : BitVec 16} {ws : List Word} (s : State)
    (hform : writeForm i = some (rgn, n, ws)) :
    exec i s = .next (regionOp (WellFormed s.params i) n
      (fun s => writeLoop (loadCmd rgn) n.toNat (s.params.latchSize rgn) ws 0
        (ranWith (writePrologue s.params rgn) [] s.draws s)) s) := by
  cases i with
  | writeRegionPm n ops =>
    cases hform
    simp only [exec, execWriteRegionPm, prologuePm_eq]
    rfl
  | writeRegionDm n ops =>
    cases hform
    simp only [exec, execWriteRegionDm, prologueDm_eq]
    rfl
  | writeRegionCfg n ops =>
    cases hform
    simp only [exec, execWriteRegionCfg, prologueCfg_eq]
    rfl
  | _ => cases hform

theorem shadow_increments (m : Nat) (sp : Space) (o : BitVec 16) :
    shadowAfterAll (List.replicate m (.incrementAddress, 0)) ⟨true, sp, o⟩ = ⟨true, sp, o + BitVec.ofNat 16 m⟩ := by
  induction m generalizing o with
  | zero => simp [shadowAfterAll]
  | succ m ih =>
    rw [← offset_succ, ← ih (o + 1), ← shadowAfter_increment]
    rfl

theorem shadow_writePrologue (p : Params) (rgn : Region) (k : Cursor) :
    shadowAfterAll (writePrologue p rgn) k = ⟨true, regionSpace rgn, BitVec.ofNat 16 (writeStart p rgn)⟩ := by
  cases rgn with
  | pm | dm => rfl
  | cfg => simpa [shadowAfterAll, writePrologue, shadowAfter] using! shadow_increments p.cfgSkip .cfg 0

/-- The shadow after the words `ws` of a write (R22). -/
theorem shadow_write (p : Params) (rgn : Region) (n l : Nat) (ws : List Word) (k : Cursor) :
    shadowAfterAll (writePrologue p rgn ++ loadCommands (loadCmd rgn) n l 0 ws) k =
      ⟨true, regionSpace rgn, BitVec.ofNat 16 (writeStart p rgn + ws.length)⟩ := by
  have hout : cmdClass (loadCmd rgn) = .out := by cases rgn <;> rfl
  have hload : loadCmd rgn ≠ .loadConfig := by cases rgn <;> decide
  rw [shadowAfterAll_append, shadow_writePrologue, shadow_loadCommands _ hout hload, BitVec.ofNat_add]

/-- The words of a write after its prologue, with the shadow they leave. -/
theorem ranWith_writePrologue (rgn : Region) (n l : Nat) (ws : List Word) (d : Draws) (s : State) :
    ranWith (loadCommands (loadCmd rgn) n l 0 ws) [] d (ranWith (writePrologue s.params rgn) [] s.draws s) =
      { played (commandsItems s.params s.timing (writePrologue s.params rgn ++ loadCommands (loadCmd rgn) n l 0 ws)) s with
        cursor := ⟨true, regionSpace rgn, BitVec.ofNat 16 (writeStart s.params rgn + ws.length)⟩
        draws := d } := by
  have hsends : ∀ c ∈ writePrologue s.params rgn ++ loadCommands (loadCmd rgn) n l 0 ws, cmdClass c.1 ≠ .inp := by
    intro c hc
    rcases List.mem_append.1 hc with hc | hc
    · exact writePrologue_sends _ _ c hc
    · exact loadCommands_send _ (loadCmd_sends rgn) _ _ _ _ c hc
  rw [ranWith_sends _ _ _ _ _ _ (writePrologue_sends _ _), ranWith, shadow_write, readingItems_sends _ _ _ _ hsends]

/-- WRITE_REGION where every abort point reads 0. -/
theorem exec_write_completes {i : Instr} {rgn : Region} {n : BitVec 16} {ws : List Word} {s : State} {more : List Bool}
    (hform : writeForm i = some (rgn, n, ws)) (hwf : WellFormed s.params i = true) (hn : n.toNat ≠ 0)
    (hlen : ws.length = n.toNat) (hprog : s.session = .prog)
    (haborts : s.draws.aborts = List.replicate ((n.toNat - 1) / s.params.latchSize rgn) false ++ more) :
    exec i s =
      .next (answered .ok []
        { played (commandsItems s.params s.timing (writePrologue s.params rgn ++
            loadCommands (loadCmd rgn) n.toNat (s.params.latchSize rgn) 0 ws)) (arrive s) with
          cursor := ⟨true, regionSpace rgn, BitVec.ofNat 16 (writeStart s.params rgn + n.toNat)⟩
          draws := { s.draws with aborts := more } }) := by
  rw [exec_write s hform, regionOp_runs _ hwf hn hprog,
    writeLoop_scripted_ok _ (loadCmd_sends rgn) _ _ _ _ more _
      (by rw [abortPoints_eq, hlen]; exact haborts),
    ranWith_draws, ranWith_writePrologue, complete_eq_answered, hlen, arrive_params, arrive_timing, arrive_draws]

/-- WRITE_REGION where the abort point of latch group `g` reads 1 and those before it read 0: it stops before word
`L * g`. -/
theorem exec_write_aborts {i : Instr} {rgn : Region} {n : BitVec 16} {ws : List Word} {s : State} {g : Nat}
    {more : List Bool} (hform : writeForm i = some (rgn, n, ws)) (hwf : WellFormed s.params i = true)
    (hlen : ws.length = n.toNat) (hprog : s.session = .prog) (hl : 1 ≤ s.params.latchSize rgn) (hg : 1 ≤ g)
    (hlt : s.params.latchSize rgn * g < n.toNat)
    (haborts : s.draws.aborts = List.replicate (g - 1) false ++ true :: more) :
    exec i s =
      .next (answered .aborted []
        { played (commandsItems s.params s.timing (writePrologue s.params rgn ++
            loadCommands (loadCmd rgn) n.toNat (s.params.latchSize rgn) 0 (ws.take (s.params.latchSize rgn * g))))
            (arrive s) with
          cursor := ⟨true, regionSpace rgn, BitVec.ofNat 16 (writeStart s.params rgn + s.params.latchSize rgn * g)⟩
          draws := { s.draws with aborts := more } }) := by
  have hfirst : 1 ≤ s.params.latchSize rgn * g := Nat.mul_pos hl hg
  have hpoints : abortPoints (s.params.latchSize rgn) 0 (s.params.latchSize rgn * g) = g - 1 := by
    rw [abortPoints_eq, Nat.mul_sub_div 0 _ _ hfirst, Nat.zero_div]
  have htake : (ws.take (s.params.latchSize rgn * g)).length = s.params.latchSize rgn * g := by
    rw [List.length_take]
    omega
  rw [exec_write s hform, regionOp_runs _ hwf (by omega) hprog,
    writeLoop_scripted_abort _ (loadCmd_sends rgn) _ _ _ (s.params.latchSize rgn * g) _ more _ (by omega)
      (by simpa using hfirst) (by rw [arrive_params, hpoints]; exact haborts),
    ranWith_draws, ranWith_writePrologue, complete_eq_answered, arrive_params, arrive_timing, arrive_draws, htake]

theorem wellFormed_writeRegionCfg {p : Params} {n : BitVec 16} {ws : List Word} (hn : n.toNat = p.cfgWords)
    (hlen : ws.length = n.toNat) : WellFormed p (.writeRegionCfg n ws) = true := by
  simp [WellFormed, wfConfigCount, wfOperands, hn, hlen]

/-! ### The statements -/

/-- Settles O25: the first word has no abort point, and those of the others read 0. -/
theorem readRegionReadsEveryWord : Obligations.ReadRegionReadsEveryWord := by
  intro rgn n s more hn hprog haborts
  obtain ⟨m, hm⟩ := Nat.exists_eq_succ_of_ne_zero hn
  obtain ⟨bs, d0, hbs, hd0, hfirst⟩ := readLoop_first (readCmd rgn) (readCmd_reads rgn) m (position rgn (arrive s))
  obtain ⟨rx, d, hlen, hrx, hd, hrest⟩ := readLoop_scripted_ok (readCmd rgn) (readCmd_reads rgn) m 1 le_rfl
    [wordOfBits bs] more (ranWith (wordReads (readCmd rgn) 1) [bs] d0 (position rgn (arrive s)))
    (by rw [ranWith_draws, hd0, position_draws, arrive_draws, haborts, hm, Nat.succ_sub_one])
  have hloop := hfirst.trans hrest
  rw [ranWith_wordReads _ _ _ _ _ _ _ (readCmd_reads rgn), ← Nat.succ_eq_add_one, ← hm] at hloop
  refine ⟨bs :: rx, d, by rw [List.length_cons, hlen, hm], List.forall_mem_cons.2 ⟨hbs, hrx⟩, hd, ?_⟩
  rw [exec_readRegion_of_loop hn hprog hloop, BitVec.ofNat_toNat, BitVec.setWidth_eq]

/-- Settles O26: the first word has no abort point; the one before word `i` is the first that reads 1. -/
theorem readRegionAborts : Obligations.ReadRegionAborts := by
  intro rgn n s i more hprog hi hin haborts
  obtain ⟨m, hm⟩ := Nat.exists_eq_succ_of_ne_zero (show n.toNat ≠ 0 by omega)
  obtain ⟨k, rfl⟩ := Nat.exists_eq_succ_of_ne_zero (show i ≠ 0 by omega)
  obtain ⟨bs, d0, hbs, hd0, hfirst⟩ := readLoop_first (readCmd rgn) (readCmd_reads rgn) m (position rgn (arrive s))
  obtain ⟨rx, d, hlen, hrx, hd, hrest⟩ := readLoop_scripted_abort (readCmd rgn) (readCmd_reads rgn) m k 1 (by omega)
    le_rfl [wordOfBits bs] more (ranWith (wordReads (readCmd rgn) 1) [bs] d0 (position rgn (arrive s)))
    (by rw [ranWith_draws, hd0, position_draws, arrive_draws, haborts, Nat.succ_sub_one])
  have hloop := hfirst.trans hrest
  rw [ranWith_wordReads _ _ _ _ _ _ _ (readCmd_reads rgn), ← Nat.succ_eq_add_one, ← hm] at hloop
  exact ⟨bs :: rx, d, by rw [List.length_cons, hlen], List.forall_mem_cons.2 ⟨hbs, hrx⟩, hd,
    exec_readRegion_of_loop (by omega) hprog hloop⟩

/-- Settles O27: the erase path of program memory is two commands, that of data memory one. -/
theorem eraseRegionsComplete : Obligations.EraseRegionsComplete := by
  intro n s hn hprog
  have hpm : ∀ c ∈ [(Cmd.loadConfig, s.params.ldcfgPayload), (Cmd.bulkErasePm, 0)], cmdClass c.1 ≠ .inp := by
    simp [cmdClass]
  have hdm : ∀ c ∈ [((Cmd.bulkEraseDm, 0) : Cmd × Payload)], cmdClass c.1 ≠ .inp := by simp [cmdClass]
  refine ⟨?_, ?_⟩
  · rw [exec, execEraseRegionPm, regionOp_runs (ok := hasOperands [] 0) _ rfl hn hprog, erasePm_eq_ranWith, ranWith, arrive_params,
      readingItems_sends _ _ _ _ hpm, complete_eq_answered]
    rfl
  · rw [exec, execEraseRegionDm, regionOp_runs (ok := hasOperands [] 0) _ rfl hn hprog, issue_eq_ranWith _ _ _ (by decide), ranWith,
      readingItems_sends _ _ _ _ hdm, complete_eq_answered]
    rfl

/-- Settles O29. -/
theorem writeProgramRegionCompletes : Obligations.WriteProgramRegionCompletes := by
  intro n ws s more hn hlen hprog haborts
  have h := exec_write_completes (i := .writeRegionPm n ws) rfl (decide_eq_true hlen) hn hlen hprog haborts
  simpa only [writePrologue, loadCmd, Params.latchSize, regionSpace, writeStart, Nat.zero_add, BitVec.ofNat_toNat,
    BitVec.setWidth_eq] using h

/-- Settles O30. -/
theorem writeDataRegionCompletes : Obligations.WriteDataRegionCompletes := by
  intro n ws s more hn hlen hprog haborts
  have h := exec_write_completes (i := .writeRegionDm n ws) rfl (decide_eq_true hlen) hn hlen hprog haborts
  simpa only [writePrologue, loadCmd, Params.latchSize, regionSpace, writeStart, Nat.zero_add, BitVec.ofNat_toNat,
    BitVec.setWidth_eq] using h

/-- The first clause of O31. -/
theorem exec_writeRegionCfg_completes {n : BitVec 16} {ws : List Word} {s : State} {more : List Bool}
    (hn : n.toNat ≠ 0) (hwords : n.toNat = s.params.cfgWords) (hlen : ws.length = n.toNat) (hprog : s.session = .prog)
    (haborts : s.draws.aborts = List.replicate ((n.toNat - 1) / s.params.lCfg) false ++ more) :
    exec (.writeRegionCfg n ws) s =
      .next (answered .ok []
        { played (commandsItems s.params s.timing
            ((.loadConfig, s.params.ldcfgPayload) :: List.replicate s.params.cfgSkip (.incrementAddress, 0) ++
              loadCommands .loadDataPm n.toNat s.params.lCfg 0 ws)) (arrive s) with
          cursor := ⟨true, .cfg, BitVec.ofNat 16 (s.params.cfgSkip + n.toNat)⟩
          draws := { s.draws with aborts := more } }) := by
  have h := exec_write_completes (i := .writeRegionCfg n ws) rfl (wellFormed_writeRegionCfg hwords hlen) hn hlen hprog
    haborts
  simpa only [writePrologue, loadCmd, Params.latchSize, regionSpace, writeStart] using h

/-- Settles O31: the write at any parameter values, and then at those of R7. -/
theorem writeConfigRegionCompletes : Obligations.WriteConfigRegionCompletes := by
  refine ⟨fun n ws s more hn hwords hlen hprog haborts => exec_writeRegionCfg_completes hn hwords hlen hprog haborts,
    fun w0 w1 s more hr7 hprog haborts => ?_⟩
  have h := exec_writeRegionCfg_completes (n := 2) (ws := [w0, w1]) (more := more) (by decide) hr7.cfgWords.symm rfl
    hprog (by rw [haborts, hr7.lCfg]; rfl)
  rw [h, hr7.cfgSkip, hr7.lCfg]
  rfl

/-- Settles O32, for the three regions. -/
theorem writeRegionAborts : Obligations.WriteRegionAborts := by
  refine ⟨fun n ws s g more hlen hprog hl hg hlt haborts => ?pm, fun n ws s g more hlen hprog hl hg hlt haborts => ?dm,
    fun n ws s g more hwords hlen hprog hl hg hlt haborts => ?cfg⟩
  case pm =>
    have h := exec_write_aborts (i := .writeRegionPm n ws) rfl (decide_eq_true hlen) hlen hprog hl hg hlt haborts
    simpa only [writePrologue, loadCmd, Params.latchSize, regionSpace, writeStart, Nat.zero_add] using h
  case dm =>
    have h := exec_write_aborts (i := .writeRegionDm n ws) rfl (decide_eq_true hlen) hlen hprog hl hg hlt haborts
    simpa only [writePrologue, loadCmd, Params.latchSize, regionSpace, writeStart, Nat.zero_add] using h
  case cfg =>
    have h := exec_write_aborts (i := .writeRegionCfg n ws) rfl (wellFormed_writeRegionCfg hwords hlen) hlen hprog hl hg
      hlt haborts
    simpa only [writePrologue, loadCmd, Params.latchSize, regionSpace, writeStart] using h

end Sys2Proof.Machine

/-! PROOFS. The commands of a write, read off its trace, the display groups and the rounding of waits
(spec/43_memory_access.md sections 2 and 4, spec/10_state.md section 5). -/

namespace Sys2Proof.Machine

/-! ### The commands of a trace, read off its bits (R70, R89) -/

/-- From idle lines, the bits of a list of commands that send are read off its trace. -/
theorem sentBits_commandsItems {l : Lines} (hl : LinesIdle l) (p : Params) (τ : Timing) {cs : List (Cmd × Payload)}
    (hcs : ∀ c ∈ cs, cmdClass c.1 ≠ .inp) :
    sentBits l (commandsItems p τ cs) = cs.flatMap fun c => commandBits p c.1 c.2 := by
  induction cs generalizing l with
  | nil => rfl
  | cons c cs ih =>
    obtain ⟨hc, hrest⟩ := List.forall_mem_cons.1 hcs
    have hitems : commandsItems p τ (c :: cs) = commandItems p τ c.1 c.2 [] ++ commandsItems p τ cs := rfl
    rw [hitems, sentBits_append, sentBits_commandItems hl p τ c.2 [] hc,
      ih ((Whole.command p τ c.1 c.2 []).idle l hl) hrest, List.flatMap_cons]

/-- The opcode is read back from its bits (R64). -/
theorem opcode_of_bits (c : Opcode) : BitVec.ofNat Config.wOpc (bitsValue (bitsOf Config.wOpc c.toNat)) = c := by
  rw [bitsValue_bitsOf, Nat.mod_eq_of_lt c.isLt, BitVec.ofNat_toNat, BitVec.setWidth_eq]

theorem length_commandBits (p : Params) (c : Cmd) (payload : Payload) :
    (commandBits p c payload).length = if cmdClass c = .out then Config.wOpc + Config.wFrame else Config.wOpc := by
  rw [commandBits, List.length_append, length_bitsOf]
  split <;> simp [length_bitsOf]

theorem wOpc_le_length_commandBits (p : Params) (c : Cmd) (payload : Payload) :
    Config.wOpc ≤ (commandBits p c payload).length := by
  rw [length_commandBits]
  split <;> simp

theorem take_commandBits (p : Params) (c : Cmd) (payload : Payload) (rest : List Bool) :
    (commandBits p c payload ++ rest).take Config.wOpc = bitsOf Config.wOpc (p.opc c).toNat := by
  rw [commandBits, List.append_assoc]
  exact List.take_left' (length_bitsOf _ _)

/-- A command is read from its bits, and what follows it from the bits that follow (R70). -/
theorem commandsSent_cons {p : Params} (hp : p.wf = true) (fuel : Nat) (c : Cmd) (payload : Payload)
    (rest : List Bool) :
    commandsSent p (fuel + 1) (commandBits p c payload ++ rest) = c :: commandsSent p fuel rest := by
  have hlong : ¬ (commandBits p c payload ++ rest).length < Config.wOpc := by
    have := wOpc_le_length_commandBits p c payload
    rw [List.length_append]
    omega
  simp only [commandsSent, if_neg hlong, take_commandBits, opcode_of_bits, cmdOf_opc p hp c]
  rw [← length_commandBits p c payload, List.drop_left]

/-- The commands of a list are read from its bits, given fuel for each of them (R70). -/
theorem commandsSent_commandBits {p : Params} (hp : p.wf = true) (cs : List (Cmd × Payload)) {fuel : Nat}
    (hfuel : cs.length ≤ fuel) :
    commandsSent p fuel (cs.flatMap fun c => commandBits p c.1 c.2) = cs.map Prod.fst := by
  induction cs generalizing fuel with
  | nil => cases fuel <;> rfl
  | cons c cs ih =>
    cases fuel with
    | zero => simp at hfuel
    | succ fuel =>
      rw [List.flatMap_cons, commandsSent_cons hp, ih (Nat.le_of_succ_le_succ hfuel), List.map_cons]

theorem length_le_commandsBits (p : Params) (cs : List (Cmd × Payload)) :
    cs.length ≤ (cs.flatMap fun c => commandBits p c.1 c.2).length := by
  induction cs with
  | nil => simp
  | cons c cs ih =>
    have hbits : 6 ≤ (commandBits p c.1 c.2).length := wOpc_le_length_commandBits p c.1 c.2
    rw [List.flatMap_cons, List.length_append, List.length_cons]
    omega

/-- The commands of a list that sends are read off its trace (R70, R89). -/
theorem commandsSent_commandsItems {p : Params} (hp : p.wf = true) {l : Lines} (hl : LinesIdle l) (τ : Timing)
    {cs : List (Cmd × Payload)} (hcs : ∀ c ∈ cs, cmdClass c.1 ≠ .inp) :
    commandsSent p (sentBits l (commandsItems p τ cs)).length (sentBits l (commandsItems p τ cs)) = cs.map Prod.fst := by
  rw [sentBits_commandsItems hl p τ hcs]
  exact commandsSent_commandBits hp cs (length_le_commandsBits p cs)

/-! ### The commands of a write (R119 to R122) -/

/-- The commands of a write: what comes before the loads, and the words. -/
def writeCommands (p : Params) (rgn : Region) (n : Nat) (ws : List Word) : List (Cmd × Payload) :=
  writePrologue p rgn ++ loadCommands (loadCmd rgn) n (p.latchSize rgn) 0 ws

theorem writeCommands_sends (p : Params) (rgn : Region) (n : Nat) (ws : List Word) :
    ∀ c ∈ writeCommands p rgn n ws, cmdClass c.1 ≠ .inp := by
  intro c hc
  rcases List.mem_append.1 hc with hc | hc
  · exact writePrologue_sends _ _ c hc
  · exact loadCommands_send _ (loadCmd_sends rgn) _ _ _ _ c hc

theorem regionForm_of_write {i : Instr} {rgn : Region} {n : BitVec 16} {ws : List Word}
    (hform : writeForm i = some (rgn, n, ws)) : regionForm i = some (n, ws) := by
  cases i with
  | writeRegionPm | writeRegionDm | writeRegionCfg => cases hform; rfl
  | _ => cases hform

theorem length_of_wellFormed_write {p : Params} {i : Instr} {rgn : Region} {n : BitVec 16} {ws : List Word}
    (hform : writeForm i = some (rgn, n, ws)) (hwf : WellFormed p i = true) : ws.length = n.toNat := by
  cases i with
  | writeRegionPm | writeRegionDm => cases hform; exact Laws.wfOperands_length hwf
  | writeRegionCfg => cases hform; exact Laws.wfOperands_length (Bool.and_eq_true_iff.1 hwf).2
  | _ => cases hform

theorem regionCommands_of_write (p : Params) {i : Instr} {rgn : Region} {n : BitVec 16} {ws : List Word}
    (hform : writeForm i = some (rgn, n, ws)) : regionCommands p i = writeCommands p rgn n.toNat ws := by
  cases i with
  | writeRegionPm | writeRegionDm | writeRegionCfg => cases hform; rfl
  | _ => cases hform

/-- The trace of a write that ends with `OK`, and the number of its words (R119 to R121). -/
theorem OkTrace.write {p : Params} {τ : Timing} {i : Instr} {items : List TraceItem} {rgn : Region} {n : BitVec 16}
    {ws : List Word} (h : OkTrace p τ i items) (hform : writeForm i = some (rgn, n, ws)) (hn : n.toNat ≠ 0) :
    ws.length = n.toNat ∧ items = commandsItems p τ (writeCommands p rgn n.toNat ws) := by
  have hregion := regionForm_of_write hform
  cases h with
  | command hcommand =>
    rw [commandForm_of_region hregion] at hcommand
    cases hcommand
  | emptyRegion hempty hzero =>
    cases hregion.symm.trans hempty
    exact absurd hzero hn
  | region _ _ hwf _ =>
    rw [regionCommands_of_write p hform, readingItems_sends _ _ _ _ (writeCommands_sends p rgn _ _)]
    exact ⟨length_of_wellFormed_write hform hwf, rfl⟩
  | _ => cases hform

/-- The commands of word `k` of a write of `n` words: its load, Begin Programming where R122 says, and the increment. -/
def wordCommands (load : Cmd) (n l k : Nat) : List Cmd :=
  load :: (if (k + 1) % l = 0 ∨ k = n - 1 then [.beginIntProg] else []) ++ [.incrementAddress]

theorem map_fst_loadCommands (load : Cmd) {n : Nat} (hn : n ≠ 0) (l i : Nat) (ws : List Word) :
    (loadCommands load n l i ws).map Prod.fst =
      (List.range ws.length).flatMap fun k => wordCommands load n l (i + k) := by
  induction ws generalizing i with
  | nil => rfl
  | cons w ws ih =>
    have hlast : i + 1 = n ↔ i = n - 1 := by omega
    rw [List.length_cons, List.range_succ_eq_map, List.flatMap_cons, List.flatMap_map]
    simp only [loadCommands, List.map_cons, List.map_append, ih, wordCommands, Nat.add_zero, hlast, Nat.succ_eq_add_one,
      Nat.add_right_comm i _ 1, Nat.add_assoc]
    split <;> simp [Nat.add_comm 1, Nat.add_assoc]

/-- The last load of a write is followed by Begin Programming (R122). -/
theorem flatMap_wordCommands_last (load : Cmd) (l : Nat) {n : Nat} (hn : n ≠ 0) :
    (List.range n).flatMap (wordCommands load n l) =
      (List.range (n - 1)).flatMap (wordCommands load n l) ++ [load, .beginIntProg, .incrementAddress] := by
  have hlast : wordCommands load n l (n - 1) = [load, .beginIntProg, .incrementAddress] := by simp [wordCommands]
  conv_lhs => rw [← Nat.succ_pred_eq_of_ne_zero hn, List.range_succ, Nat.succ_pred_eq_of_ne_zero hn]
  rw [List.flatMap_append, List.flatMap_singleton, Nat.pred_eq_sub_one, hlast]

theorem map_fst_writeCommands (p : Params) (rgn : Region) {n : Nat} (hn : n ≠ 0) {ws : List Word}
    (hlen : ws.length = n) :
    (writeCommands p rgn n ws).map Prod.fst =
      (writePrologue p rgn).map Prod.fst ++
        (List.range n).flatMap (wordCommands (loadCmd rgn) n (p.latchSize rgn)) := by
  rw [writeCommands, List.map_append, map_fst_loadCommands _ hn, hlen]
  simp only [Nat.zero_add]

theorem loadCmd_not_mem_prologue (p : Params) (rgn : Region) : loadCmd rgn ∉ (writePrologue p rgn).map Prod.fst := by
  cases rgn <;> simp [writePrologue, loadCmd]

/-- Counting one command is a cost of 1 for it and 0 for the others. -/
theorem count_map_fst (c : Cmd) (cs : List (Cmd × Payload)) :
    (cs.map Prod.fst).count c = commandsCost (fun k => if k = c then 1 else 0) cs := by
  induction cs with
  | nil => rfl
  | cons x cs ih => rw [List.map_cons, List.count_cons, ih, commandsCost_cons, Nat.add_comm]; simp only [beq_iff_eq]

/-- A write of `n` words issues Begin Programming once for each latch group (R122). -/
theorem count_beginIntProg (p : Params) {rgn : Region} (hl : 1 ≤ p.latchSize rgn) {n : Nat} {ws : List Word}
    (hlen : ws.length = n) :
    ((writeCommands p rgn n ws).map Prod.fst).count .beginIntProg = (n + (p.latchSize rgn - 1)) / p.latchSize rgn := by
  rw [count_map_fst, writeCommands, commandsCost_append, commandsCost_loadAll _ _ hl hlen]
  cases rgn <;> simp [writePrologue, loadCmd]

/-! ### The display groups (R115) -/

/-- The first `k` groups are the words before word `size * k`. -/
theorem flatMap_groups (size n k : Nat) :
    ((List.range k).flatMap fun j => (List.range (min size (n - size * j))).map (size * j + ·)) =
      List.range (min n (size * k)) := by
  induction k with
  | zero => simp
  | succ k ih =>
    rw [List.range_succ, List.flatMap_append, ih, List.flatMap_singleton, Nat.mul_succ]
    rcases Nat.le_total (size * k) n with hle | hle
    · have hsum : min n (size * k + size) = size * k + min size (n - size * k) := by omega
      rw [hsum, List.range_add, Nat.min_eq_right hle]
    · rw [Nat.sub_eq_zero_of_le hle, Nat.min_zero, List.range_zero, List.map_nil, List.append_nil]
      congr 1
      omega

/-- The quotient that rounds up, by its two bounds. -/
theorem ceilDiv_bounds (n : Nat) {m : Nat} (hm : 1 ≤ m) :
    n ≤ m * ((n + (m - 1)) / m) ∧ m * ((n + (m - 1)) / m) < n + m := by
  have hdiv := Nat.div_add_mod (n + (m - 1)) m
  have hmod := Nat.mod_lt (n + (m - 1)) hm
  omega

/-! ### The statements -/

/-- Settles O34: the commands read off the trace are those of the prologue and, word by word, of the loads. -/
theorem programmingTriggers : Obligations.ProgrammingTriggers := by
  intro i rgn n ws s t new hform hn hp hl hidle hexec hok hnew
  obtain ⟨hlen, rfl⟩ := (exec_okTrace hexec hok hnew).write hform hn
  have hwords := map_fst_writeCommands s.params rgn hn hlen
  have hload : loadCmd rgn = if rgn = .dm then .loadDataDm else .loadDataPm := by cases rgn <;> rfl
  refine ⟨loadCmd rgn, _, (writeCommands s.params rgn n.toNat ws).map Prod.fst, hload,
    (commandsSent_commandsItems hp hidle _ (writeCommands_sends _ _ _ _)).symm, hwords,
    loadCmd_not_mem_prologue s.params rgn, count_beginIntProg s.params hl hlen, ?_⟩
  rw [hwords, flatMap_wordCommands_last _ _ hn, ← List.append_assoc]
  exact ⟨_, rfl⟩

/-- Settles O51: the groups of all the words are those before the first multiple of `GROUP` that is not below `n`. -/
theorem groupsCoverEveryWord : Obligations.GroupsCoverEveryWord := by
  intro size n hsize
  obtain ⟨hge, hlt⟩ := ceilDiv_bounds n hsize
  refine ⟨?_, fun g hg => ?_⟩
  · rw [groups, List.flatMap_map, flatMap_groups, Nat.min_eq_left hge]
  · obtain ⟨k, hk, rfl⟩ := List.mem_map.1 hg
    have hle : size * (k + 1) ≤ size * ((n + (size - 1)) / size) := Nat.mul_le_mul_left _ (List.mem_range.1 hk)
    rw [Nat.mul_succ] at hle
    refine ⟨?_, Nat.min_le_left _ _, Nat.mul_mod_right _ _⟩
    dsimp only
    omega

/-- Settles O50: the wait is the resolution times a quotient that rounds up. -/
theorem platformWaitsRoundUp : Obligations.PlatformWaitsRoundUp := by
  intro res t
  rcases Nat.eq_zero_or_pos res with rfl | hres
  · exact ⟨le_rfl, fun h => absurd h (by decide)⟩
  · obtain ⟨hge, hlt⟩ := ceilDiv_bounds t hres
    rw [platformWait, if_neg hres.ne', Nat.mul_comm]
    exact ⟨hge, fun _ => ⟨Nat.dvd_mul_right _ _, hlt⟩⟩

end Sys2Proof.Machine

/-! PROOFS. The one result of every instruction, the precision of the refusals, what no instruction changes, and the
freedom of everything but the status word from the cursor shadow (spec/60_exceptions.md section 3, spec/10_state.md
sections 2 to 7). -/

namespace Sys2Proof.Machine

/-! ### The results of an instruction (R131, R136) -/

theorem isFault_iff (r : Result) : r.isFault = true ↔ r = .eBadOp ∨ r = .eBadArg ∨ r = .eNotProg := by
  cases r <;> simp [Result.isFault]

theorem eq_ok_or_aborted {r : Result} (h : r.isFault = false) : r = .ok ∨ r = .aborted := by
  cases r with
  | ok => exact .inl rfl
  | aborted => exact .inr rfl
  | eNotProg | eBadOp | eBadArg => cases h

theorem plainOp_ne_aborted {ok : Bool} {body : State → State} {s : State} (hbody : ∀ u, (body u).lastResult = .ok) :
    (plainOp ok body s).lastResult ≠ .aborted := by
  rw [plainOp_eq]
  split
  · simp [hbody]
  · simp

theorem commandOp_ne_aborted {ok : Bool} {body : State → State} {s : State} (hbody : ∀ u, (body u).lastResult = .ok) :
    (commandOp ok body s).lastResult ≠ .aborted := by
  rw [commandOp_eq]
  split
  · split
    · simp [hbody]
    · simp
  · simp

/-- Only a region request has abort points (R30, R123, R124). -/
theorem regionForm_of_aborted {i : Instr} {s t : State} (h : exec i s = .next t) (haborted : t.lastResult = .aborted) :
    ∃ n ops, regionForm i = some (n, ops) := by
  cases i with
  | readRegion | eraseRegionPm | eraseRegionDm | eraseRegionCfg | writeRegionPm | writeRegionDm | writeRegionCfg =>
    exact ⟨_, _, rfl⟩
  | getStatus | setTiming | getTiming | sendBits | recvBits | enterProg | exitProg | resetTarget =>
    cases h
    exact absurd haborted (plainOp_ne_aborted fun _ => rfl)
  | icspKey =>
    obtain rfl : complete .ok [] (enterSession .prog (enterWaveform s)) = t := Host.Outcome.next.inj h
    cases haborted
  | cmdReadDataPm | cmdReadDataDm | icspReadDataProgramMemory | icspReadDataDataMemory =>
    cases h
    exact absurd haborted (commandOp_ne_aborted fun u => runRead_lastResult _ u)
  | cmdLoadConfig | cmdLoadDataPm | cmdLoadDataDm | cmdIncrementAddress | cmdResetAddress | cmdBeginIntProg
  | cmdBulkErasePm | cmdBulkEraseDm | icspLoadConfiguration | icspLoadDataProgramMemory | icspLoadDataDataMemory
  | icspIncrementAddress | icspResetAddress | icspBeginInternallyTimedProgramming | icspBulkEraseProgramMemory
  | icspBulkEraseDataMemory =>
    cases h
    exact absurd haborted (commandOp_ne_aborted fun _ => rfl)

/-- An instruction that is performed ends in `OK`, or in `ABORTED` where it is a region request. -/
theorem result_of_not_fault {i : Instr} {s t : State} (h : exec i s = .next t) (hok : t.lastResult.isFault = false) :
    t.lastResult = .ok ∨ t.lastResult = .aborted ∧ ∃ n ops, regionForm i = some (n, ops) :=
  (eq_ok_or_aborted hok).imp_right fun haborted => ⟨haborted, regionForm_of_aborted h haborted⟩

/-- A well-formed instruction is refused in no case but that of `NORMAL`. -/
theorem not_fault_of_wellFormed {i : Instr} {s t : State} (h : exec i s = .next t) (hwf : WellFormed s.params i = true)
    (hallowed : s.session = .prog ∨ ¬ NeedsProg i) : t.lastResult.isFault = false := by
  cases exec_outcome h with
  | badArg hbad => exact absurd hwf (by simp [hbad])
  | notProg _ hnormal hneeds => simp [hnormal, hneeds] at hallowed
  | performed _ _ hok => exact hok

/-! ### What a message leaves (R28, R137) -/

/-- The inversion of `perform` by the result: a refusal, or an instruction that ends in `OK` or `ABORTED`, which leaves
`fault_seen`. -/
theorem perform_result {m : Message} {s t : State} (h : perform m s = .next t) :
    t.lastResult.isFault = true ∧ t = refusedWith t.lastResult s ∨
      t.lastResult.isFault = false ∧ t.faultSeen = s.faultSeen := by
  have hexec {i : Instr} (h : exec i s = .next t) : t.lastResult.isFault = true ∧ t = refusedWith t.lastResult s ∨
      t.lastResult.isFault = false ∧ t.faultSeen = s.faultSeen := by
    rcases exec_next h with ⟨r, hr, rfl⟩ | ⟨env, items, m, k, τ, d, r, data, -, hr, -, -, rfl⟩
    · exact .inl ⟨hr, rfl⟩
    · exact .inr ⟨by rcases hr with rfl | rfl <;> rfl, rfl⟩
  rcases perform_next h with ⟨r, hr, rfl⟩ | ⟨i, -, h⟩
  · exact .inl ⟨hr, rfl⟩
  · exact hexec h

/-- A command is none of the mode-control requests, and not the key. -/
theorem noMode_of_command {i : Instr} (h : (commandForm i).isSome = true) : NoMode i := by
  refine ⟨?_, ?_, ?_, ?_⟩ <;> rintro rfl <;> cases h

/-- The key unit leaves MCLR at 0 (R93). -/
theorem exec_icspKey_mclr {s t : State} (h : exec .icspKey s = .next t) : t.lines.mclr = false := by
  have hkey : exec .icspKey s = exec (.enterProg []) s := rfl
  rw [hkey] at h
  rw [(enterProg_lines_trace h).1, mclr_enterItems]

/-! ### Below a timing floor (R25, R62) -/

/-- A line event made below a floor leaves the oracle, and nothing brings a target back (R62). -/
theorem envAfter_belowFloor (p : Params) {τ : Timing} (l : Lines) (env : Env) {items : List TraceItem} {e : Event}
    (hfloor : belowFloor τ = true) (hevent : .event e ∈ items) : envAfter p τ l items env = .oracle := by
  have hobserve (l : Lines) (e : Event) (env : Env) : envObserve p τ l e env = .oracle := by
    cases env <;> simp [envObserve, hfloor]
  induction items generalizing l env with
  | nil => cases hevent
  | cons x items ih =>
    cases x with
    | event x => rw [envAfter, hobserve, envAfter_oracle]
    | wait ns =>
      rw [envAfter]
      exact ih l _ ((List.mem_cons.1 hevent).resolve_left (by simp))

/-! ### The statements -/

/-- Settles O37: the outcome of the checks, and then of the instruction where it is performed. -/
theorem priorityOfOutcomes : Obligations.PriorityOfOutcomes := by
  intro i s
  obtain ⟨t, h, -⟩ := exec_checked i s
  refine ⟨t, h, (exec_eBadArg_iff h).2, fun hwf => ⟨?empty, fun hnormal hneeds => ?normal, fun hprog => ?prog,
    fun hcommand hregion => ?plain⟩⟩
  case empty =>
    rintro ⟨n, ops, hform, hn⟩
    cases (emptyRegionIsNoOp i n ops s hform hwf hn).symm.trans h
    rfl
  case normal => exact (exec_eNotProg_iff h).2 ⟨hnormal, hwf, hneeds⟩
  case prog => exact result_of_not_fault h (not_fault_of_wellFormed h hwf (.inl hprog))
  case plain =>
    have hneeds := not_needsProg (Option.isNone_iff_eq_none.1 hcommand) hregion
    refine (result_of_not_fault h (not_fault_of_wellFormed h hwf (.inr hneeds))).resolve_right ?_
    rintro ⟨-, n, ops, hform⟩
    cases hregion.symm.trans hform

/-- Settles O38: a message whose result is a fault is a refusal. -/
theorem refusalsArePrecise : Obligations.RefusalsArePrecise := by
  intro m s t h hfault
  rcases perform_result h with ⟨-, ht⟩ | ⟨hok, -⟩
  · exact ⟨ht, by rw [ht]; rfl⟩
  · exact absurd hfault (by simp [hok])

/-- Settles O39: a refusal sets `fault_seen`, and every other result leaves it. -/
theorem faultSeenIsSticky : Obligations.FaultSeenIsSticky := by
  refine ⟨fun m s t h => ?_, blockReset_faultSeen⟩
  rcases perform_result h with ⟨hfault, ht⟩ | ⟨hok, ht⟩
  · rw [decide_eq_true ((isFault_iff _).1 hfault), Bool.or_true, ht, refusedWith_faultSeen]
  · rw [decide_eq_false (mt (isFault_iff _).2 (by simp [hok])), Bool.or_false, ht]

/-- Settles O42: the fields that neither effect of an instruction writes; the session and MCLR by their writers. -/
theorem commonFrame : Obligations.CommonFrame := by
  intro i s t h
  have hcommand : (commandForm i).isSome = true → t.session = s.session ∧ t.lines.mclr = s.lines.mclr := by
    intro hform
    obtain ⟨henter, hkey, hexit, hreset⟩ := noMode_of_command hform
    exact ⟨by simpa [henter, hkey, hexit, hreset] using exec_session h, exec_mclr_of_noMode h (noMode_of_command hform)⟩
  have hkey : i = .icspKey → t.session = .prog ∧ t.lines.mclr = false := by
    rintro rfl
    exact ⟨exec_session h, exec_icspKey_mclr h⟩
  rcases exec_next h with ⟨r, -, rfl⟩ | ⟨env, items, m, k, τ, d, r, data, -, -, -, hmoves, rfl⟩
  case inl => exact ⟨rfl, rfl, rfl, fun _ => rfl, ⟨[], (List.append_nil _).symm⟩, ⟨_, rfl⟩, hcommand, hkey⟩
  case inr =>
    refine ⟨rfl, rfl, rfl, fun hset => ?_, ⟨items, trace_played items s⟩, ⟨_, rfl⟩, hcommand, hkey⟩
    exact hmoves.timing.resolve_right fun ⟨⟨idx, ops, hi⟩, _⟩ => hset idx ops hi

/-- Settles O58: an instruction that makes a line event plays it with the registers it met. -/
theorem belowFloorFreesTarget : Obligations.BelowFloorFreesTarget := by
  intro i s t new e hfloor h hnew hevent
  rcases exec_next h with ⟨r, -, rfl⟩ | ⟨env, items, m, k, τ, d, r, data, -, -, -, -, rfl⟩
  case inl =>
    obtain rfl : new = [] := List.self_eq_append_right.1 hnew
    cases hevent
  case inr =>
    obtain rfl : new = items := List.append_cancel_left (hnew.symm.trans (trace_played items s))
    exact envAfter_belowFloor _ _ _ hfloor hevent

end Sys2Proof.Machine

/-! PROOFS. The cursor shadow is never read but by the status word and by its own next value (spec/10_state.md section 4,
R23). -/

namespace Sys2Proof.Machine

/-! ### States that differ in the shadow alone -/

/-- `s` with another shadow. -/
def withShadow (k : Cursor) (s : State) : State := { s with cursor := k }

/-- `f` answers nothing, and does the same whatever the shadow is, but to the shadow. -/
def ShadowFree (f : State → State) : Prop :=
  ∀ s, (f s).responses = s.responses ∧ ∀ k, ∃ k', f (withShadow k s) = withShadow k' (f s)

/-- `t` and `t'` have added one response each to `rs`, with the same data words, and differ besides in the shadow alone. -/
def AnsweredAlike (rs : List Response) (t t' : State) : Prop :=
  ∃ (k' : Cursor) (st st' : Word) (data : List Word),
    t.responses = ⟨st, data⟩ :: rs ∧ t' = { t with cursor := k', responses := ⟨st', data⟩ :: rs }

/-- `body` answers its request in the same way whatever the shadow is. -/
def ShadowBlind (body : State → State) : Prop :=
  ∀ s k, AnsweredAlike s.responses (body s) (body (withShadow k s))

theorem answeredAlike_complete (r : Result) (data : List Word) {rs : List Response} {s : State}
    (hs : s.responses = rs) (k : Cursor) : AnsweredAlike rs (complete r data s) (complete r data (withShadow k s)) := by
  subst hs
  exact ⟨k, _, _, data, rfl, rfl⟩

theorem shadowBlind_refuse (r : Result) : ShadowBlind (refuse r) := fun _ k => ⟨k, _, _, [], rfl, rfl⟩

/-! ### The operations that send -/

theorem ShadowFree.id : ShadowFree fun s => s := fun _ => ⟨rfl, fun k => ⟨k, rfl⟩⟩

theorem ShadowFree.comp {f g : State → State} (hg : ShadowFree g) (hf : ShadowFree f) : ShadowFree fun s => g (f s) := by
  intro s
  obtain ⟨hfr, hfk⟩ := hf s
  obtain ⟨hgr, hgk⟩ := hg (f s)
  refine ⟨hgr.trans hfr, fun k => ?_⟩
  obtain ⟨k1, h1⟩ := hfk k
  dsimp only
  rw [h1]
  exact hgk k1

theorem ShadowFree.of_played {f : State → State} (items : Params → Timing → List TraceItem)
    (h : ∀ s, f s = played (items s.params s.timing) s) : ShadowFree f := by
  intro s
  rw [h]
  exact ⟨rfl, fun k => ⟨k, h _⟩⟩

theorem ShadowFree.of_ranWith {f : State → State} (cs : Params → List (Cmd × Payload))
    (h : ∀ s, f s = ranWith (cs s.params) [] s.draws s) : ShadowFree f := by
  intro s
  rw [h]
  exact ⟨rfl, fun k => ⟨shadowAfterAll (cs s.params) k, h _⟩⟩

theorem ShadowFree.issue {c : Cmd} (p : Payload) (hc : cmdClass c ≠ .inp) : ShadowFree (issue c p) :=
  .of_ranWith (fun _ => [(c, p)]) fun s => issue_eq_ranWith c p s hc

theorem ShadowFree.enterSession (m : Session) : ShadowFree (enterSession m) :=
  fun _ => ⟨rfl, fun _ => ⟨cursorCleared, rfl⟩⟩

theorem ShadowFree.invalidateCursor : ShadowFree invalidateCursor :=
  fun _ => ⟨rfl, fun k => ⟨{ k with valid := false }, rfl⟩⟩

theorem ShadowFree.arriveRaw : ShadowFree arriveRaw := fun _ => ⟨rfl, fun k => ⟨k, rfl⟩⟩

/-! ### The operations that read, and the abort points -/

theorem drawBit_withShadow (k : Cursor) (s : State) :
    drawBit (withShadow k s) = ((drawBit s).1, withShadow k (drawBit s).2) := by
  have henv : (withShadow k s).env = s.env := rfl
  have hdraws : (withShadow k s).draws = s.draws := rfl
  rw [drawBit, drawBit, henv, hdraws]
  split
  · rfl
  · split <;> rfl

theorem abortPoint_withShadow (k : Cursor) (s : State) :
    abortPoint (withShadow k s) = ((abortPoint s).1, withShadow k (abortPoint s).2) := by
  have hdraws : (withShadow k s).draws = s.draws := rfl
  rw [abortPoint, abortPoint, hdraws]
  split <;> rfl

theorem recvBit_withShadow (k : Cursor) (s : State) :
    recvBit (withShadow k s) = ((recvBit s).1, withShadow k (recvBit s).2) := by
  have hrise : wait (withShadow k s).timing.tEdge (emit (.clk true) (withShadow k s)) =
      withShadow k (wait s.timing.tEdge (emit (.clk true) s)) := rfl
  simp only [recvBit, sample, hrise, drawBit_withShadow]
  rfl

theorem recvList_withShadow (n : Nat) (k : Cursor) (s : State) :
    recvList n (withShadow k s) = ((recvList n s).1, withShadow k (recvList n s).2) := by
  induction n generalizing s with
  | zero => rfl
  | succ n ih => simp only [recvList, recvBit_withShadow, ih]

theorem recvBits_withShadow (n : Nat) (k : Cursor) (s : State) :
    recvBits n (withShadow k s) = ((recvBits n s).1, withShadow k (recvBits n s).2) := by
  have hdir : wait (withShadow k s).timing.tEdge (emit (.dir .inp) (withShadow k s)) =
      withShadow k (wait s.timing.tEdge (emit (.dir .inp) s)) := rfl
  simp only [recvBits, hdir, recvList_withShadow]
  rfl

theorem issueCmd_responses {c : Cmd} (p : Payload) (s : State) (hc : cmdClass c = .inp) :
    (issueCmd c p s).2.responses = s.responses := by
  obtain ⟨bs, d, -, -, h⟩ := issueCmd_reads c p s hc
  rw [h]
  rfl

/-- `s` after the opcode of a command and the wait after it (R98). -/
def opcodePlayed (c : Cmd) (s : State) : State :=
  played (sendItems s.timing.tEdge.toNat Config.wOpc (s.params.opc c).toNat ++ [.wait (settle c s.timing)]) s

/-- A read command is its opcode, the reception of a frame and a wait; it leaves the shadow (R22, R98). -/
theorem issueCmd_inp {c : Cmd} (p : Payload) (s : State) (hc : cmdClass c = .inp) :
    issueCmd c p s =
      (BitVec.ofNat Config.wFrame (bitsValue (recvBits Config.wFrame (opcodePlayed c s)).1),
        wait (recvBits Config.wFrame (opcodePlayed c s)).2.timing.tCmd
          (recvBits Config.wFrame (opcodePlayed c s)).2) := by
  have hopcode : wait (opcodeWait c (sendBits Config.wOpc (s.params.opc c).toNat s).timing)
      (sendBits Config.wOpc (s.params.opc c).toNat s) = opcodePlayed c s := by
    rw [opcodePlayed, sendBits_eq_played, wait_eq_played, played_played, opcodeWait_toNat, played_timing]
  simp only [issueCmd, hopcode, hc, cursorAfter_eq_shadowAfter, shadowAfter_read c _ hc]

theorem played_withShadow (items : List TraceItem) (k : Cursor) (s : State) :
    played items (withShadow k s) = withShadow k (played items s) := rfl

theorem opcodePlayed_withShadow (c : Cmd) (k : Cursor) (s : State) :
    opcodePlayed c (withShadow k s) = withShadow k (opcodePlayed c s) := played_withShadow _ k s

/-- A read command answers the same frame whatever the shadow is, which it leaves (R22, R98). -/
theorem issueCmd_withShadow {c : Cmd} (p : Payload) (k : Cursor) (s : State) (hc : cmdClass c = .inp) :
    issueCmd c p (withShadow k s) = ((issueCmd c p s).1, withShadow k (issueCmd c p s).2) := by
  rw [issueCmd_inp p _ hc, issueCmd_inp p _ hc, opcodePlayed_withShadow, recvBits_withShadow]
  generalize recvBits Config.wFrame (opcodePlayed c s) = received
  rfl

/-- An abort point that may stand before a word is the same whatever the shadow is. -/
theorem abortIf_withShadow (here : Prop) [Decidable here] (k : Cursor) (s : State) :
    ∃ stop s1, s1.responses = s.responses ∧ (if here then abortPoint s else (false, s)) = (stop, s1) ∧
      (if here then abortPoint (withShadow k s) else (false, withShadow k s)) = (stop, withShadow k s1) := by
  split
  · obtain ⟨b, d, h⟩ := abortPoint_eq s
    exact ⟨b, { s with draws := d }, rfl, h, by rw [abortPoint_withShadow, h]⟩
  · exact ⟨false, s, rfl, rfl, rfl⟩

/-! ### The loops of the memory access engine -/

theorem readLoop_alike {c : Cmd} (hc : cmdClass c = .inp) {rs : List Response} (n i : Nat) (out : List Word) {s : State}
    (hs : s.responses = rs) (k : Cursor) :
    AnsweredAlike rs (readLoop c n i out s) (readLoop c n i out (withShadow k s)) := by
  induction n generalizing i out s k with
  | zero => exact answeredAlike_complete .ok _ hs k
  | succ n ih =>
    obtain ⟨stop, s1, hs1, habort, habort'⟩ := abortIf_withShadow (1 ≤ i) k s
    obtain ⟨hincr, hincr'⟩ := ShadowFree.issue (c := .incrementAddress) 0 (by decide) (issueCmd c 0 s1).2
    obtain ⟨k1, hk1⟩ := hincr' k
    simp only [readLoop, habort, habort', issueCmd_withShadow 0 k s1 hc, hk1]
    split
    · exact answeredAlike_complete .aborted _ (hs1.trans hs) k
    · exact ih (i + 1) _ (hincr.trans ((issueCmd_responses 0 s1 hc).trans (hs1.trans hs))) k1

theorem writeLoop_alike {c : Cmd} (hc : cmdClass c ≠ .inp) {rs : List Response} (n l i : Nat) (ws : List Word) {s : State}
    (hs : s.responses = rs) (k : Cursor) :
    AnsweredAlike rs (writeLoop c n l ws i s) (writeLoop c n l ws i (withShadow k s)) := by
  induction ws generalizing i s k with
  | nil => exact answeredAlike_complete .ok _ hs k
  | cons w ws ih =>
    obtain ⟨stop, s1, hs1, habort, habort'⟩ := abortIf_withShadow (1 ≤ i ∧ i % l = 0) k s
    have hword : ShadowFree fun s => ranWith (loadCommands c n l i [w]) [] s.draws s :=
      .of_ranWith (fun _ => loadCommands c n l i [w]) fun _ => rfl
    obtain ⟨hresponses, hshadow⟩ := hword s1
    obtain ⟨k1, hk1⟩ := hshadow k
    dsimp only at hk1
    simp only [writeLoop, habort, habort', write_word c hc]
    split
    · exact answeredAlike_complete .aborted _ (hs1.trans hs) k
    · rw [hk1]
      exact ih (i + 1) (hresponses.trans (hs1.trans hs)) k1

/-! ### The requests, by their bodies -/

theorem ShadowBlind.complete {f : State → State} (hf : ShadowFree f) (r : Result) (data : List Word) :
    ShadowBlind fun s => complete r data (f s) := by
  intro s k
  obtain ⟨hr, hk⟩ := hf s
  obtain ⟨k1, h1⟩ := hk k
  dsimp only
  rw [h1]
  exact answeredAlike_complete r data hr k1

/-- A body that follows operations which answer nothing. -/
theorem ShadowBlind.comp {body f : State → State} (hbody : ShadowBlind body) (hf : ShadowFree f) :
    ShadowBlind fun s => body (f s) := by
  intro s k
  obtain ⟨hr, hk⟩ := hf s
  obtain ⟨k1, h1⟩ := hk k
  dsimp only
  rw [h1, ← hr]
  exact hbody (f s) k1

theorem ShadowBlind.plainOp {body : State → State} (hbody : ShadowBlind body) (ok : Bool) :
    ShadowBlind (plainOp ok body) := by
  intro s k
  unfold Machine.plainOp
  split
  · exact hbody s k
  · exact shadowBlind_refuse _ s k

theorem ShadowBlind.commandOp {body : State → State} (hbody : ShadowBlind body) (ok : Bool) :
    ShadowBlind (commandOp ok body) := by
  intro s k
  have hsession : (withShadow k s).session = s.session := rfl
  unfold Machine.commandOp
  rw [hsession]
  split
  · split
    · exact hbody (arrive s) k
    · exact shadowBlind_refuse _ s k
  · exact shadowBlind_refuse _ s k

theorem ShadowBlind.regionOp {body : State → State} (hbody : ShadowBlind body) (ok : Bool) (n : BitVec 16) :
    ShadowBlind (regionOp ok n body) := by
  intro s k
  have hsession : (withShadow k s).session = s.session := rfl
  unfold Machine.regionOp
  rw [hsession]
  split
  · split
    · exact answeredAlike_complete .ok [] rfl k
    · split
      · exact hbody (arrive s) k
      · exact shadowBlind_refuse _ s k
  · exact shadowBlind_refuse _ s k

theorem ShadowBlind.runCommand {c : Cmd} (p : Payload) (hc : cmdClass c ≠ .inp) : ShadowBlind (runCommand c p) :=
  .complete (.issue p hc) .ok []

theorem ShadowBlind.runRead {c : Cmd} (hc : cmdClass c = .inp) : ShadowBlind (runRead c) := by
  intro s k
  simp only [Machine.runRead, issueCmd_withShadow 0 k s hc]
  exact answeredAlike_complete .ok _ (issueCmd_responses 0 s hc) k

theorem ShadowBlind.readBody (rgn : Region) (n : Nat) :
    ShadowBlind fun s => readLoop (readCmd rgn) n 0 [] (position rgn s) :=
  .comp (fun _ k => readLoop_alike (readCmd_reads rgn) n 0 [] rfl k)
    (.of_ranWith (fun p => [if rgn = .cfg then (.loadConfig, p.ldcfgPayload) else (.resetAddress, 0)])
      fun s => position_eq_ranWith rgn s)

theorem ShadowBlind.writeBody (rgn : Region) (n : Nat) (ws : List Word) :
    ShadowBlind fun s => writeLoop (loadCmd rgn) n (s.params.latchSize rgn) ws 0
      (ranWith (writePrologue s.params rgn) [] s.draws s) :=
  .comp (body := fun s => writeLoop (loadCmd rgn) n (s.params.latchSize rgn) ws 0 s)
    (fun s k => writeLoop_alike (loadCmd_sends rgn) n (s.params.latchSize rgn) 0 ws rfl k)
    (.of_ranWith (fun p => writePrologue p rgn) fun _ => rfl)


theorem ShadowBlind.recvBody (n : Nat) :
    ShadowBlind fun s =>
      Machine.complete .ok [BitVec.ofNat 32 (bitsValue (recvBits n (arriveRaw s)).1)]
        (Machine.invalidateCursor (recvBits n (arriveRaw s)).2) := by
  intro s k
  have harrive : arriveRaw (withShadow k s) = withShadow k (arriveRaw s) := rfl
  obtain ⟨bs, d, -, -, h⟩ := recvBits_eq n (arriveRaw s)
  simp only [harrive, recvBits_withShadow, h]
  exact answeredAlike_complete .ok _ rfl { k with valid := false }

theorem ShadowBlind.mode {waveform : State → State} (m : Session) (h : ShadowFree waveform) :
    ShadowBlind fun s => Machine.complete .ok [] (Machine.enterSession m (waveform s)) :=
  .complete (.comp (.enterSession m) h) .ok []

theorem ShadowFree.enterWaveform : ShadowFree enterWaveform := .of_played enterItems enterWaveform_eq_played

/-- From the states that differ from `s` in the shadow alone, the instruction is one body that never reads it. -/
def BlindFrom (i : Instr) (s : State) : Prop :=
  ∃ body, ShadowBlind body ∧ ∀ k, exec i (withShadow k s) = .next (body (withShadow k s))

theorem exec_blindFrom (i : Instr) (s : State) : BlindFrom i s := by
  cases i with
  | getStatus ops => exact ⟨_, .plainOp (.complete .id .ok []) (hasOperands ops 0), fun _ => rfl⟩
  | setTiming idx ops =>
    have hset : ShadowFree fun s => { s with timing := s.timing.set idx.toNat (operand ops) } :=
      fun _ => ⟨rfl, fun k => ⟨k, rfl⟩⟩
    exact ⟨_, .plainOp (.complete hset .ok []) (indexLegal idx && hasOperands ops 1), fun _ => rfl⟩
  | getTiming idx ops =>
    have hget : ShadowBlind fun s => complete .ok [s.timing.get idx.toNat] s :=
      fun _ k => answeredAlike_complete .ok _ rfl k
    exact ⟨_, .plainOp hget (indexLegal idx && hasOperands ops 0), fun _ => rfl⟩
  | sendBits n ops =>
    have hsend : ShadowFree (sendBits n.toNat (operand ops).toNat) :=
      .of_played (fun _ τ => sendItems τ.tEdge.toNat n.toNat (operand ops).toNat) fun s => sendBits_eq_played _ _ s
    exact ⟨_, .plainOp (.complete (.comp .invalidateCursor (.comp hsend .arriveRaw)) .ok [])
      (bitsLegal s.params n && hasOperands ops 1), fun _ => rfl⟩
  | recvBits n ops =>
    exact ⟨_, .plainOp (.recvBody n.toNat) (bitsLegal s.params n && hasOperands ops 0), fun _ => rfl⟩
  | enterProg ops => exact ⟨_, .plainOp (.mode .prog .enterWaveform) (hasOperands ops 0), fun _ => rfl⟩
  | exitProg ops =>
    have hdrive : ShadowFree (emit (.mclr true)) := .of_played (fun _ _ => [.event (.mclr true)]) (emit_eq_played _)
    exact ⟨_, .plainOp (.mode .normal hdrive) (hasOperands ops 0), fun _ => rfl⟩
  | resetTarget ops =>
    have hreset : ShadowFree resetWaveform := .of_played (fun _ τ => resetItems τ) resetWaveform_eq_played
    exact ⟨_, .plainOp (.mode .normal hreset) (hasOperands ops 0), fun _ => rfl⟩
  | icspKey => exact ⟨_, .mode .prog .enterWaveform, fun _ => rfl⟩
  | cmdLoadConfig ops | cmdLoadDataPm ops | cmdLoadDataDm ops =>
    exact ⟨_, .commandOp (.runCommand _ (by decide)) (hasOperands ops 1), fun _ => rfl⟩
  | cmdIncrementAddress ops | cmdResetAddress ops | cmdBeginIntProg ops | cmdBulkErasePm ops | cmdBulkEraseDm ops =>
    exact ⟨_, .commandOp (.runCommand _ (by decide)) (hasOperands ops 0), fun _ => rfl⟩
  | cmdReadDataPm ops | cmdReadDataDm ops =>
    exact ⟨_, .commandOp (.runRead (by decide)) (hasOperands ops 0), fun _ => rfl⟩
  | icspReadDataProgramMemory | icspReadDataDataMemory =>
    exact ⟨_, .commandOp (.runRead (by decide)) true, fun _ => rfl⟩
  | icspLoadConfiguration payload | icspLoadDataProgramMemory payload | icspLoadDataDataMemory payload
  | icspIncrementAddress | icspResetAddress | icspBeginInternallyTimedProgramming | icspBulkEraseProgramMemory
  | icspBulkEraseDataMemory => exact ⟨_, .commandOp (.runCommand _ (by decide)) true, fun _ => rfl⟩
  | readRegion rgn n ops => exact ⟨_, .regionOp (.readBody rgn n.toNat) (hasOperands ops 0) n, fun _ => rfl⟩
  | eraseRegionPm n ops =>
    exact ⟨_, .regionOp (.complete (.of_ranWith (fun p => [(.loadConfig, p.ldcfgPayload), (.bulkErasePm, 0)])
      erasePm_eq_ranWith) .ok []) (hasOperands ops 0) n, fun _ => rfl⟩
  | eraseRegionDm n ops =>
    exact ⟨_, .regionOp (.complete (.issue 0 (by decide)) .ok []) (hasOperands ops 0) n, fun _ => rfl⟩
  | eraseRegionCfg n ops => exact ⟨_, shadowBlind_refuse .eBadArg, fun _ => rfl⟩
  | writeRegionPm n ops =>
    exact ⟨_, .regionOp (.writeBody .pm n.toNat ops) (WellFormed s.params (.writeRegionPm n ops)) n,
      fun k => exec_write (withShadow k s) rfl⟩
  | writeRegionDm n ops =>
    exact ⟨_, .regionOp (.writeBody .dm n.toNat ops) (WellFormed s.params (.writeRegionDm n ops)) n,
      fun k => exec_write (withShadow k s) rfl⟩
  | writeRegionCfg n ops =>
    exact ⟨_, .regionOp (.writeBody .cfg n.toNat ops) (WellFormed s.params (.writeRegionCfg n ops)) n,
      fun k => exec_write (withShadow k s) rfl⟩

/-! ### The statement -/

/-- Settles O43: the body that an instruction is from both states answers alike from both. -/
theorem cursorShadowNeverRead : Obligations.CursorShadowNeverRead := by
  intro i s t k h
  obtain ⟨body, hblind, hbody⟩ := exec_blindFrom i s
  obtain rfl : body s = t := Host.Outcome.next.inj ((hbody s.cursor).symm.trans h)
  obtain ⟨k', st, st', data, hresponses, halike⟩ := hblind s k
  exact ⟨k', st, st', data, hresponses, (hbody k).trans (congrArg Host.Outcome.next halike)⟩

end Sys2Proof.Machine

/-! PROOFS. The laws of the target memories (spec/20_memory.md section 5, R53). -/

namespace Sys2Proof.Machine

/-! ### Reading a list of words after a change -/

theorem cellLookup_insert {α : Type} (m : List (Nat × α)) (x : Nat) (v : α) (y : Nat) :
    cellLookup (cellInsert m x v) y = if y = x then some v else cellLookup m y := by
  induction m with
  | nil => simp [cellInsert, cellLookup, eq_comm]
  | cons c m ih =>
    simp only [cellInsert]
    split
    · simp [cellLookup, eq_comm]
    · split
      case isTrue heq =>
        rcases eq_or_ne y x with rfl | hy
        · simp [cellLookup]
        · simp [cellLookup, ← heq, hy, hy.symm]
      case isFalse hgt hne =>
        rcases eq_or_ne y x with rfl | hy
        · simp [cellLookup, ih, Ne.symm hne]
        · simp [cellLookup, ih, hy]

/-- Nothing is listed below the first offset. -/
theorem cellLookup_below {α : Type} {lo x : Nat} {m : List (Nat × α)} (hm : cellsRiseFrom lo m = true) (hx : x < lo) :
    cellLookup m x = none := by
  induction m generalizing lo with
  | nil => rfl
  | cons c m ih =>
    simp only [cellsRiseFrom, Bool.and_eq_true, decide_eq_true_eq] at hm
    obtain ⟨hlo, hrest⟩ := hm
    rw [cellLookup, if_neg (by omega), ih hrest (by omega)]

/-- In the canonical form an offset is listed once, so that nothing is left at an erased one. -/
theorem cellLookup_erase {α : Type} {lo : Nat} {m : List (Nat × α)} (hm : cellsRiseFrom lo m = true) (x y : Nat) :
    cellLookup (cellErase m x) y = if y = x then none else cellLookup m y := by
  induction m generalizing lo with
  | nil => simp [cellErase, cellLookup]
  | cons c m ih =>
    simp only [cellsRiseFrom, Bool.and_eq_true, decide_eq_true_eq] at hm
    obtain ⟨-, hrest⟩ := hm
    simp only [cellErase]
    split
    case isTrue heq =>
      rcases eq_or_ne y x with rfl | hy
      · rw [if_pos rfl, cellLookup_below hrest (by omega)]
      · rw [if_neg hy, cellLookup, if_neg (by omega)]
    case isFalse hne =>
      rcases eq_or_ne y x with rfl | hy
      · rw [cellLookup, if_neg hne, ih hrest, if_pos rfl, if_pos rfl]
      · simp only [cellLookup, ih hrest, if_neg hy]

/-! ### The statement -/

/-- Settles O59: a write lists its word, or lists nothing where the word is what an unlisted offset holds. -/
theorem targetMemoryLaws : Obligations.TargetMemoryLaws := by
  intro m x v hm
  refine ⟨memWrite_wf x v hm, fun y => ?_⟩
  obtain ⟨hcells, -⟩ := (Memory.wf_iff m).1 hm
  by_cases hv : v = m.rest
  · simp only [memRead, memWrite, if_pos hv, cellLookup_erase hcells]
    split <;> simp [hv]
  · simp only [memRead, memWrite, if_neg hv, cellLookup_insert]
    split <;> simp

end Sys2Proof.Machine

/-! PROOFS. The reference target under the block's commands and under ENTER_PROG (spec/20_memory.md sections 3 and 5,
spec/41_mode_control.md, spec/70_reset_and_hazards.md section 1). -/

namespace Sys2Proof.Machine

/-! ### A command, as the target takes it from the lines -/

/-- What the lines and the target are where a command of the block begins: `TargetReady`, with the record of raw requests
cleared (R54, R55, R62). -/
structure CommandReady (p : Params) (τ : Timing) (l : Lines) (t : RefTarget) : Prop where
  programming : t.rmode = .lvp
  atBoundary : t.rx = .unit []
  settled : t.due = 0
  notRaw : t.raw = false
  floors : belowFloor τ = false
  idle : LinesIdle l
  params : p.wf = true

theorem partUnit_of_ready {s : State} {t : RefTarget} (h : TargetReady t s) : partUnit t = false := by
  simp [partUnit, h.atBoundary, partIn, h.noStray]

/-- A command stream that begins at an opcode boundary finds no part unit. -/
theorem envCommand_of_ready {s : State} {t : RefTarget} (h : TargetReady t s) :
    envCommand s.env = .reference { t with raw := false } := by
  rw [h.attached, envCommand, partUnit_of_ready h, if_neg (by simp)]

theorem commandReady_of_ready {s : State} {t : RefTarget} (h : TargetReady t s) :
    CommandReady s.params s.timing s.lines { t with raw := false } :=
  ⟨h.programming, h.atBoundary, h.settled, rfl, h.floors, h.idle, h.params⟩

/-- The bits of `SendBits(n, v)`, as the target takes them (R54, R55, R86). -/
theorem envAfter_sendItems {p : Params} {τ : Timing} {l : Lines} {t t' : RefTarget} {e n v : Nat}
    (hfloors : belowFloor τ = false) (hl : LinesIdle l) (hraw : t.raw = false)
    (h : takeBits p τ e (bitsOf n v) t = some t') :
    envAfter p τ l (sendItems e n v) (.reference t) = .reference t' :=
  envAfter_bits p τ e _ l t t' hfloors hl (.inl hraw) h

/-- The opcode and the wait after it, as the target takes them (R55, R62). -/
theorem envAfter_opcode {p : Params} {τ : Timing} {l : Lines} {t : RefTarget} (h : CommandReady p τ l t) (c : Cmd) :
    envAfter p τ l (sendItems τ.tEdge.toNat Config.wOpc (p.opc c).toNat ++ [.wait (settle c τ)]) (.reference t) =
      .reference (targetWait (settle c τ) (targetWait τ.tEdge.toNat (targetOpcode τ c t))) := by
  rw [envAfter_append, envAfter_sendItems h.floors h.idle h.notRaw
    (takeBits_opcode p h.params τ τ.tEdge.toNat t h.programming h.settled h.atBoundary c)]
  rfl

/-- A command without a frame: the target has acted on its opcode, and its settle has elapsed (R59 to R62). -/
theorem targetOpcode_settled {t : RefTarget} (hx : t.rx = .unit []) (hd : t.due = 0) {c : Cmd} (hc : cmdClass c = .none)
    (τ : Timing) (e : Nat) (payload : Payload) :
    targetWait (settle c τ) (targetWait e (targetOpcode τ c t)) = targetCommand c payload t := by
  obtain ⟨geo, rmode, rspace, roff, pm, cfg, dm, latchMain, latchCfg, latchD, rx, due, raw, stray⟩ := t
  simp only at hx hd
  subst hx hd
  cases c with
  | incrementAddress | resetAddress => simp [targetWait, targetOpcode, targetCommand]
  | beginIntProg | bulkErasePm | bulkEraseDm =>
    have hsettle : settleTime τ - e - max τ.tCmd.toNat τ.tProg.toNat = 0 := by simp only [settleTime]; omega
    simp [targetWait, targetOpcode, targetCommand, settle, cmdTimed, hsettle, targetProgram, targetErasePm,
      targetEraseDm, targetUnlatch, targetCommit]
  | loadConfig | loadDataPm | loadDataDm | readDataPm | readDataDm => cases hc

/-- A command with a frame: its opcode starts no settle (R62, R68). -/
theorem targetOpcode_due {t : RefTarget} {c : Cmd} (hc : cmdClass c ≠ .none) (τ : Timing) :
    (targetOpcode τ c t).due = t.due := by
  cases c with
  | loadConfig | loadDataPm | loadDataDm | readDataPm | readDataDm => rfl
  | incrementAddress | resetAddress | beginIntProg | bulkErasePm | bulkEraseDm => exact absurd rfl hc

theorem targetOpcode_rmode (t : RefTarget) (c : Cmd) (τ : Timing) : (targetOpcode τ c t).rmode = t.rmode := by
  cases c <;> rfl

theorem targetOpcode_raw (t : RefTarget) (c : Cmd) (τ : Timing) : (targetOpcode τ c t).raw = t.raw := by
  cases c <;> rfl

theorem targetOpcode_rx_out {c : Cmd} (hc : cmdClass c = .out) (τ : Timing) (t : RefTarget) :
    (targetOpcode τ c t).rx = .frame c [] := by
  cases c with
  | loadConfig | loadDataPm | loadDataDm => rfl
  | _ => cases hc

/-- A read changes nothing but the shift state (R58). -/
theorem targetOpcode_inp {c : Cmd} (hc : cmdClass c = .inp) (τ : Timing) (t : RefTarget) :
    targetOpcode τ c t = { t with rx := .drive ((targetRead c t).map frameOf) 0 } := by
  cases c with
  | readDataPm | readDataDm => rfl
  | _ => cases hc

theorem targetCommand_inp {c : Cmd} (hc : cmdClass c = .inp) (payload : Payload) (t : RefTarget) :
    targetCommand c payload t = t := by
  cases c with
  | readDataPm | readDataDm => rfl
  | _ => cases hc

/-- The opcode and the frame of an OUT command make the command (R56, R57). -/
theorem targetFrame_targetOpcode {t : RefTarget} (hx : t.rx = .unit []) {c : Cmd} (hc : cmdClass c = .out) (τ : Timing)
    (payload : Payload) : targetFrame c payload (targetOpcode τ c t) = targetCommand c payload t := by
  obtain ⟨geo, rmode, rspace, roff, pm, cfg, dm, latchMain, latchCfg, latchD, rx, due, raw, stray⟩ := t
  simp only at hx
  subst hx
  cases c with
  | loadConfig | loadDataDm => rfl
  | loadDataPm => cases rspace <;> rfl
  | _ => cases hc

/-- A whole command leaves the target programming, at an opcode boundary, settled. -/
theorem targetCommand_kept (c : Cmd) (payload : Payload) (t : RefTarget) :
    (targetCommand c payload t).rmode = t.rmode ∧ (targetCommand c payload t).rx = t.rx ∧
      (targetCommand c payload t).due = t.due ∧ (targetCommand c payload t).stray = t.stray := by
  cases c with
  | loadDataPm => simp only [targetCommand]; split <;> exact ⟨rfl, rfl, rfl, rfl⟩
  | _ => exact ⟨rfl, rfl, rfl, rfl⟩

/-- The opcode of a read, and the turn of DATA, as the target takes them: it is driving (R55, R58). -/
theorem envAfter_recvItems {p : Params} {τ : Timing} {l : Lines} {t : RefTarget} (hfloors : belowFloor τ = false)
    (hm : t.rmode = .lvp) (hd : t.due = 0) {raw : Option Frame} (hx : t.rx = .drive raw 0) {bs : List Bool}
    (hbs : bs.length = 16) :
    envAfter p τ l (recvItems τ.tEdge.toNat bs) (.reference t) = .reference { t with rx := .unit [] } := by
  have hpulses := envAfter_pulses p τ τ.tEdge.toNat bs (l.apply (.dir .inp)) t hfloors hm hd raw 0 hx rfl (by omega)
    (by decide)
  rw [recvItems, envAfter_append, envAfter_append]
  simp [envAfter, envObserve, hfloors, envWait, targetWait_settled _ hd, linesAfter, hpulses, hbs]

/-- The trace of a command makes the target do what the command means (R54 to R62). -/
theorem envAfter_commandItems {p : Params} {τ : Timing} {l : Lines} {t : RefTarget} (h : CommandReady p τ l t) (c : Cmd)
    (payload : Payload) {rx : List Bool} (hrx : cmdClass c = .inp → rx.length = 16) :
    envAfter p τ l (commandItems p τ c payload rx) (.reference t) = .reference (targetCommand c payload t) := by
  have hopcode := envAfter_opcode h c
  have hidle : LinesIdle (linesAfter l (sendItems τ.tEdge.toNat Config.wOpc (p.opc c).toNat ++ [.wait (settle c τ)])) :=
    ((Whole.send _ _ _).append (Whole.wait _ _)).idle l h.idle
  rw [commandItems, envAfter_append, hopcode]
  cases hc : cmdClass c with
  | none => exact congrArg Env.reference (targetOpcode_settled h.atBoundary h.settled hc τ _ payload)
  | out =>
    have hdue : (targetOpcode τ c t).due = 0 := (targetOpcode_due (by simp [hc]) τ).trans h.settled
    have hframe := envAfter_sendItems h.floors hidle ((targetOpcode_raw t c τ).trans h.notRaw)
      (takeBits_frame p τ τ.tEdge.toNat c (targetOpcode τ c t) ((targetOpcode_rmode t c τ).trans h.programming) hdue
        (targetOpcode_rx_out hc τ t) payload)
    have hsettled : (targetCommand c payload t).due = 0 := by
      obtain ⟨-, -, hkept, -⟩ := targetCommand_kept c payload t
      exact hkept.trans h.settled
    rw [targetFrame_targetOpcode h.atBoundary hc] at hframe
    rw [targetWait_settled _ hdue, targetWait_settled _ hdue, envAfter_append, hframe]
    exact congrArg Env.reference (targetWait_settled _ hsettled)
  | inp =>
    have hdue : (targetOpcode τ c t).due = 0 := (targetOpcode_due (by simp [hc]) τ).trans h.settled
    have hback : { targetOpcode τ c t with rx := .unit [] } = t := by
      rw [targetOpcode_inp hc, ← h.atBoundary]
    rw [targetWait_settled _ hdue, targetWait_settled _ hdue, envAfter_append,
      envAfter_recvItems h.floors ((targetOpcode_rmode t c τ).trans h.programming) hdue
        (by rw [targetOpcode_inp hc]) (hrx hc), hback, targetCommand_inp hc]
    exact congrArg Env.reference (targetWait_settled _ h.settled)

/-! ### The frame that a driving target gives (R55, R58) -/

theorem recvBit_driven {s : State} {t : RefTarget} {raw : Frame} {j : Nat} (henv : s.env = .reference t)
    (hfloors : belowFloor s.timing = false) (hm : t.rmode = .lvp) (hd : t.due = 0) (hx : t.rx = .drive (some raw) j) :
    recvBit s = (raw.getLsbD j, played (pulseItems s.timing.tEdge.toNat (raw.getLsbD j)) s) := by
  obtain ⟨b, d, h, -, hlevel⟩ := recvBit_eq s
  obtain ⟨rfl, rfl⟩ := hlevel (raw.getLsbD j) (by
    simp [henv, envObserve, hfloors, envWait, targetWait_settled _ hd, envLevel, targetLevel, hm, hx])
  exact h

/-- `n` pulses sample bits `j`, `j + 1`, … of the frame, and take no draw. -/
theorem recvList_driven (n : Nat) {s : State} {t : RefTarget} {raw : Frame} {j : Nat} (henv : s.env = .reference t)
    (hfloors : belowFloor s.timing = false) (hm : t.rmode = .lvp) (hd : t.due = 0) (hx : t.rx = .drive (some raw) j)
    (hdir : s.lines.datDir = .inp) (hj : j + n ≤ 16) :
    (recvList n s).1 = (List.range n).map (fun k => raw.getLsbD (j + k)) ∧ (recvList n s).2.draws = s.draws := by
  induction n generalizing s t j with
  | zero => exact ⟨rfl, rfl⟩
  | succ n ih =>
    have hbit := recvBit_driven henv hfloors hm hd hx
    have henv1 := envAfter_pulses s.params s.timing s.timing.tEdge.toNat [raw.getLsbD j] s.lines t hfloors hm hd
      (some raw) j hx hdir (by simp; omega) (by omega)
    cases n with
    | zero => simp [recvList, hbit]
    | succ n =>
      have hmore : j + 1 < 16 := by omega
      obtain ⟨hbits, hdraws⟩ := ih (s := played (pulseItems s.timing.tEdge.toNat (raw.getLsbD j)) s)
        (t := { t with rx := .drive (some raw) (j + 1) }) (j := j + 1)
        (by rw [played_env, henv]; simpa [hmore] using henv1) hfloors hm hd rfl
        (by simp [pulseItems, linesAfter, Lines.apply, hdir]) (by omega)
      rw [recvList, hbit]
      refine ⟨?_, hdraws⟩
      simp only [hbits]
      rw [List.range_succ_eq_map (n := n + 1), List.map_cons, List.map_map]
      simp [Function.comp_def, Nat.add_assoc, Nat.add_comm 1]

theorem recvBits_eq_recvList (n : Nat) (s : State) :
    recvBits n s = ((recvList n (wait s.timing.tEdge (emit (.dir .inp) s))).1,
      emit (.dir .out) (recvList n (wait s.timing.tEdge (emit (.dir .inp) s))).2) := rfl

theorem map_getLsbD {w : Nat} (n : Nat) (v : BitVec w) : (List.range n).map v.getLsbD = bitsOf n v.toNat := rfl

/-- A reception from a target that drives a frame samples that frame, and takes no draw. -/
theorem recvBits_driven {s : State} {t : RefTarget} {raw : Frame} (henv : s.env = .reference t)
    (hfloors : belowFloor s.timing = false) (hm : t.rmode = .lvp) (hd : t.due = 0) (hx : t.rx = .drive (some raw) 0) :
    (recvBits Config.wFrame s).1 = bitsOf Config.wFrame raw.toNat ∧ (recvBits Config.wFrame s).2.draws = s.draws := by
  have henv1 : (wait s.timing.tEdge (emit (.dir .inp) s)).env = .reference t := by
    simp [henv, envObserve, hfloors, envWait, targetWait_settled _ hd]
  obtain ⟨hbits, hdraws⟩ := recvList_driven Config.wFrame henv1 hfloors hm hd hx rfl le_rfl
  simp only [Nat.zero_add, map_getLsbD] at hbits
  simp only [recvBits_eq_recvList, hbits, emit_draws, hdraws, wait_draws, and_self]

theorem frame_of_bits (raw : Frame) : BitVec.ofNat Config.wFrame (bitsValue (bitsOf Config.wFrame raw.toNat)) = raw := by
  rw [bitsValue_bitsOf, Nat.mod_eq_of_lt raw.isLt, BitVec.ofNat_toNat, BitVec.setWidth_eq]

theorem opcodePlayed_timing (c : Cmd) (s : State) : (opcodePlayed c s).timing = s.timing := played_timing _ s

theorem opcodePlayed_draws (c : Cmd) (s : State) : (opcodePlayed c s).draws = s.draws := played_draws _ s

/-- A read command against a target that has the word answers the word's frame, and takes no draw (R58). -/
theorem issueCmd_driven {s : State} {t : RefTarget} (henv : s.env = .reference t)
    (h : CommandReady s.params s.timing s.lines t) {c : Cmd} (p : Payload) (hc : cmdClass c = .inp) {w : Payload}
    (hread : targetRead c t = some w) :
    (issueCmd c p s).1 = frameOf w ∧ (issueCmd c p s).2.draws = s.draws := by
  have hdue : (targetOpcode s.timing c t).due = 0 := (targetOpcode_due (by simp [hc]) s.timing).trans h.settled
  have henv1 : (opcodePlayed c s).env = .reference (targetOpcode s.timing c t) := by
    rw [opcodePlayed, played_env, henv, envAfter_opcode h, targetWait_settled _ hdue, targetWait_settled _ hdue]
  obtain ⟨hbits, hdraws⟩ := recvBits_driven (raw := frameOf w) henv1
    (by rw [opcodePlayed_timing, h.floors]) ((targetOpcode_rmode t c s.timing).trans h.programming) hdue (by rw [targetOpcode_inp hc, hread]; rfl)
  rw [issueCmd_inp p s hc]
  exact ⟨by rw [hbits, frame_of_bits], by rw [wait_draws, hdraws, opcodePlayed_draws]⟩

/-! ### The statements about commands -/

/-- From `s` to `t` a command stream has played `items`: what that does to the environment and the lines. -/
structure PlaysCommand (s t : State) (items : List TraceItem) : Prop where
  env : t.env = envAfter s.params s.timing s.lines items (envCommand s.env)
  lines : t.lines = linesAfter s.lines items
  timing : t.timing = s.timing
  params : t.params = s.params

theorem playsCommand_answered (r : Result) (data : List Word) (items : List TraceItem) (s : State) (k : Cursor)
    (d : Draws) : PlaysCommand s (answered r data { played items (arrive s) with cursor := k, draws := d }) items :=
  ⟨rfl, rfl, rfl, rfl⟩

/-- A command in `PROG` plays its trace, with some frame received. -/
theorem exec_playsCommand {i : Instr} {c : Cmd} {p : Payload} {s : State} (hform : commandForm i = some (c, p))
    (hprog : s.session = .prog) :
    ∃ rx t, (cmdClass c = .inp → rx.length = 16) ∧ exec i s = .next t ∧
      PlaysCommand s t (commandItems s.params s.timing c p rx) := by
  by_cases hc : cmdClass c = .inp
  · obtain ⟨bs, raw, d, hlen, -, -, hexec⟩ := readingCommandsComplete i c p s hform hc hprog
    exact ⟨bs, _, fun _ => hlen, hexec, playsCommand_answered .ok [readWord raw] _ s s.cursor d⟩
  · exact ⟨[], _, fun h => absurd h hc, exec_sends_prog hform hc hprog,
      playsCommand_answered .ok [] _ s (shadowAfter c s.cursor) s.draws⟩

theorem complete_responses (r : Result) (data : List Word) (s : State) :
    (complete r data s).responses = ⟨statusWord (complete r data s), data⟩ :: s.responses := rfl

theorem runRead_eq (c : Cmd) (s : State) :
    runRead c s = complete .ok [readWord (issueCmd c 0 s).1] (issueCmd c 0 s).2 := rfl

/-- Settles O55: the trace of a command makes the target do the command, and leads to idle lines. -/
theorem referenceTargetObeysCommands : Obligations.ReferenceTargetObeysCommands := by
  intro i c p s t0 hform hprog hready
  obtain ⟨rx, t, hrx, hexec, hplays⟩ := exec_playsCommand hform hprog
  obtain ⟨hmode, hboundary, hdue, hstray⟩ := targetCommand_kept c p { t0 with raw := false }
  refine ⟨t, hexec, ?_, hmode.trans hready.programming, hboundary.trans hready.atBoundary, hdue.trans hready.settled,
    hstray.trans hready.noStray, hplays.timing ▸ hready.floors, ?_, ?_, hplays.params ▸ hready.params⟩
  · rw [hplays.env, envCommand_of_ready hready, envAfter_commandItems (commandReady_of_ready hready) c p hrx]
  · rw [hplays.lines]
    exact (Whole.command _ _ _ _ _).idle _ hready.idle
  · rw [hplays.lines, MclrStays.command, hready.mclr]

/-- Settles O56: the frame sampled is the word's, and the trace leaves the target as it was. -/
theorem referenceTargetReadsBack : Obligations.ReferenceTargetReadsBack := by
  intro i c p s t0 w hform hc hprog hready hread
  have hready' := commandReady_of_ready hready
  have hread' : targetRead c { t0 with raw := false } = some w := by rw [← hread]; cases c <;> rfl
  obtain ⟨hframe, hdraws⟩ := issueCmd_driven (s := arrive s) (envCommand_of_ready hready) hready' 0 hc hread'
  obtain ⟨rx, t, hrx, hexec, hplays⟩ := exec_playsCommand hform hprog
  obtain ⟨rfl, hrun⟩ := exec_reads_prog hform hc hprog
  obtain rfl : runRead c (arrive s) = t := Host.Outcome.next.inj (hrun.symm.trans hexec)
  refine ⟨_, statusWord (complete .ok [readWord (frameOf w)] (issueCmd c 0 (arrive s)).2), hexec, ?_, ?_, ?_⟩
  · rw [runRead_eq, hframe, complete_responses, issueCmd_responses 0 _ hc, arrive_responses]
  · rw [hplays.env, envCommand_of_ready hready, envAfter_commandItems hready' c 0 hrx, targetCommand_inp hc]
  · rw [runRead_eq, complete_draws, hdraws, arrive_draws]

end Sys2Proof.Machine

/-! PROOFS. ENTER_PROG and RESET_TARGET against the reference target, and a command after part of a unit
(spec/20_memory.md section 5, spec/41_mode_control.md, spec/70_reset_and_hazards.md section 1). -/

namespace Sys2Proof.Machine

/-! ### The edges of the entry (R54, R93) -/

/-- The trace of ENTER_PROG before the key (R93). -/
def entryEdges (τ : Timing) : List TraceItem :=
  [.wait τ.tMclr.toNat, .event (.mclr true), .wait τ.tMclr.toNat, .event (.mclr false), .wait τ.tMclr.toNat]

theorem enterItems_eq (p : Params) (τ : Timing) :
    enterItems p τ = entryEdges τ ++ keyItems p τ.tEdge.toNat ++ [.wait τ.tKey.toNat] := rfl

/-- The target that the entry's edges leave: waiting for the key, with nothing latched and nothing raw in it (R54). -/
def awaitingKey (τ : Timing) (t : RefTarget) : RefTarget := targetWait (3 * τ.tMclr.toNat) (targetKeywait (targetRun t))

theorem awaitingKey_eq (τ : Timing) (t : RefTarget) :
    targetWait τ.tMclr.toNat (targetKeywait (targetWait τ.tMclr.toNat (targetRun (targetWait τ.tMclr.toNat t)))) =
      awaitingKey τ t := by
  simp only [awaitingKey, targetWait, targetKeywait, targetRun, Nat.sub_sub]
  congr 2
  omega

theorem envAfter_entryEdges (p : Params) {τ : Timing} (l : Lines) {t : RefTarget} (hfloors : belowFloor τ = false)
    (hpart : partUnit t = false) :
    envAfter p τ l (entryEdges τ) (.reference t) = .reference (awaitingKey τ t) := by
  have hpart' : partUnit (targetWait τ.tMclr.toNat t) = false := hpart
  have hrun (ns : Nat) (t : RefTarget) : partUnit (targetWait ns (targetRun t)) = false := rfl
  simp [← awaitingKey_eq, entryEdges, envAfter, envObserve, envWait, hfloors, hpart', hrun, targetMclr, Lines.apply]

/-- A desynchronised target sees the same edges; MCLR is raised from a hold only where it was held before them (R147). -/
theorem envAfter_entryEdges_desync (p : Params) {τ : Timing} (l : Lines) (t : RefTarget) (held restarted : Bool)
    (hfloors : belowFloor τ = false) :
    envAfter p τ l (entryEdges τ) (.desync t held restarted) = .desync (awaitingKey τ t) true (restarted || held) := by
  simp [← awaitingKey_eq, entryEdges, envAfter, envObserve, envWait, hfloors, desyncMclr, targetMclr, Lines.apply]

theorem linesIdle_entryEdges {l : Lines} (hl : LinesIdle l) (τ : Timing) : LinesIdle (linesAfter l (entryEdges τ)) := hl

/-! ### The key (R54, R67, R94) -/

/-- The target after the key's 33 bits (R54). -/
def keyTaken (e v : Nat) (t : RefTarget) : RefTarget := targetWait (99 * e) (targetKey (bitsOf 33 v) t)

theorem targetKey_targetWait (bits : List Bool) (ns : Nat) (t : RefTarget) :
    targetKey bits (targetWait ns t) = targetWait ns (targetKey bits t) := by
  unfold targetKey
  split <;> rfl

/-- The last bit of the key, after the 32 before it. -/
theorem targetTakeBit_keyEnd (p : Params) (τ : Timing) (e v : Nat) {t : RefTarget} (hm : t.rmode = .keywait) :
    targetTakeBit p τ (v.testBit 32)
        (targetWait (e + e) (targetWait (3 * 32 * e) { t with rx := .unit (bitsOf 32 v) })) =
      some (targetWait (98 * e) (targetKey (bitsOf 33 v) t)) := by
  have hbits : bitsOf 32 v ++ [v.testBit 32] = bitsOf 33 v := (bitsOf_succ 32 v).symm
  have hkey : targetKey (bitsOf 33 v) { t with rx := .unit (bitsOf 32 v) } = targetKey (bitsOf 33 v) t := by
    unfold targetKey
    split <;> rfl
  have hwait : 3 * 32 * e + (e + e) = 98 * e := by ring
  simp only [targetTakeBit, targetWait_targetWait, targetWait_rmode, targetWait_rx, hm, length_bitsOf, hbits, hwait,
    targetKey_targetWait, Nat.lt_irrefl, Nat.reduceAdd, if_false]
  rw [← hm, hkey]

theorem keyTaken_eq (e v : Nat) (t : RefTarget) :
    targetWait e (targetWait (98 * e) (targetKey (bitsOf 33 v) t)) = keyTaken e v t := by
  rw [targetWait_targetWait, keyTaken]
  congr 1
  ring

/-- An attached target takes the whole key. -/
theorem takeBits_wholeKey (p : Params) (τ : Timing) (e v : Nat) {t : RefTarget} (hm : t.rmode = .keywait)
    (hx : t.rx = .unit []) : takeBits p τ e (bitsOf 33 v) t = some (keyTaken e v t) := by
  rw [bitsOf_succ, takeBits_append, takeBits_key p τ e t hm (bitsOf 32 v) [] (by simp [length_bitsOf]) hx, Option.bind_some,
    List.nil_append, length_bitsOf, takeBits, targetTakeBit_keyEnd p τ e v hm, Option.bind_some, takeBits, keyTaken_eq]

/-- One bit of the key at a desynchronised target: it ends the recovery where it completes the key and RESET_TARGET went
before it (R147). -/
theorem envAfter_keyBit_desync (p : Params) {τ : Timing} (e : Nat) (b : Bool) {l : Lines} {t t' : RefTarget}
    (held restarted : Bool) (hfloors : belowFloor τ = false) (hl : LinesIdle l) (hm : t.rmode = .keywait)
    (ht : targetTakeBit p τ b (targetWait (e + e) t) = some t') :
    envAfter p τ l (bitItems e b) (.desync t held restarted) =
      envWait e (if t'.rmode = .lvp ∧ restarted = true then .reference t' else .desync t' false restarted) := by
  simp [bitItems, envAfter, envObserve, envWait, hfloors, Lines.apply, desyncFall, hl.2, ht, hm]

/-- Part of the key leaves a desynchronised target waiting for the rest. -/
theorem envAfter_partKey_desync (p : Params) {τ : Timing} (e : Nat) (bs : List Bool) {acc : List Bool} {l : Lines}
    {t : RefTarget} (held restarted : Bool) (hfloors : belowFloor τ = false) (hl : LinesIdle l) (hm : t.rmode = .keywait)
    (hx : t.rx = .unit acc) (hlen : acc.length + bs.length < 33) :
    ∃ held', envAfter p τ l (bs.flatMap (bitItems e)) (.desync t held restarted) =
      .desync (targetWait (3 * bs.length * e) { t with rx := .unit (acc ++ bs) }) held' restarted := by
  induction bs generalizing l t acc held with
  | nil => exact ⟨held, by simp [envAfter, targetWait, ← hx]⟩
  | cons b bs ih =>
    rw [List.length_cons] at hlen
    have htake : targetTakeBit p τ b (targetWait (e + e) t) =
        some { targetWait (e + e) t with rx := .unit (acc ++ [b]) } := by
      simp [targetTakeBit, hm, hx, show acc.length + 1 < 33 by omega]
    obtain ⟨held', hrest⟩ := ih (t := targetWait e { targetWait (e + e) t with rx := .unit (acc ++ [b]) }) (held := false)
      ((Whole.bit e b).idle l hl) hm rfl (by simp; omega)
    have hne : t.rmode ≠ .lvp := by simp [hm]
    refine ⟨held', ?_⟩
    rw [List.flatMap_cons, envAfter_append, envAfter_keyBit_desync p e b held restarted hfloors hl hm htake,
      if_neg (by simp [hne]), envWait, hrest]
    simp only [targetWait, List.append_assoc, List.cons_append, List.nil_append, List.length_cons, Nat.sub_sub]
    congr 3
    ring

/-- The whole key at a desynchronised target. -/
theorem envAfter_wholeKey_desync (p : Params) {τ : Timing} (e v : Nat) {l : Lines} {t : RefTarget} (held restarted : Bool)
    (hfloors : belowFloor τ = false) (hl : LinesIdle l) (hm : t.rmode = .keywait) (hx : t.rx = .unit []) :
    envAfter p τ l (sendItems e 33 v) (.desync t held restarted) =
      if (keyTaken e v t).rmode = .lvp ∧ restarted = true then .reference (keyTaken e v t)
      else .desync (keyTaken e v t) false restarted := by
  obtain ⟨held', hpart⟩ := envAfter_partKey_desync p e (bitsOf 32 v) held restarted hfloors hl hm hx
    (by simp [length_bitsOf])
  rw [length_bitsOf, List.nil_append] at hpart
  have hend := envAfter_keyBit_desync p e (v.testBit 32)
    (t := targetWait (3 * 32 * e) { t with rx := .unit (bitsOf 32 v) }) held' restarted hfloors
    ((Whole.bits e (bitsOf 32 v)).idle l hl) hm (targetTakeBit_keyEnd p τ e v hm)
  rw [sendItems, bitsOf_succ, List.flatMap_append, envAfter_append, hpart, List.flatMap_singleton, hend]
  have hmode : (targetWait (98 * e) (targetKey (bitsOf 33 v) t)).rmode = (keyTaken e v t).rmode := rfl
  rw [hmode]
  split <;> simp only [envWait, keyTaken_eq]

/-- The key of R7 is the one the target compares with (R54, R67). -/
theorem bitsValue_take_key {p : Params} (hr7 : R7Values p) :
    bitsValue ((bitsOf 33 p.key.toNat).take 32) = keyValue := by
  rw [bitsOf_succ, List.take_left' (length_bitsOf 32 _), bitsValue_bitsOf, hr7.key]
  decide

/-- What ENTER_PROG makes of a target: programming, at the start of the main space, with nothing latched, its memories as
they were (R54, R93). -/
def entered (τ : Timing) (t : RefTarget) : RefTarget :=
  { t with
    rmode := .lvp, rspace := .main, roff := 0, latchMain := [], latchCfg := [], latchD := [], rx := .unit []
    due := t.due - (3 * τ.tMclr.toNat + 99 * τ.tEdge.toNat + τ.tKey.toNat)
    raw := false, stray := 0 }

theorem keyTaken_awaitingKey {p : Params} (hr7 : R7Values p) (τ : Timing) (t : RefTarget) :
    targetWait τ.tKey.toNat (keyTaken τ.tEdge.toNat p.key.toNat (awaitingKey τ t)) = entered τ t := by
  rw [keyTaken, awaitingKey, targetKey_targetWait, targetWait_targetWait, targetWait_targetWait, targetKey,
    if_pos (bitsValue_take_key hr7), ← Nat.add_assoc]
  rfl

/-- The entry sequence at an attached target in which raw requests left no part unit. -/
theorem envAfter_enterItems {p : Params} (hr7 : R7Values p) {τ : Timing} {l : Lines} {t : RefTarget}
    (hfloors : belowFloor τ = false) (hl : LinesIdle l) (hpart : partUnit t = false) :
    envAfter p τ l (enterItems p τ) (.reference t) = .reference (entered τ t) := by
  rw [enterItems_eq, envAfter_append, envAfter_append, envAfter_entryEdges p l hfloors hpart, keyItems,
    envAfter_sendItems hfloors (linesIdle_entryEdges hl τ) rfl (takeBits_wholeKey p τ _ _ rfl rfl)]
  exact congrArg Env.reference (keyTaken_awaitingKey hr7 τ t)

/-- The entry sequence at a desynchronised target, up to the key. -/
theorem envAfter_enterItems_desync (p : Params) {τ : Timing} {l : Lines} (t : RefTarget) (held restarted : Bool)
    (hfloors : belowFloor τ = false) (hl : LinesIdle l) :
    envAfter p τ l (enterItems p τ) (.desync t held restarted) =
      envWait τ.tKey.toNat
        (if (keyTaken τ.tEdge.toNat p.key.toNat (awaitingKey τ t)).rmode = .lvp ∧ (restarted || held) = true then
          .reference (keyTaken τ.tEdge.toNat p.key.toNat (awaitingKey τ t))
        else .desync (keyTaken τ.tEdge.toNat p.key.toNat (awaitingKey τ t)) false (restarted || held)) := by
  rw [enterItems_eq, envAfter_append, envAfter_append, envAfter_entryEdges_desync p l t held restarted hfloors, keyItems,
    envAfter_wholeKey_desync p _ _ true _ hfloors (linesIdle_entryEdges hl τ) rfl rfl]
  rfl

theorem keyTaken_rmode {p : Params} (hr7 : R7Values p) (e : Nat) (t : RefTarget) :
    (keyTaken e p.key.toNat t).rmode = .lvp := by
  rw [keyTaken, targetWait_rmode, targetKey, if_pos (bitsValue_take_key hr7)]

/-! ### A command after part of a unit (R147, R152) -/

/-- No target fixes a sample, and RESET_TARGET has not gone before. -/
def Unattached (env : Env) : Prop := env = .oracle ∨ ∃ t held, env = .desync t held false

theorem Unattached.ne_reference {env : Env} (h : Unattached env) (t : RefTarget) : env ≠ .reference t := by
  rcases h with rfl | ⟨t', held, rfl⟩ <;> simp

theorem unattached_desyncFall (p : Params) (τ : Timing) (l : Lines) (t : RefTarget) :
    Unattached (desyncFall p τ l t false) := by
  unfold desyncFall
  split
  · exact .inr ⟨_, _, rfl⟩
  · exact .inl rfl
  · split
    · exact .inr ⟨_, _, rfl⟩
    · exact .inr ⟨_, _, rfl⟩
    · exact .inr ⟨_, _, rfl⟩
    · rw [if_neg (by simp)]
      exact .inr ⟨_, _, rfl⟩

/-- Only a drive of MCLR begins the recovery (R147). -/
theorem unattached_envObserve (p : Params) (τ : Timing) (l : Lines) {e : Event} (he : ∀ v, e ≠ .mclr v) {env : Env}
    (h : Unattached env) : Unattached (envObserve p τ l e env) := by
  rcases h with rfl | ⟨t, held, rfl⟩
  · exact .inl rfl
  · simp only [envObserve]
    split
    · exact .inl rfl
    · cases e with
      | mclr v => exact absurd rfl (he v)
      | clk v =>
        cases v with
        | true => exact .inr ⟨_, _, rfl⟩
        | false =>
          dsimp only
          split
          · exact unattached_desyncFall p τ l t
          · exact .inr ⟨_, _, rfl⟩
      | dat v => exact .inr ⟨_, _, rfl⟩
      | dir d => exact .inr ⟨_, _, rfl⟩
      | sample b => exact .inr ⟨_, _, rfl⟩

theorem unattached_envAfter (p : Params) (τ : Timing) (l : Lines) {items : List TraceItem}
    (hitems : ∀ v, .event (.mclr v) ∉ items) {env : Env} (h : Unattached env) :
    Unattached (envAfter p τ l items env) := by
  induction items generalizing l env with
  | nil => exact h
  | cons x items ih =>
    have hrest : ∀ v, .event (.mclr v) ∉ items := fun v hv => hitems v (List.mem_cons_of_mem x hv)
    cases x with
    | event e =>
      refine ih _ hrest (unattached_envObserve p τ l (fun v he => hitems v ?_) h)
      rw [he]
      exact List.mem_cons_self
    | wait ns =>
      refine ih _ hrest ?_
      rcases h with rfl | ⟨t, held, rfl⟩
      · exact .inl rfl
      · exact .inr ⟨_, _, rfl⟩

/-- A command drives MCLR nowhere (R18, R98). -/
theorem mclr_not_mem_commandItems (p : Params) (τ : Timing) (c : Cmd) (payload : Payload) (rx : List Bool) (v : Bool) :
    .event (.mclr v) ∉ commandItems p τ c payload rx := by
  have hsend (e n w : Nat) : .event (.mclr v) ∉ sendItems e n w := by simp [sendItems, bitItems]
  have hrecv (e : Nat) : .event (.mclr v) ∉ recvItems e rx := by simp [recvItems, pulseItems]
  unfold commandItems
  split <;> simp [hsend, hrecv]

/-- The four ways of part of a unit that raw requests can leave (R147, R152). -/
theorem partUnit_of_part {t : RefTarget} (hraw : t.raw = true)
    (hpart : (∃ b bs, t.rx = .unit (b :: bs)) ∨ (∃ c' b bs, t.rx = .frame c' (b :: bs)) ∨
      (∃ f j, t.rx = .drive f (j + 1)) ∨ t.stray ≠ 0) : partUnit t = true := by
  rcases hpart with ⟨b, bs, hx⟩ | ⟨c', b, bs, hx⟩ | ⟨f, j, hx⟩ | hstray
  · simp [partUnit, hraw, hx, partIn]
  · simp [partUnit, hraw, hx, partIn]
  · simp [partUnit, hraw, hx, partIn]
  · simp [partUnit, hraw, hstray]

/-! ### The statement -/

/-- What ENTER_PROG does to the environment (R93). -/
theorem exec_enterProg_env (s : State) :
    ∃ t, exec (.enterProg []) s = .next t ∧
      t.env = envAfter s.params s.timing s.lines (enterItems s.params s.timing) s.env := by
  refine ⟨_, exec_enterProg [] s, ?_⟩
  rw [if_pos rfl, answered_env]
  generalize enterItems s.params s.timing = items
  rfl

/-- Settles O57: the entry at an attached and at a desynchronised target, RESET_TARGET at a desynchronised one, and a
command that begins on part of a unit. -/
theorem enterProgReachesTarget : Obligations.EnterProgReachesTarget := by
  refine ⟨fun s t0 held hfloors hidle hr7 henv => ?enters, fun s t0 held restarted hfloors henv => ?resets,
    fun s t0 hfloors hidle henv => ?stays, fun i c p s t0 hform hprog henv hraw hpart => ?part⟩
  case enters =>
    obtain ⟨t, hexec, ht⟩ := exec_enterProg_env s
    refine ⟨t, hexec, ht.trans ?_⟩
    rcases henv with ⟨henv, hpart⟩ | henv
    · rw [henv, envAfter_enterItems hr7 hfloors hidle hpart, entered]
    · rw [henv, envAfter_enterItems_desync _ _ _ _ hfloors hidle, if_pos ⟨keyTaken_rmode hr7 _ _, rfl⟩, envWait,
        keyTaken_awaitingKey hr7, entered]
  case resets =>
    refine ⟨_, targetWait s.timing.tRst.toNat (targetRun (targetWait s.timing.tRst.toNat (targetMclr s.lines false t0))),
      exec_resetTarget [] s, ?_, ?_⟩
    · simp [resetItems, envAfter, envObserve, envWait, hfloors, henv, desyncMclr, targetMclr]
    · simp only [targetMclr, Bool.false_eq_true, if_false]
      split <;> exact ⟨rfl, rfl, rfl⟩
  case stays =>
    obtain ⟨t, hexec, ht⟩ := exec_enterProg_env s
    rw [henv, envAfter_enterItems_desync _ _ _ _ hfloors hidle, if_neg (by simp)] at ht
    exact ⟨t, _, hexec, ht⟩
  case part =>
    obtain ⟨rx, t, -, hexec, hplays⟩ := exec_playsCommand hform hprog
    refine ⟨t, hexec, Unattached.ne_reference ?_⟩
    rw [hplays.env]
    refine unattached_envAfter _ _ _ (mclr_not_mem_commandItems _ _ _ _ _) (.inr ⟨t0, false, ?_⟩)
    rw [henv, envCommand, if_pos (partUnit_of_part hraw hpart)]

end Sys2Proof.Machine
